-- ==== Sys2Proof/Word.lean ====
section
/-! DEFINITION. The byte, byte sequences and the plainest arithmetic of the spec's notation
(00_scope.md R10, R11). -/

namespace Sys2Proof

/-- A byte (R10: every value is unsigned, bit 0 least significant). -/
abbrev Byte := BitVec 8

/-- A byte sequence, first element first (R11). -/
abbrev Bytes := List Byte

/-- `ceil(a/b)`, integer division rounded up (R10). -/
def ceilDiv (a b : Nat) : Nat := (a + b - 1) / b

end Sys2Proof
end

