-- ==== Sys2Proof/Config.lean ====
section
/-! DEFINITION. What an implementation fixes: the format's literals (00_scope.md R8), the open parameter
DST_CAP (R9) and the alternative readings kept as parameters (93_implementation_defined.md section 3),
and the free choice between agents (log 12). -/

namespace Sys2Proof

/-- The fixed parameters of the format, one configuration record (R8; 93_implementation_defined.md section 4). -/
structure Format where
  blockSize      : Nat
  maxGroups      : Nat
  slots          : Nat
  window         : Nat
  minDist        : Nat
  lzMin          : Nat
  lzMax          : Nat
  rleMin         : Nat
  rleMax         : Nat
  prefixBytes    : Nat
  prefixMax      : Nat
  varintMaxExtra : Nat
  varintChunk    : Nat
  varintEncMax   : Nat
  distHighMask   : Byte
  lenMask        : Byte
  deriving DecidableEq, Repr

/-- The values of R8 and the operand masks of 30_encoding.md R96. UNVERIFIED (log 6): the spec says its
literals are unaudited. -/
def Config.format : Format where
  blockSize      := 512
  maxGroups      := 256
  slots          := 4
  window         := 4095
  minDist        := 2
  lzMin          := 2
  lzMax          := 17
  rleMin         := 2
  rleMax         := 257
  prefixBytes    := 2
  prefixMax      := 0xFFFF
  varintMaxExtra := 3
  varintChunk    := 6
  varintEncMax   := 2 ^ 24 - 1
  distHighMask   := 0xF0#8
  lenMask        := 0x0F#8

namespace Config
@[simp] theorem format_blockSize : format.blockSize = 512 := rfl
@[simp] theorem format_maxGroups : format.maxGroups = 256 := rfl
@[simp] theorem format_slots : format.slots = 4 := rfl
@[simp] theorem format_window : format.window = 4095 := rfl
@[simp] theorem format_minDist : format.minDist = 2 := rfl
@[simp] theorem format_lzMin : format.lzMin = 2 := rfl
@[simp] theorem format_lzMax : format.lzMax = 17 := rfl
@[simp] theorem format_rleMin : format.rleMin = 2 := rfl
@[simp] theorem format_rleMax : format.rleMax = 257 := rfl
@[simp] theorem format_prefixBytes : format.prefixBytes = 2 := rfl
@[simp] theorem format_prefixMax : format.prefixMax = 65535 := rfl
@[simp] theorem format_varintMaxExtra : format.varintMaxExtra = 3 := rfl
@[simp] theorem format_varintChunk : format.varintChunk = 6 := rfl
@[simp] theorem format_varintEncMax : format.varintEncMax = 16777215 := rfl
@[simp] theorem format_distHighMask : format.distHighMask = 0xF0#8 := rfl
@[simp] theorem format_lenMask : format.lenMask = 0x0F#8 := rfl
end Config

/-- MAX_CMDS = MAX_GROUPS × SLOTS (R8). -/
def Config.maxCmds : Nat := Config.format.maxGroups * Config.format.slots

/-- LZ_TIE: which distance wins among equally long matches (42_encoder.md R173, D6). -/
inductive LzTie where
  | smallest
  | largest
  deriving DecidableEq, Repr

/-- WINDOW_SCOPE: whether the encoder's candidates reach into earlier blocks (R173, R181, D7). -/
inductive WindowScope where
  | global
  | blockLocal
  deriving DecidableEq, Repr

/-- LOOKAHEAD: where matches and runs stop (R172, R174, R180, D8). -/
inductive Lookahead where
  | blockEnd
  | inputEnd
  deriving DecidableEq, Repr

/-- NONSTRICT_RESYNC: where a non-strict decoder reads the next prefix (43_block_framer.md R204, D9). -/
inductive Resync where
  | stay
  | seekToPrefix
  deriving DecidableEq, Repr

/-- VARINT_ENC_FORM: the bits an extra byte of the varint encoder holds (40_varint.md R122, D16). -/
inductive VarintForm where
  | sixBit
  | eightBit
  deriving DecidableEq, Repr

/-- CODE_MAP: the 2-bit codes of COPY, LZ77 and RLE, in one place (30_encoding.md R94, D2, N13).
END is 0 in every map: the source fixes it. -/
structure CodeMap where
  copy : BitVec 2
  lz77 : BitVec 2
  rle  : BitVec 2
  deriving DecidableEq, Repr

/-- The assignment of R94: COPY = 1, LZ77 = 2, RLE = 3. -/
def CodeMap.spec : CodeMap := { copy := 1, lz77 := 2, rle := 3 }

/-- A legal assignment gives each of the four commands its own code. -/
def CodeMap.wf (m : CodeMap) : Bool :=
  m.copy != 0 && m.lz77 != 0 && m.rle != 0 && m.copy != m.lz77 && m.copy != m.rle && m.lz77 != m.rle

/-- The parameters of one implementation. State holds them as plain data that no step changes (log 5). -/
structure Params where
  /-- DST_CAP; `none` is ∞ (R9, D14). -/
  dstCap      : Option Nat
  lzTie       : LzTie
  windowScope : WindowScope
  lookahead   : Lookahead
  resync      : Resync
  varintForm  : VarintForm
  codeMap     : CodeMap
  deriving DecidableEq, Repr

/-- The spec's defaults (D14, D6, D7, D8, D9, D16, D2). -/
def Params.spec : Params where
  dstCap      := none
  lzTie       := .smallest
  windowScope := .global
  lookahead   := .blockEnd
  resync      := .stay
  varintForm  := .sixBit
  codeMap     := CodeMap.spec

/-- The three agents of 10_state.md R20. -/
inductive Agent where
  | dec
  | enc
  | host
  deriving DecidableEq, Repr, Inhabited

/-- FREE VALUE (log 12). The spec gives no order between agents that share nothing (20_memory.md R71, R75):
which of several enabled agents moves is unconstrained. Applied to the counter State.tick. -/
opaque Config.arbiter : Nat → Agent

end Sys2Proof
end

