-- ==== Sys2Proof/Syntax.lean ====
section
/-! DEFINITION. The instructions: one constructor per row of spec/opcode_table.json. The four commands
(30_encoding.md R94 to R97) carry their operands' VALUES; the four varint forms (R98) their fields. -/

namespace Sys2Proof

/-- One element a decoder decodes from the stream. -/
inductive Instr where
  /-- END, source name EndBlock (41_command_decoder.md R142). -/
  | endBlock
  /-- COPY of a literal (R143, R95). -/
  | copy (literal : Byte)
  /-- LZ77 back-reference: distance 0..4095 (legal 2..4095), length 2..17 (R144, R96). -/
  | lz77 (distance length : Nat)
  /-- RLE: count 2..257 copies of a byte (R145, R97). -/
  | rle (count : Nat) (value : Byte)
  /-- A varint of one byte (40_varint.md R120, 30_encoding.md R98). -/
  | varint1 (low6 : BitVec 6)
  /-- A varint with one extra byte. -/
  | varint2 (low6 : BitVec 6) (e1 : Byte)
  /-- A varint with two extra bytes. -/
  | varint3 (low6 : BitVec 6) (e1 e2 : Byte)
  /-- A varint with three extra bytes. -/
  | varint4 (low6 : BitVec 6) (e1 e2 e3 : Byte)
  deriving DecidableEq, Repr

/-- The four commands of R94, by name. -/
inductive CmdKind where
  | endBlock
  | copy
  | lz77
  | rle
  deriving DecidableEq, Repr

/-- The two places of a stream an instruction can stand in: a header field (R90) or a slot of a group (R92). -/
inductive Place where
  | header
  | slot
  deriving DecidableEq, Repr

/-- The command an instruction is; a varint is none. -/
def Instr.kind : Instr → Option CmdKind
  | .endBlock => some .endBlock
  | .copy _ => some .copy
  | .lz77 _ _ => some .lz77
  | .rle _ _ => some .rle
  | .varint1 _ => none
  | .varint2 _ _ => none
  | .varint3 _ _ _ => none
  | .varint4 _ _ _ _ => none

/-- Where an instruction stands (R90, R92). -/
def Instr.place (i : Instr) : Place :=
  match i.kind with
  | some _ => .slot
  | none => .header

end Sys2Proof
end

