-- ==== Sys2Proof/WellFormed.lean ====
section
/-! DEFINITION. The field ranges of 30_encoding.md R103: what an encoding can hold. -/

namespace Sys2Proof

/-- An instruction whose fields an encoding can hold (R103): LZ77 distance 0..4095 and length 2..17, RLE
count 2..257. The other fields are as wide as their types. -/
def Instr.wf : Instr → Bool
  | .endBlock => true
  | .copy _ => true
  | .lz77 d l => decide (d ≤ Config.format.window) && decide (Config.format.lzMin ≤ l) && decide (l ≤ Config.format.lzMax)
  | .rle c _ => decide (Config.format.rleMin ≤ c) && decide (c ≤ Config.format.rleMax)
  | .varint1 _ => true
  | .varint2 _ _ => true
  | .varint3 _ _ _ => true
  | .varint4 _ _ _ _ => true

/-- R102: an LZ77 distance field of 0 or 1 is reserved. It decodes, and its execution raises
RESERVED_DISTANCE (R144), so it is no ill-formed instruction. -/
def Instr.reserved : Instr → Bool
  | .endBlock => false
  | .copy _ => false
  | .lz77 d _ => decide (d < Config.format.minDist)
  | .rle _ _ => false
  | .varint1 _ => false
  | .varint2 _ _ => false
  | .varint3 _ _ _ => false
  | .varint4 _ _ _ _ => false

end Sys2Proof
end

