-- ==== Sys2Proof/Decode.lean ====
section
/-! DEFINITION. The decoder, total on any bytes and rejecting by name, and after it the encoder, both from
30_encoding.md R90 to R104 and 40_varint.md R120. -/

namespace Sys2Proof

/-- Why bytes decode to no instruction. -/
inductive DecodeError where
  /-- An operand or extra byte is missing: the end of the input (R100, 60_exceptions.md R236). -/
  | inputEnd
  /-- The 2-bit code is assigned to no command: impossible under a legal CODE_MAP (R102, 60_exceptions.md R232). -/
  | invalidCommand (code : BitVec 2)
  deriving DecidableEq, Repr

/-! ### Fields -/

/-- The code of slot `slot` of a group byte, bits [2*slot+1 : 2*slot] (R93); bits above the byte are 0. -/
def slotCode (g : Byte) (slot : Nat) : BitVec 2 := g.extractLsb' (2 * slot) 2

/-- `distance = b0 | ((b1 & 0xF0) << 4)`, 12 bits (R96). -/
def lzDistance (b0 b1 : Byte) : Nat :=
  (b0.setWidth 12 ||| ((b1 &&& Config.format.distHighMask).setWidth 12 <<< 4)).toNat

/-- `length = (b1 & 0x0F) + 2` (R96). -/
def lzLength (b1 : Byte) : Nat := (b1 &&& Config.format.lenMask).toNat + Config.format.lzMin

/-- `count = n + 2` (R97). -/
def rleCount (n : Byte) : Nat := n.toNat + Config.format.rleMin

/-- F[7:6], the number of extra bytes of a varint (R98). -/
def varintExtra (f : Byte) : BitVec 2 := f.extractLsb' 6 2

/-- F[5:0] (R98). -/
def varintLow (f : Byte) : BitVec 6 := f.extractLsb' 0 6

/-- The command a code selects under a code assignment (R94); `none` where no command has the code. -/
def CodeMap.kind? (m : CodeMap) (code : BitVec 2) : Option CmdKind :=
  if code = 0 then some .endBlock
  else if code = m.copy then some .copy
  else if code = m.lz77 then some .lz77
  else if code = m.rle then some .rle
  else none

/-- The code of a command (R94). -/
def CodeMap.code (m : CodeMap) : CmdKind → BitVec 2
  | .endBlock => 0
  | .copy => m.copy
  | .lz77 => m.lz77
  | .rle => m.rle

/-! ### Decoding -/

/-- The operands of a command from the bytes that follow (R95 to R97), and the bytes left. -/
def decodeOperands (k : CmdKind) (bs : Bytes) : Except DecodeError (Instr × Bytes) :=
  match k, bs with
  | .endBlock, rest => .ok (.endBlock, rest)
  | .copy, b0 :: rest => .ok (.copy b0, rest)
  | .lz77, b0 :: b1 :: rest => .ok (.lz77 (lzDistance b0 b1) (lzLength b1), rest)
  | .rle, b0 :: b1 :: rest => .ok (.rle (rleCount b0) b1, rest)
  | .copy, [] => .error .inputEnd
  | .lz77, [] => .error .inputEnd
  | .lz77, [_] => .error .inputEnd
  | .rle, [] => .error .inputEnd
  | .rle, [_] => .error .inputEnd

/-- The command in slot `slot` of the group byte `g`, its operands at the head of `bs` (R92, R93, R94). -/
def decodeSlot (m : CodeMap) (g : Byte) (slot : Nat) (bs : Bytes) : Except DecodeError (Instr × Bytes) :=
  match m.kind? (slotCode g slot) with
  | some k => decodeOperands k bs
  | none => .error (.invalidCommand (slotCode g slot))

/-- The varint at the head of the bytes (R98); every first byte and every extra byte is accepted (R100). -/
def decodeVarint (bs : Bytes) : Except DecodeError (Instr × Bytes) :=
  match bs with
  | [] => .error .inputEnd
  | f :: rest =>
    if varintExtra f = 0 then .ok (.varint1 (varintLow f), rest)
    else if varintExtra f = 1 then
      match rest with
      | e1 :: r => .ok (.varint2 (varintLow f) e1, r)
      | [] => .error .inputEnd
    else if varintExtra f = 2 then
      match rest with
      | e1 :: e2 :: r => .ok (.varint3 (varintLow f) e1 e2, r)
      | _ => .error .inputEnd
    else
      match rest with
      | e1 :: e2 :: e3 :: r => .ok (.varint4 (varintLow f) e1 e2 e3, r)
      | _ => .error .inputEnd

/-- One instruction from whole bytes: a varint in a header field, or a group byte with its first command in
slot 0 and that command's operands. -/
def decode (m : CodeMap) (p : Place) (bs : Bytes) : Except DecodeError (Instr × Bytes) :=
  match p, bs with
  | .header, bs => decodeVarint bs
  | .slot, g :: rest => decodeSlot m g 0 rest
  | .slot, [] => .error .inputEnd

/-! ### The value of a varint (40_varint.md R120) -/

/-- The loop of R120 from extra byte `k` on: `v | (zext_32(E) << (6*k))`, each extra byte taken whole. -/
def orExtra : Nat → Bytes → BitVec 32 → BitVec 32
  | _, [], v => v
  | k, e :: es, v => orExtra (k + 1) es (v ||| (e.setWidth 32 <<< (Config.format.varintChunk * k)))

/-- The value of a varint: low6 or-ed with its extra bytes at shifts 6, 12, 18 (R120). -/
def varintValue (low6 : BitVec 6) (extra : Bytes) : BitVec 32 := orExtra 1 extra (low6.setWidth 32)

/-- The value a varint instruction carries to the header field it stands in; a command carries none. -/
def Instr.headerValue : Instr → Option (BitVec 32)
  | .endBlock => none
  | .copy _ => none
  | .lz77 _ _ => none
  | .rle _ _ => none
  | .varint1 low6 => some (varintValue low6 [])
  | .varint2 low6 e1 => some (varintValue low6 [e1])
  | .varint3 low6 e1 e2 => some (varintValue low6 [e1, e2])
  | .varint4 low6 e1 e2 e3 => some (varintValue low6 [e1, e2, e3])

/-! ### Encoding (R104, R99) -/

/-- The operand or extra bytes of an instruction, in stream order (R104, R99). -/
def Instr.operands : Instr → Bytes
  | .endBlock => []
  | .copy v => [v]
  | .lz77 d l => [BitVec.ofNat 8 d, (BitVec.ofNat 8 (d / 256) <<< 4) ||| BitVec.ofNat 8 (l - Config.format.lzMin)]
  | .rle c v => [BitVec.ofNat 8 (c - Config.format.rleMin), v]
  | .varint1 _ => []
  | .varint2 _ e1 => [e1]
  | .varint3 _ e1 e2 => [e1, e2]
  | .varint4 _ e1 e2 e3 => [e1, e2, e3]

/-- A group byte with `code` or-ed into the bits of slot `slot` (R93, R104). -/
def placeCode (g : Byte) (slot : Nat) (code : BitVec 2) : Byte := g ||| (code.setWidth 8 <<< (2 * slot))

/-- The first byte of a varint: N in bits 7:6, low6 in bits 5:0 (R98). -/
def varintFirst (n : BitVec 2) (low6 : BitVec 6) : Byte := n ++ low6

/-- The byte an instruction's bytes begin with: a group byte whose slot 0 holds the command and whose other
slots are 0 (END), or a varint's first byte. -/
def Instr.firstByte (m : CodeMap) : Instr → Byte
  | .endBlock => placeCode 0 0 (m.code .endBlock)
  | .copy _ => placeCode 0 0 (m.code .copy)
  | .lz77 _ _ => placeCode 0 0 (m.code .lz77)
  | .rle _ _ => placeCode 0 0 (m.code .rle)
  | .varint1 low6 => varintFirst 0 low6
  | .varint2 low6 _ => varintFirst 1 low6
  | .varint3 low6 _ _ => varintFirst 2 low6
  | .varint4 low6 _ _ _ => varintFirst 3 low6

/-- The bytes of a well-formed instruction standing alone. -/
def encode (m : CodeMap) (i : Instr) : Bytes := i.firstByte m :: i.operands

/-! ### The table's words -/

/-- The low `n` bytes of a number, the least significant first: the bytes of a table word as IN stores them. -/
def bytesOfWord : Nat → Nat → Bytes
  | 0, _ => []
  | n + 1, w => BitVec.ofNat 8 w :: bytesOfWord n (w / 256)

/-- The longest instruction: a varint of four bytes (R101). -/
def longestInstr : Nat := Config.format.varintMaxExtra + 1

/-- A table word names no place in the stream, and every byte is both a group byte and a varint's first byte.
DESIGN CHOICE (log 16): a word of less than a byte, or whose first byte has bits 7:2 all 0, stands for a
group byte with its command in slot 0; any other first byte is a varint's. -/
def tablePlace (nbits w : Nat) : Place :=
  if nbits < 8 ∨ w % 256 < 4 then .slot else .header

/-- What the decoder reads from a word of spec/opcode_table.json, bit 0 the least significant bit of the first
byte, the bytes after it zero. -/
def decodeTableWord (nbits w : Nat) : Option Instr :=
  match decode CodeMap.spec (tablePlace nbits w) (bytesOfWord longestInstr (w % 2 ^ nbits)) with
  | .ok (i, _) => some i
  | .error _ => none

end Sys2Proof
end

