-- ==== Sys2Proof/Machine/State.lean ====
section
/-! DEFINITION. The state of 10_state.md R20 to R46 as plain data, the faults the spec describes, the model's own
stops, and the state after power-on reset (70_reset_and_hazards.md R260). -/

namespace Sys2Proof.Machine

open Sys2Proof

/-- The decoder's control state (R21). -/
inductive DecPhase where
  | idle
  | hdrSize
  | hdrBlocks
  | blkPrefix
  | grpFetch
  | cmd
  | blkCheck
  | streamCheck
  | done
  | fault
  deriving DecidableEq, Repr

/-- The encoder's control state (R35). -/
inductive EncPhase where
  | idle
  | check
  | header
  | blkOpen
  | grpOpen
  | slot
  | grpClose
  | blkClose
  | done
  | fault
  deriving DecidableEq, Repr

/-- The faults the spec describes, with what each records (60_exceptions.md R231). Raising one is a NEXT state
(R230; `Exn.record`, `Dec.raise`, `Enc.raise` in Ops.lean; log 4). -/
inductive Exn where
  /-- Code 1 (R232). -/
  | invalidCommand (code : BitVec 2) (ipos : Nat)
  /-- Code 2 (R233). -/
  | blockSizeMismatch (blk declared consumed : Nat)
  /-- Code 3 (R234). -/
  | uncompressedSizeMismatch (declared produced : Nat)
  /-- Code 4 kind 1 (R235). -/
  | varintRange (value : Nat)
  /-- Code 4 kind 2 (R235). -/
  | blockSizeRange (value : Nat)
  /-- Code 4 kind 3 (R235). -/
  | emptyInput
  /-- Code 5 kind 1 (R236). -/
  | inputEnd (ipos : Nat)
  /-- Code 5 kind 2 (R236). -/
  | dstUnderflow (len distance : Nat)
  /-- Code 5 kind 3 (R236). -/
  | dstFull (len : Nat)
  /-- Code 6 (R237). -/
  | reservedDistance (distance ipos : Nat)
  deriving DecidableEq, Repr

/-- The fault record of an engine (R41). -/
structure FaultRecord where
  code  : BitVec 8
  info0 : Nat
  info1 : Nat
  info2 : Nat
  deriving DecidableEq, Repr

/-- No fault: code 0, info fields 0 (R41). -/
def FaultRecord.clear : FaultRecord := { code := 0, info0 := 0, info1 := 0, info2 := 0 }

/-- The decoder engine (R21 to R34, R41, R42). DST.len is the length of `dst`, IN_LEN that of `inp`. -/
structure Dec where
  phase   : DecPhase
  strict  : Bool
  inp     : Bytes
  ipos    : Nat
  usize   : BitVec 32
  nblocks : BitVec 32
  blk     : BitVec 32
  bsize   : BitVec 16
  bstart  : Nat
  gcnt    : BitVec 9
  gbyte   : Byte
  slot    : BitVec 3
  dst     : Bytes
  fault   : FaultRecord
  result  : Bytes
  deriving DecidableEq, Repr

/-- The encoder engine (R35 to R39, R41, R42). OUT.len is the length of `out`. -/
structure Enc where
  phase   : EncPhase
  src     : Bytes
  n       : Nat
  p       : Nat
  nblocks : Nat
  blk     : Nat
  bs      : Nat
  be      : Nat
  ppos    : Nat
  gpos    : Nat
  gbyte   : Byte
  slot    : BitVec 3
  out     : Bytes
  fault   : FaultRecord
  result  : Bytes
  deriving DecidableEq, Repr

/-- The START fields of the host port (R42), and one write of them, whose `strict` counts only with op 1. -/
structure StartPort where
  op     : BitVec 2
  strict : Bool
  input  : Bytes
  deriving DecidableEq, Repr

/-- The machine. `pending`, `turn` and `tick` are the model's own fields (log 12, 14). -/
structure State where
  params  : Params
  dec     : Dec
  enc     : Enc
  start   : StartPort
  pending : List StartPort
  turn    : Agent
  tick    : Nat
  deriving DecidableEq, Repr

/-- The model's own stops. Each is SAFE, and none is reached from a state that meets `State.Inv` (log 18, 20):
the spec's own faults are `Exn`, and raising one is a next state. -/
inductive Fault where
  /-- Raised by SLOT: a read of SRC at or above N, a position 20_memory.md R63 says is never read. Safe. -/
  | sourceReadOutside (pos : Nat)
  /-- Raised by GRP_CLOSE and BLK_CLOSE: a patch of OUT at or above OUT.len, where 20_memory.md R64 gives no byte. Safe. -/
  | patchOutside (pos : Nat)
  /-- Raised by the copy of LZ77: a read of DST at or above DST.len (20_memory.md R62). Safe, and never reached. -/
  | dstReadOutside (pos : Nat)
  /-- Raised by HEADER when ENC.N is 0: num_blocks − 1 would be negative, which no varint represents
  (43_block_framer.md R209); CHECK refuses N = 0 before. Safe. -/
  | negativeBlockCount
  /-- Raised by the meaning of a varint in a phase that takes no header value (40_varint.md R120: used by the
  HDR_SIZE and HDR_BLOCKS steps only). No step runs a varint there. Safe. -/
  | headerValueNotTaken
  deriving DecidableEq, Repr

/-- Reasons to give an instruction no meaning. -/
inductive Refusal where
  /-- Raised by exec's arm of an instruction without a meaning. Safe. No arm uses it. -/
  | notModelled (mnemonic : String)
  deriving DecidableEq, Repr

/-- DEC after reset: R260, R46; 0 or empty where the spec gives no value (DESIGN CHOICE, log 2). -/
def Dec.reset : Dec where
  phase   := .idle
  strict  := false
  inp     := []
  ipos    := 0
  usize   := 0
  nblocks := 0
  blk     := 0
  bsize   := 0
  bstart  := 0
  gcnt    := 0
  gbyte   := 0
  slot    := 0
  dst     := []
  fault   := FaultRecord.clear
  result  := []

/-- ENC after reset: R260, R46; 0 or empty where the spec gives no value (DESIGN CHOICE, log 2). -/
def Enc.reset : Enc where
  phase   := .idle
  src     := []
  n       := 0
  p       := 0
  nblocks := 0
  blk     := 0
  bs      := 0
  be      := 0
  ppos    := 0
  gpos    := 0
  gbyte   := 0
  slot    := 0
  out     := []
  fault   := FaultRecord.clear
  result  := []

/-- START after reset (R42). -/
def StartPort.reset : StartPort := { op := 0, strict := false, input := [] }

/-- The machine right after power-on reset (R260): both engines idle, nothing pending. -/
def State.reset : State where
  params  := Params.spec
  dec     := Dec.reset
  enc     := Enc.reset
  start   := StartPort.reset
  pending := []
  turn    := .dec
  tick    := 0

end Sys2Proof.Machine
end

