-- ==== Sys2Proof/Machine/Ops.lean ====
section
/-! DEFINITION. The primitives of 00_scope.md R12 over the four spaces (20_memory.md R61 to R64), and raising a
fault (60_exceptions.md R230), the one shared operation. There is no return from a fault (R240): the next START
clears it (HostPort.lean). -/

namespace Sys2Proof.Machine

open Sys2Proof

/-- What a piece of a rule does: goes on with a value, has raised a fault of the spec (nothing after it is
performed, R230), or stops the model. -/
inductive Act (σ α : Type) where
  | go (a : α) (s : σ)
  | raised (s : σ)
  | stop (f : Fault)
  deriving DecidableEq, Repr

/-- Performs `f` after `m`, unless `m` raised or stopped. -/
def Act.bind {σ α β : Type} (m : Act σ α) (f : α → σ → Act σ β) : Act σ β :=
  match m with
  | .go a s => f a s
  | .raised s => .raised s
  | .stop r => .stop r

/-! ### Raising a fault -/

/-- The code and info fields of R231, missing ones 0. -/
def Exn.record : Exn → FaultRecord
  | .invalidCommand code ipos => { code := 1, info0 := code.toNat, info1 := ipos, info2 := 0 }
  | .blockSizeMismatch blk declared consumed => { code := 2, info0 := blk, info1 := declared, info2 := consumed }
  | .uncompressedSizeMismatch declared produced => { code := 3, info0 := declared, info1 := produced, info2 := 0 }
  | .varintRange v => { code := 4, info0 := 1, info1 := v, info2 := 0 }
  | .blockSizeRange v => { code := 4, info0 := 2, info1 := v, info2 := 0 }
  | .emptyInput => { code := 4, info0 := 3, info1 := 0, info2 := 0 }
  | .inputEnd ipos => { code := 5, info0 := 1, info1 := ipos, info2 := 0 }
  | .dstUnderflow len d => { code := 5, info0 := 2, info1 := len, info2 := d }
  | .dstFull len => { code := 5, info0 := 3, info1 := len, info2 := 0 }
  | .reservedDistance d ipos => { code := 6, info0 := d, info1 := ipos, info2 := 0 }

/-- `raise E` in DEC (R230): FAULT written, phase FAULT, everything else as it is (R239). -/
def Dec.raise (d : Dec) (e : Exn) : Dec := { d with phase := .fault, fault := e.record }

/-- `raise E` in ENC (R230). -/
def Enc.raise (c : Enc) (e : Exn) : Enc := { c with phase := .fault, fault := e.record }

/-! ### IN and DST -/

/-- DEC with `n` more bytes of IN read: ipos advances by one for each (10_state.md R32). -/
def Dec.past (d : Dec) (n : Nat) : Dec := { d with ipos := d.ipos + n }

/-- `InByte()` (R12, R61): the byte at DEC.ipos, which advances; IO(INPUT_END) at the end, ipos not advanced. -/
def inByte (d : Dec) : Act Dec Byte :=
  match d.inp[d.ipos]? with
  | some b => .go b (d.past 1)
  | none => .raised (d.raise (.inputEnd d.ipos))

/-- Whether DST.len = DST_CAP (R62). -/
def dstIsFull (p : Params) (d : Dec) : Bool := p.dstCap == some d.dst.length

/-- `DstAppend(v)` (R12, R62): the byte at DST.len; IO(DST_FULL) at capacity. -/
def dstAppend (p : Params) (v : Byte) (d : Dec) : Act Dec Unit :=
  if dstIsFull p d then .raised (d.raise (.dstFull d.dst.length))
  else .go () { d with dst := d.dst ++ [v] }

/-- `MemRead(DST, a, 1)` for a < DST.len (R62). -/
def dstRead (a : Nat) (d : Dec) : Act Dec Byte :=
  match d.dst[a]? with
  | some b => .go b d
  | none => .stop (.dstReadOutside a)

/-- `n` appends of the same byte, stopping at the first that finds the destination full (41_command_decoder.md R145). -/
def dstFill (p : Params) (v : Byte) : Nat → Dec → Act Dec Unit
  | 0, d => .go () d
  | n + 1, d => (dstAppend p v d).bind fun _ d' => dstFill p v n d'

/-- `n` times: read the byte `dist` behind the current end, append it (R144, 70_reset_and_hazards.md R265):
byte-serial, so that the copy may read bytes it has written itself. -/
def dstCopyBack (p : Params) (dist : Nat) : Nat → Dec → Act Dec Unit
  | 0, d => .go () d
  | n + 1, d =>
    (dstRead (d.dst.length - dist) d).bind fun v d' =>
      (dstAppend p v d').bind fun _ d'' => dstCopyBack p dist n d''

/-! ### SRC and OUT -/

/-- `S[a]` for a < N (R63). -/
def srcRead (a : Nat) (c : Enc) : Act Enc Byte :=
  match c.src[a]? with
  | some b => .go b c
  | none => .stop (.sourceReadOutside a)

/-- Successive `OutAppend`s (R12, R64). -/
def outAppend (bs : Bytes) (c : Enc) : Enc := { c with out := c.out ++ bs }

/-- `OutPatch(a, v)` for a < OUT.len (R12, R64). -/
def outPatch (a : Nat) (v : Byte) (c : Enc) : Act Enc Unit :=
  if a < c.out.length then .go () { c with out := c.out.set a v } else .stop (.patchOutside a)

/-! ### From an engine's rule to the machine's step -/

/-- The machine with another DEC: ENC, the host port and the parameters stay (R3, R20). -/
def State.withDec (s : State) (d : Dec) : State := { s with dec := d }

/-- The machine with another ENC. -/
def State.withEnc (s : State) (c : Enc) : State := { s with enc := c }

/-- A rule of DEC as a step of the machine. -/
def onDec (f : Params → Dec → Act Dec Unit) (s : State) : Host.Outcome State Fault Refusal :=
  match f s.params s.dec with
  | .go _ d => .next (s.withDec d)
  | .raised d => .next (s.withDec d)
  | .stop r => .fault r

/-- A rule of ENC as a step of the machine. -/
def onEnc (f : Params → Enc → Act Enc Unit) (s : State) : Host.Outcome State Fault Refusal :=
  match f s.params s.enc with
  | .go _ c => .next (s.withEnc c)
  | .raised c => .next (s.withEnc c)
  | .stop r => .fault r

/-! ### The four spaces as cells -/

/-- A space as (address, byte) cells from address `a` on: the address of a byte is its index (R60, log 1). -/
def Space.cellsFrom : Nat → Bytes → List Host.Cell
  | _, [] => []
  | a, b :: bs => (a, b) :: Space.cellsFrom (a + 1) bs

/-- The cells of a space, positions numbered from 0 (R60). -/
def Space.cells (m : Bytes) : List Host.Cell := Space.cellsFrom 0 m

/-- The canonical form of a list of cells: addresses strictly rising. An address that is not listed holds no
byte, so no entry can equal what an unlisted address reads as. -/
abbrev Memory.wf (cells : List Host.Cell) : Prop := cells.Pairwise fun x y => x.1 < y.1

end Sys2Proof.Machine
end

