-- ==== Sys2Proof/Machine/Operands.lean ====
section
/-! DEFINITION. Reading an instruction's bytes from IN at DEC.ipos: the varint of a header field (40_varint.md
R120) and the operands of the command in the current slot (41_command_decoder.md R141 to R145). -/

namespace Sys2Proof.Machine

open Sys2Proof

/-- The bytes of IN that are still to be read. -/
def Dec.remaining (d : Dec) : Bytes := d.inp.drop d.ipos

/-- What the current place of the stream decodes to: a varint in the header phases, the slot's command else. -/
def Dec.decodeHere (p : Params) (d : Dec) : Place → Except DecodeError (Instr × Bytes)
  | .header => decodeVarint d.remaining
  | .slot => decodeSlot p.codeMap d.gbyte d.slot.toNat d.remaining

/-- Reads the instruction at the current place: ipos moves past the bytes read (R32). Where a byte is missing
the bytes before it have been read, so IO(INPUT_END) stands at the end of IN (R61, R239). INVALID_COMMAND is
the defensive arm of R146. DEDUCED (log 17): the reads come before the rest of the rule, as in its pseudocode. -/
def fetch (pl : Place) (p : Params) (d : Dec) : Act Dec Instr :=
  match d.decodeHere p pl with
  | .ok (i, rest) => .go i (d.past (d.remaining.length - rest.length))
  | .error .inputEnd =>
    .raised ((d.past d.remaining.length).raise (.inputEnd (d.ipos + d.remaining.length)))
  | .error (.invalidCommand code) => .raised (d.raise (.invalidCommand code d.ipos))

/-- `b0 | (b1 << 8)`, little-endian (20_memory.md R65). -/
def prefixValue (b0 b1 : Byte) : BitVec 16 := b0.setWidth 16 ||| (b1.setWidth 16 <<< 8)

/-- size[7:0] of a prefix to be patched (43_block_framer.md R212). -/
def prefixLow (size : Nat) : Byte := BitVec.ofNat 8 size

/-- size[15:8]. -/
def prefixHigh (size : Nat) : Byte := BitVec.ofNat 8 (size / 256)

end Sys2Proof.Machine
end

