-- ==== Sys2Proof/Machine/Flags.lean ====
section
/-! DEFINITION. The core has no condition codes (10_state.md R44). Its only flags: STATUS, computed from the phase
(R42), and DEC.strict, which gates the two size checks (R23, 60_exceptions.md R247). -/

namespace Sys2Proof.Machine

open Sys2Proof

/-- STATUS.busy of DEC: 1 while phase is neither IDLE, DONE nor FAULT (R42). -/
def Dec.busy (d : Dec) : Bool := d.phase != .idle && d.phase != .done && d.phase != .fault

/-- STATUS.done of DEC (R42). -/
def Dec.isDone (d : Dec) : Bool := d.phase == .done

/-- STATUS.fault of DEC (R42). -/
def Dec.isFault (d : Dec) : Bool := d.phase == .fault

/-- STATUS.busy of ENC (R42). -/
def Enc.busy (c : Enc) : Bool := c.phase != .idle && c.phase != .done && c.phase != .fault

/-- STATUS.done of ENC (R42). -/
def Enc.isDone (c : Enc) : Bool := c.phase == .done

/-- STATUS.fault of ENC (R42). -/
def Enc.isFault (c : Enc) : Bool := c.phase == .fault

/-- The bytes read since the block's prefix (43_block_framer.md R203). -/
def Dec.consumed (d : Dec) : Nat := d.ipos - d.bstart

/-- BLOCK_SIZE_MISMATCH's condition: strict and consumed ≠ declared (60_exceptions.md R233). -/
def Dec.blockMismatch (d : Dec) : Bool := d.strict && d.consumed != d.bsize.toNat

/-- UNCOMPRESSED_SIZE_MISMATCH's condition: strict and DST.len ≠ declared (R234). -/
def Dec.sizeMismatch (d : Dec) : Bool := d.strict && d.dst.length != d.usize.toNat

end Sys2Proof.Machine
end

