-- ==== Sys2Proof/Machine/Framer.lean ====
section
/-! DEFINITION. The decoder side of the block framer (43_block_framer.md R200 to R206) and the group fetch
(41_command_decoder.md R140). -/

namespace Sys2Proof.Machine

open Sys2Proof

/-- What the HDR_SIZE and HDR_BLOCKS steps do with the varint's value (R200, R201). No other phase takes a
header value (log 20). -/
def takeHeader (v : BitVec 32) (d : Dec) : Act Dec Unit :=
  match d.phase with
  | .hdrSize => .go () { d with usize := v, phase := .hdrBlocks }
  | .hdrBlocks => .go () { d with nblocks := v + 1, blk := 0, phase := .blkPrefix }
  | .idle => .stop .headerValueNotTaken
  | .blkPrefix => .stop .headerValueNotTaken
  | .grpFetch => .stop .headerValueNotTaken
  | .cmd => .stop .headerValueNotTaken
  | .blkCheck => .stop .headerValueNotTaken
  | .streamCheck => .stop .headerValueNotTaken
  | .done => .stop .headerValueNotTaken
  | .fault => .stop .headerValueNotTaken

/-- BLK_PREFIX (R202): the two prefix bytes, little-endian, and the position after them. -/
def blkPrefix (_ : Params) (d : Dec) : Act Dec Unit :=
  (inByte d).bind fun b0 d1 =>
    (inByte d1).bind fun b1 d2 =>
      .go () { d2 with bsize := prefixValue b0 b1, bstart := d2.ipos, gcnt := 0, phase := .grpFetch }

/-- GRP_FETCH (R140): the group bound of R148, or the next group byte. -/
def grpFetch (_ : Params) (d : Dec) : Act Dec Unit :=
  if d.gcnt.toNat = Config.format.maxGroups then .go () { d with phase := .blkCheck }
  else
    (inByte d).bind fun g d1 =>
      .go () { d1 with gbyte := g, gcnt := d1.gcnt + 1, slot := 0, phase := .cmd }

/-- Where the next prefix is read: where the commands ended (R204, D9), or, under NONSTRICT_RESYNC =
SEEK_TO_PREFIX and not strict, at bstart + bsize (log 9). -/
def Dec.nextPrefix (p : Params) (d : Dec) : Nat :=
  match p.resync with
  | .stay => d.ipos
  | .seekToPrefix => if d.strict then d.ipos else d.bstart + d.bsize.toNat

/-- BLK_CHECK (R203): the strict check, then the next block or the stream check. -/
def blkCheck (p : Params) (d : Dec) : Act Dec Unit :=
  if d.blockMismatch then .raised (d.raise (.blockSizeMismatch d.blk.toNat d.bsize.toNat d.consumed))
  else if d.blk + 1 < d.nblocks then
    .go () { d with blk := d.blk + 1, ipos := d.nextPrefix p, phase := .blkPrefix }
  else .go () { d with blk := d.blk + 1, phase := .streamCheck }

/-- STREAM_CHECK (R205): the strict check, then DONE and RESULT. -/
def streamCheck (_ : Params) (d : Dec) : Act Dec Unit :=
  if d.sizeMismatch then .raised (d.raise (.uncompressedSizeMismatch d.usize.toNat d.dst.length))
  else .go () { d with phase := .done, result := d.dst }

end Sys2Proof.Machine
end

