-- ==== Sys2Proof/Machine/Commands.lean ====
section
/-! DEFINITION. The meanings of END, COPY, LZ77 and RLE (41_command_decoder.md R142 to R147). Their operand bytes
have been read (`fetch`), so DEC.ipos stands after them, as where the pseudocode uses it. -/

namespace Sys2Proof.Machine

open Sys2Proof

/-- `Advance` (R147). -/
def advance (d : Dec) : Dec :=
  if d.slot = 3 then { d with phase := .grpFetch }
  else { d with slot := d.slot + 1, phase := .cmd }

/-- END (R142): the block ends at once. -/
def execEndBlock (s : State) : Host.Outcome State Fault Refusal :=
  onDec (fun _ d => .go () { d with phase := .blkCheck }) s

/-- COPY (R143): the literal is appended. -/
def execCopy (literal : Byte) (s : State) : Host.Outcome State Fault Refusal :=
  onDec (fun p d => (dstAppend p literal d).bind fun _ d' => .go () (advance d')) s

/-- LZ77 (R144) on DEC: the two checks in the order of 60_exceptions.md R238, then the byte-serial copy. -/
def lz77 (distance length : Nat) (p : Params) (d : Dec) : Act Dec Unit :=
  if distance < Config.format.minDist then .raised (d.raise (.reservedDistance distance d.ipos))
  else if d.dst.length < distance then .raised (d.raise (.dstUnderflow d.dst.length distance))
  else (dstCopyBack p distance length d).bind fun _ d' => .go () (advance d')

/-- LZ77 (R144). -/
def execLz77 (distance length : Nat) (s : State) : Host.Outcome State Fault Refusal :=
  onDec (lz77 distance length) s

/-- RLE (R145): `count` copies of the byte. -/
def execRle (count : Nat) (value : Byte) (s : State) : Host.Outcome State Fault Refusal :=
  onDec (fun p d => (dstFill p value count d).bind fun _ d' => .go () (advance d')) s

end Sys2Proof.Machine
end

