-- ==== Sys2Proof/Machine/Varint.lean ====
section
/-! DEFINITION. The varint codec: the meanings of VARINT1 to VARINT4 (40_varint.md R120, R121; what takes the value:
43_block_framer.md R200, R201) and VARINT.ENC (R122, R123). -/

namespace Sys2Proof.Machine

open Sys2Proof

/-- VARINT1: no extra byte (R120). -/
def execVarint1 (low6 : BitVec 6) (s : State) : Host.Outcome State Fault Refusal :=
  onDec (fun _ d => takeHeader (varintValue low6 []) d) s

/-- VARINT2: one extra byte, or-ed whole at shift 6 (R120). -/
def execVarint2 (low6 : BitVec 6) (e1 : Byte) (s : State) : Host.Outcome State Fault Refusal :=
  onDec (fun _ d => takeHeader (varintValue low6 [e1]) d) s

/-- VARINT3: extra bytes at shifts 6 and 12 (R120). -/
def execVarint3 (low6 : BitVec 6) (e1 e2 : Byte) (s : State) : Host.Outcome State Fault Refusal :=
  onDec (fun _ d => takeHeader (varintValue low6 [e1, e2]) d) s

/-- VARINT4: extra bytes at shifts 6, 12 and 18 (R120). -/
def execVarint4 (low6 : BitVec 6) (e1 e2 e3 : Byte) (s : State) : Host.Outcome State Fault Refusal :=
  onDec (fun _ d => takeHeader (varintValue low6 [e1, e2, e3]) d) s

/-- Extra byte k of a varint to be written: v[6k+5:6k] in the canonical form (30_encoding.md R99), v[6k+7:6k]
under VARINT_ENC_FORM = EIGHT_BIT (log 10). -/
def varintExtraByte (f : VarintForm) (v k : Nat) : Byte :=
  match f with
  | .sixBit => BitVec.ofNat 8 (v / 2 ^ (6 * k) % 64)
  | .eightBit => BitVec.ofNat 8 (v / 2 ^ (6 * k))

/-- The largest value N extra bytes hold is one less than this: 2^(6(N+1)) in the canonical form (R99), 2^(6N+8)
for N ≥ 1 under EIGHT_BIT (log 10). -/
def varintBound (f : VarintForm) (n : Nat) : Nat :=
  match f with
  | .sixBit => 2 ^ (6 * (n + 1))
  | .eightBit => if n = 0 then 2 ^ 6 else 2 ^ (6 * n + 8)

/-- The varint written for a value: N the smallest count that holds it (R122, R99). -/
def varintInstr (f : VarintForm) (v : Nat) : Instr :=
  if v < varintBound f 0 then .varint1 (BitVec.ofNat 6 v)
  else if v < varintBound f 1 then .varint2 (BitVec.ofNat 6 v) (varintExtraByte f v 1)
  else if v < varintBound f 2 then
    .varint3 (BitVec.ofNat 6 v) (varintExtraByte f v 1) (varintExtraByte f v 2)
  else .varint4 (BitVec.ofNat 6 v) (varintExtraByte f v 1) (varintExtraByte f v 2) (varintExtraByte f v 3)

/-- The bytes of a varint written for a value. -/
def varintBytes (f : VarintForm) (v : Nat) : Bytes := encode CodeMap.spec (varintInstr f v)

/-- `VarintWrite(v)` (R122): NUMERIC_RANGE(VARINT_RANGE) above 2^24 − 1, before any byte; no wrap (R123). -/
def varintWrite (p : Params) (v : Nat) (c : Enc) : Act Enc Unit :=
  if Config.format.varintEncMax < v then .raised (c.raise (.varintRange v))
  else .go () (outAppend (varintBytes p.varintForm v) c)

end Sys2Proof.Machine
end

