-- ==== Sys2Proof/Machine/Dispatch.lean ====
section
/-! DEFINITION. One arm per constructor of Instr. -/

namespace Sys2Proof.Machine

open Sys2Proof

def exec (i : Instr) (s : State) : Host.Outcome State Fault Refusal :=
  match i with
  | .endBlock => Sys2Proof.Machine.execEndBlock s
  | .copy literal => Sys2Proof.Machine.execCopy literal s
  | .lz77 distance length => Sys2Proof.Machine.execLz77 distance length s
  | .rle count value => Sys2Proof.Machine.execRle count value s
  | .varint1 low6 => Sys2Proof.Machine.execVarint1 low6 s
  | .varint2 low6 e1 => Sys2Proof.Machine.execVarint2 low6 e1 s
  | .varint3 low6 e1 e2 => Sys2Proof.Machine.execVarint3 low6 e1 e2 s
  | .varint4 low6 e1 e2 e3 => Sys2Proof.Machine.execVarint4 low6 e1 e2 e3 s

end Sys2Proof.Machine
end

