-- ==== Sys2Proof/Machine/Encoder.lean ====
section
/-! DEFINITION. The encoder engine: match finder, run counter, selector, packer (42_encoder.md R170 to R182) and
the encoder side of the framer (43_block_framer.md R208 to R212). -/

namespace Sys2Proof.Machine

open Sys2Proof

/-! ### Match finder -/

/-- R172's loop from length `l` on, at most `fuel` more: goes on while l < d, p + l < be and the bytes agree. -/
def matchFrom (src : Bytes) (p d be : Nat) : Nat → Nat → Nat
  | 0, l => l
  | fuel + 1, l =>
    if l < d ∧ p + l < be ∧ src[p + l]? = src[p - d + l]? then matchFrom src p d be fuel (l + 1) else l

/-- `MatchLen(p, d, be)` (R172), capped at LZ_MAX = 17. -/
def matchLen (src : Bytes) (p d be : Nat) : Nat := matchFrom src p d be Config.format.lzMax 0

/-- Whether a candidate found later in the descending scan replaces the best so far: on an equal length the
smaller distance wins under LZ_TIE = SMALLEST (R173, D6), the larger one stays under LARGEST. -/
def replacesBest (t : LzTie) (len bestLen : Nat) : Bool :=
  match t with
  | .smallest => decide (bestLen ≤ len)
  | .largest => decide (bestLen < len)

/-- R173's scan over the distances from `d` down to 2, keeping (best length, best distance). -/
def bestScan (t : LzTie) (src : Bytes) (p be : Nat) : Nat → Nat × Nat → Nat × Nat
  | 0, best => best
  | d + 1, best =>
    if d + 1 < Config.format.minDist then best
    else
      let l := matchLen src p (d + 1) be
      bestScan t src p be d (if replacesBest t l best.1 then (l, d + 1) else best)

/-- `BestLz(p, be)` (R173): (LZ_LEN, LZ_DIST) over the distances 2 to min(reach, 4095), where reach is p, or p
counted from the block start under WINDOW_SCOPE = BLOCK_LOCAL (log 8). (0, 0) when there is no candidate. -/
def bestLz (t : LzTie) (src : Bytes) (p reach be : Nat) : Nat × Nat :=
  bestScan t src p be (min reach Config.format.window) (0, 0)

/-- R174's loop from count `r` on, at most `fuel` more. -/
def runFrom (src : Bytes) (p be : Nat) : Nat → Nat → Nat
  | 0, r => r
  | fuel + 1, r => if p + r < be ∧ src[p + r]? = src[p]? then runFrom src p be fuel (r + 1) else r

/-- `RunLen(p, be)` (R174): the byte at p counts, capped at RLE_MAX = 257. -/
def runLen (src : Bytes) (p be : Nat) : Nat := runFrom src p be (Config.format.rleMax - 1) 1

/-! ### Selector and packer -/

/-- `Select(LZ_LEN, LZ_DIST, RLE_CNT)` (R175) for the byte `v` at p: ties favour RLE, LZ77 must strictly exceed. -/
def select (lzLen lzDist rleCnt : Nat) (v : Byte) : Instr :=
  if max lzLen rleCnt ≤ 1 then .copy v
  else if rleCnt < lzLen then .lz77 lzDist lzLen
  else .rle rleCnt v

/-- How many source bytes a command covers (R176 to R178). -/
def covered : Instr → Nat
  | .endBlock => 0
  | .copy _ => 1
  | .lz77 _ length => length
  | .rle count _ => count
  | .varint1 _ => 0
  | .varint2 _ _ => 0
  | .varint3 _ _ _ => 0
  | .varint4 _ _ _ _ => 0

/-- The 2-bit code Emit returns (R176 to R178). -/
def emitCode (m : CodeMap) (i : Instr) : BitVec 2 :=
  match i.kind with
  | some k => m.code k
  | none => 0

/-- Where matches and runs stop: the block end (R180, D8), or N under LOOKAHEAD = INPUT_END (log 7). -/
def Enc.limit (p : Params) (c : Enc) : Nat :=
  match p.lookahead with
  | .blockEnd => c.be
  | .inputEnd => c.n

/-- Whether the block's bytes are exhausted: `ENC.p == ENC.be` (R170, R171); under LOOKAHEAD = INPUT_END a
command may have passed the block end, so p ≥ be (log 7). -/
def Enc.exhausted (p : Params) (c : Enc) : Bool :=
  match p.lookahead with
  | .blockEnd => c.p == c.be
  | .inputEnd => decide (c.be ≤ c.p)

/-- How far back candidates may lie (R173, R181, D7; log 8). -/
def Enc.reach (p : Params) (c : Enc) : Nat :=
  match p.windowScope with
  | .global => c.p
  | .blockLocal => c.p - c.bs

/-- The command the SLOT step selects at ENC.p, the byte there being `v` (R171, R173 to R175). -/
def choose (p : Params) (v : Byte) (c : Enc) : Instr :=
  let best := bestLz p.lzTie c.src c.p (c.reach p) (c.limit p)
  select best.1 best.2 (runLen c.src c.p (c.limit p)) v

/-- Emit (R176 to R178) and R171's updates: operands appended, code or-ed into the group byte, slot and p advanced. -/
def emit (p : Params) (i : Instr) (c : Enc) : Enc :=
  { outAppend i.operands c with
    gbyte := placeCode c.gbyte c.slot.toNat (emitCode p.codeMap i)
    slot := c.slot + 1
    p := c.p + covered i
    phase := .slot }

/-! ### The encoder's steps -/

/-- CHECK (43_block_framer.md R209): EMPTY_INPUT before VARINT_RANGE (60_exceptions.md R238). -/
def encCheck (_ : Params) (c : Enc) : Act Enc Unit :=
  if c.n = 0 then .raised (c.raise .emptyInput)
  else if Config.format.varintEncMax < c.n then .raised (c.raise (.varintRange c.n))
  else .go () { c with phase := .header }

/-- HEADER (R210): the block count and the two header varints. -/
def encHeader (p : Params) (c : Enc) : Act Enc Unit :=
  let c1 := { c with nblocks := ceilDiv c.n Config.format.blockSize }
  (varintWrite p c1.n c1).bind fun _ c2 =>
    if c2.nblocks = 0 then .stop .negativeBlockCount
    else
      (varintWrite p (c2.nblocks - 1) c2).bind fun _ c3 =>
        .go () { c3 with blk := 0, p := 0, phase := .blkOpen }

/-- BLK_OPEN (R211): the block's bounds and the reserved prefix. -/
def encBlkOpen (_ : Params) (c : Enc) : Act Enc Unit :=
  .go () { outAppend [0, 0] c with
    bs := Config.format.blockSize * c.blk
    be := min (Config.format.blockSize * c.blk + Config.format.blockSize) c.n
    ppos := c.out.length
    phase := .grpOpen }

/-- GRP_OPEN (42_encoder.md R170): a reserved group byte, unless the block's bytes are exhausted. -/
def encGrpOpen (p : Params) (c : Enc) : Act Enc Unit :=
  if c.exhausted p then .go () { c with phase := .blkClose }
  else .go () { outAppend [0] c with gpos := c.out.length, gbyte := 0, slot := 0, phase := .slot }

/-- SLOT (R171). A block end or a position past SRC, which no run has, stops (log 18). -/
def encSlot (p : Params) (c : Enc) : Act Enc Unit :=
  if c.slot.toNat = Config.format.slots ∨ c.exhausted p = true then .go () { c with phase := .grpClose }
  else if c.src.length < c.limit p then .stop (.sourceReadOutside c.src.length)
  else (srcRead c.p c).bind fun v c' => .go () (emit p (choose p v c') c')

/-- GRP_CLOSE (R179): the group byte is patched. -/
def encGrpClose (_ : Params) (c : Enc) : Act Enc Unit :=
  (outPatch c.gpos c.gbyte c).bind fun _ c' => .go () { c' with phase := .grpOpen }

/-- BLK_CLOSE's explicit END group after a full last group (43_block_framer.md R212). -/
def endMark (c : Enc) : Enc := if c.slot.toNat = Config.format.slots then outAppend [0] c else c

/-- The bytes written since the block's prefix (R212). -/
def Enc.blockBytes (c : Enc) : Nat := c.out.length - (c.ppos + Config.format.prefixBytes)

/-- BLK_CLOSE (R212): the end mark, the prefix, then the next block or DONE and RESULT. -/
def encBlkClose (_ : Params) (c : Enc) : Act Enc Unit :=
  let c1 := endMark c
  if Config.format.prefixMax < c1.blockBytes then .raised (c1.raise (.blockSizeRange c1.blockBytes))
  else
    (outPatch c1.ppos (prefixLow c1.blockBytes) c1).bind fun _ c2 =>
      (outPatch (c2.ppos + 1) (prefixHigh c1.blockBytes) c2).bind fun _ c3 =>
        if c3.blk + 1 < c3.nblocks then .go () { c3 with blk := c3.blk + 1, phase := .blkOpen }
        else .go () { c3 with blk := c3.blk + 1, phase := .done, result := c3.out }

/-- The encoder's step from each phase (10_state.md R35); IDLE, DONE and FAULT take none. -/
def encRule (p : Params) (c : Enc) : Act Enc Unit :=
  match c.phase with
  | .idle => .go () c
  | .check => encCheck p c
  | .header => encHeader p c
  | .blkOpen => encBlkOpen p c
  | .grpOpen => encGrpOpen p c
  | .slot => encSlot p c
  | .grpClose => encGrpClose p c
  | .blkClose => encBlkClose p c
  | .done => .go () c
  | .fault => .go () c

/-- One step of ENC. -/
def encStep (s : State) : Host.Outcome State Fault Refusal := onEnc encRule s

end Sys2Proof.Machine
end

