-- ==== Sys2Proof/Machine/HostPort.lean ====
section
/-! DEFINITION. The host port (10_state.md R42): the start of an operation (70_reset_and_hazards.md R261, R262), what
the host reads, and the observation of an ended operation (R264). -/

namespace Sys2Proof.Machine

open Sys2Proof

/-- The start of a decompress operation (R261). The registers it does not name keep what they held; no rule
reads them before it writes them (10_state.md R45; log 3). -/
def Dec.begin (d : Dec) (strict : Bool) (input : Bytes) : Dec :=
  { d with
    inp := input
    strict := strict
    ipos := 0
    dst := []
    fault := FaultRecord.clear
    phase := .hdrSize }

/-- The start of a compress operation (R262). -/
def Enc.begin (c : Enc) (input : Bytes) : Enc :=
  { c with
    src := input
    n := input.length
    p := 0
    out := []
    fault := FaultRecord.clear
    phase := .check }

/-- Whether the host may make this START write now: only when the engine it addresses is IDLE, DONE or FAULT (R42,
R271). DESIGN CHOICE (log 15): the values 0 and 3 of START.op address no engine, and wait until neither is busy. -/
def startAllowed (w : StartPort) (s : State) : Bool :=
  if w.op = 1 then !s.dec.busy
  else if w.op = 2 then !s.enc.busy
  else !s.dec.busy && !s.enc.busy

/-- The START fields after a START write: op and input are written, strict only with op 1 (R42, R262). -/
def StartPort.write (old w : StartPort) : StartPort :=
  { op := w.op, strict := if w.op = 1 then w.strict else old.strict, input := w.input }

/-- The host writes START (R42): 1 starts DEC, 2 starts ENC, 0 and 3 start nothing. -/
def writeStart (w : StartPort) (s : State) : State :=
  if w.op = 1 then { s with start := s.start.write w, dec := s.dec.begin w.strict w.input }
  else if w.op = 2 then { s with start := s.start.write w, enc := s.enc.begin w.input }
  else { s with start := s.start.write w }

/-- One step of the host: the oldest START write to come, if it may be made (log 14). -/
def hostStep (s : State) : Host.Outcome State Fault Refusal :=
  match s.pending with
  | [] => .next s
  | w :: ws => if startAllowed w s then .next (writeStart w { s with pending := ws }) else .next s

/-- RESULT as the host reads it: valid only when STATUS.done = 1 (R42). -/
def Dec.readResult (d : Dec) : Option Bytes := if d.isDone then some d.result else none

/-- RESULT of ENC (R42). -/
def Enc.readResult (c : Enc) : Option Bytes := if c.isDone then some c.result else none

/-- What is observed of an operation (R264). -/
inductive Observation where
  | running
  | result (bytes : Bytes)
  | faulted (record : FaultRecord)
  deriving DecidableEq, Repr

/-- The observation of a decompress (R264): nothing of DST after a fault. -/
def Dec.observe (d : Dec) : Observation :=
  if d.isDone then .result d.result else if d.isFault then .faulted d.fault else .running

/-- The observation of a compress (R264). -/
def Enc.observe (c : Enc) : Observation :=
  if c.isDone then .result c.result else if c.isFault then .faulted c.fault else .running

/-- The numbers R22 gives DEC.phase where one is needed; nothing reads them (log 28). -/
def DecPhase.number : DecPhase → Nat
  | .idle => 0
  | .hdrSize => 1
  | .hdrBlocks => 2
  | .blkPrefix => 3
  | .grpFetch => 4
  | .cmd => 5
  | .blkCheck => 6
  | .streamCheck => 7
  | .done => 8
  | .fault => 9

/-- The numbers R22 gives ENC.phase. -/
def EncPhase.number : EncPhase → Nat
  | .idle => 0
  | .check => 1
  | .header => 2
  | .blkOpen => 3
  | .grpOpen => 4
  | .slot => 5
  | .grpClose => 6
  | .blkClose => 7
  | .done => 8
  | .fault => 9

end Sys2Proof.Machine
end

