-- ==== Sys2Proof/Machine/Sequencer.lean ====
section
/-! DEFINITION. One step of the decoder engine (10_state.md R21), which of the agents moves (log 12, 13), and
how a table word is placed where the next step fetches (log 16). -/

namespace Sys2Proof.Machine

open Sys2Proof

/-- Fetches the instruction at the current place and runs it: a varint in the header phases (43_block_framer.md
R200, R201), the slot's command in CMD (41_command_decoder.md R141). -/
def fetchAndRun (pl : Place) (s : State) : Host.Outcome State Fault Refusal :=
  match fetch pl s.params s.dec with
  | .go i d => exec i (s.withDec d)
  | .raised d => .next (s.withDec d)
  | .stop r => .fault r

/-- One step of DEC from each phase (R21); IDLE, DONE and FAULT take none. -/
def decStep (s : State) : Host.Outcome State Fault Refusal :=
  match s.dec.phase with
  | .idle => .next s
  | .hdrSize => fetchAndRun .header s
  | .hdrBlocks => fetchAndRun .header s
  | .blkPrefix => onDec blkPrefix s
  | .grpFetch => onDec grpFetch s
  | .cmd => fetchAndRun .slot s
  | .blkCheck => onDec blkCheck s
  | .streamCheck => onDec streamCheck s
  | .done => .next s
  | .fault => .next s

/-- Whether an agent can take a step: an engine while STATUS.busy (R42), the host when its next START may be written. -/
def State.enabled (s : State) : Agent → Bool
  | .dec => s.dec.busy
  | .enc => s.enc.busy
  | .host =>
    match s.pending with
    | [] => false
    | w :: _ => startAllowed w s

/-- The agent that moves: the one whose turn it is, or else one that can; none when none can (log 12, 13). -/
def State.mover (s : State) : Option Agent :=
  if s.enabled s.turn then some s.turn
  else if s.enabled .dec then some .dec
  else if s.enabled .enc then some .enc
  else if s.enabled .host then some .host
  else none

/-- Whether more than one agent can move. -/
def State.contended (s : State) : Bool :=
  (s.enabled .dec && (s.enabled .enc || s.enabled .host)) || (s.enabled .enc && s.enabled .host)

/-- Where there was a choice, whose turn comes next is the free value's (log 12). -/
def State.reschedule (s : State) : State :=
  if s.contended then { s with turn := Config.arbiter s.tick, tick := s.tick + 1 } else s

/-- One step of the agent that moves. With none able to move the machine stays as it is (log 13). -/
def agentStep (s : State) : Host.Outcome State Fault Refusal :=
  match s.mover with
  | some .dec => decStep s.reschedule
  | some .enc => encStep s.reschedule
  | some .host => hostStep s.reschedule
  | none => .next s

/-- DEC in the middle of a decompress whose next step runs the instruction a table word stands for: IN holds the
word's bytes, and either a header phase reads them from position 0, or the first byte has been fetched as the
group byte and its slot 0 comes next, its operands at position 1 (log 16). -/
def Dec.place (d : Dec) (nbits w : Nat) : Dec :=
  let bytes := bytesOfWord longestInstr (w % 2 ^ nbits)
  match tablePlace nbits w with
  | .header => { d with inp := bytes, ipos := 0, phase := .hdrSize }
  | .slot => { d with inp := bytes, ipos := 1, gbyte := BitVec.ofNat 8 (w % 2 ^ nbits), slot := 0, phase := .cmd }

end Sys2Proof.Machine
end

