-- ==== Sys2Proof/Machine/Step.lean ====
section
/-! DEFINITION. The step of the machine, and the placing of a table word where it fetches. -/

namespace Sys2Proof.Machine

open Sys2Proof

/-- One step: one phase transition of one engine, or one START write of the host (00_scope.md R7). -/
def step (s : State) : Host.Outcome State Fault Refusal := agentStep s

/-- `s` with the word's bytes where the next step fetches, DEC's turn (log 16). -/
def State.withFetchWord (s : State) (nbits w : Nat) : State :=
  { s with dec := s.dec.place nbits w, turn := .dec }

end Sys2Proof.Machine
end

