-- ==== Sys2Proof/Machine/Assembler.lean ====
section
/-! DEFINITION. The listing syntax of 30_encoding.md R105 as data, and its assembler: streams, blocks and groups
packed as R90 to R93 lay them out (log 26, 29 to 31). No pseudo-instruction (R106). -/

namespace Sys2Proof.Machine

open Sys2Proof

/-- One group: the group byte with the codes of at most four commands, slot 0 first, unused slots 0, then the
commands' operands in slot order (R92, R93). -/
def packCodes (m : CodeMap) : Nat → List Instr → Byte → Byte
  | _, [], g => g
  | slot, i :: is, g => packCodes m (slot + 1) is (placeCode g slot (emitCode m i))

/-- The bytes of one group (R92). DESIGN CHOICE (log 31): commands written after an END have their codes packed and
their operands placed like any others (R105 packs in order), though R92 ends a group's operands at its first END. -/
def packGroup (m : CodeMap) (is : List Instr) : Bytes :=
  packCodes m 0 is 0 :: (is.map Instr.operands).flatten

/-- What `.endblock` adds after a full group that is the block's last: the END group 00, unless the group holds an END.
DESIGN CHOICE (log 29): R105 speaks of a written END only, and the note of P7 in 95_test_vectors.md says
`.endblock` after a full group adds an END group. -/
def endGroup (last : List Instr) : Bytes := if .endBlock ∈ last then [] else [0]

/-- The commands of a block packed four to a group in order, and the END group `.endblock` adds (R105; log 29). A
block without commands has no group (DESIGN CHOICE, log 29). -/
def packGroups (m : CodeMap) : List Instr → Bytes
  | [] => []
  | [a, b, c, d] => packGroup m [a, b, c, d] ++ endGroup [a, b, c, d]
  | a :: b :: c :: d :: rest => packGroup m [a, b, c, d] ++ packGroups m rest
  | is => packGroup m is

/-- A size prefix, little-endian (R91, 20_memory.md R65). -/
def prefixBytes (size : Nat) : Bytes := [prefixLow size, prefixHigh size]

/-- A directive of the listing syntax (R105). -/
inductive Directive where
  /-- `.stream usize=<n> blocks=<m>` -/
  | stream (usize blocks : Nat)
  /-- `.block` … `.endblock`, the prefix computed. -/
  | block (commands : List Instr)
  /-- `.block size=<n>` … `.endblock`, the prefix given. -/
  | blockSized (size : Nat) (commands : List Instr)
  /-- `.raw <hex bytes>` -/
  | raw (bytes : Bytes)
  deriving DecidableEq, Repr

/-- Whether a command can stand in a block of a listing: one of the four, its numbers in their fields (R103, R105). -/
def listable (i : Instr) : Bool := i.kind.isSome && i.wf

/-- The number a varint of the header can be written for (40_varint.md R122, R123). -/
def varintFits (v : Nat) : Bool := decide (v ≤ Config.format.varintEncMax)

/-- A block's size prefix and its groups. No bytes where the size does not fit the prefix or a command is not
listable (DESIGN CHOICE, log 30). -/
def blockBytes (size : Nat) (is : List Instr) (groups : Bytes) : Option Bytes :=
  if is.all listable = true ∧ size ≤ Config.format.prefixMax then some (prefixBytes size ++ groups) else none

/-- The bytes of a directive (R90, R91, R105). DESIGN CHOICE (log 30): a number outside its field has no bytes, such
as usize or blocks − 1 above 2^24 − 1 (R123), blocks = 0, or a block size above 65535. -/
def Directive.bytes (m : CodeMap) (f : VarintForm) : Directive → Option Bytes
  | .stream usize blocks =>
    if varintFits usize && decide (1 ≤ blocks) && varintFits (blocks - 1) then
      some (varintBytes f usize ++ varintBytes f (blocks - 1))
    else none
  | .block is => blockBytes (packGroups m is).length is (packGroups m is)
  | .blockSized size is => blockBytes size is (packGroups m is)
  | .raw bs => some bs

/-- The bytes of a listing, directive after directive; none if some directive has none. -/
def listingBytes (m : CodeMap) (f : VarintForm) : List Directive → Option Bytes
  | [] => some []
  | d :: ds =>
    match d.bytes m f, listingBytes m f ds with
    | some b, some bs => some (b ++ bs)
    | some _, none => none
    | none, _ => none

/-- The bytes of a listing under the spec's defaults. -/
def assemble (ds : List Directive) : Option Bytes := listingBytes CodeMap.spec .sixBit ds

end Sys2Proof.Machine
end

