-- ==== Sys2Proof/Machine/Reference.lean ====
section
/-! DEFINITION. The whole decompress as one function (43_block_framer.md R217): the spec gives it for reference, as
exactly the composition of the DEC steps. It is a second reading of the rules, used by statements only. -/

namespace Sys2Proof.Machine

open Sys2Proof

/-- What R217 keeps between its lines: the input position and the destination. -/
structure Cursor where
  ipos : Nat
  dst  : Bytes
  deriving DecidableEq, Repr

/-- `InByte()` of R217. -/
def refByte (inp : Bytes) (c : Cursor) : Except Exn (Byte × Cursor) :=
  match inp[c.ipos]? with
  | some b => .ok (b, { c with ipos := c.ipos + 1 })
  | none => .error (.inputEnd c.ipos)

/-- `DstAppend(v)` of R217. -/
def refAppend (p : Params) (v : Byte) (c : Cursor) : Except Exn Cursor :=
  if p.dstCap = some c.dst.length then .error (.dstFull c.dst.length)
  else .ok { c with dst := c.dst ++ [v] }

/-- `repeat n times: DstAppend(v)`. -/
def refFill (p : Params) (v : Byte) : Nat → Cursor → Except Exn Cursor
  | 0, c => .ok c
  | n + 1, c => do
    let c ← refAppend p v c
    refFill p v n c

/-- `repeat n times: DstAppend(MemRead(DST, DST.len - d, 1))`, where 1 ≤ d ≤ DST.len. -/
def refCopy (p : Params) (d : Nat) : Nat → Cursor → Except Exn Cursor
  | 0, c => .ok c
  | n + 1, c => do
    let c ← refAppend p (c.dst.getD (c.dst.length - d) 0) c
    refCopy p d n c

/-- The case of R217 for the code in slot `s` of `g`; true when the block has ended. -/
def refSlot (p : Params) (inp : Bytes) (g : Byte) (s : Nat) (c : Cursor) : Except Exn (Bool × Cursor) :=
  match p.codeMap.kind? (slotCode g s) with
  | some .endBlock => .ok (true, c)
  | some .copy => do
    let (v, c) ← refByte inp c
    let c ← refAppend p v c
    return (false, c)
  | some .lz77 => do
    let (b0, c) ← refByte inp c
    let (b1, c) ← refByte inp c
    let d := lzDistance b0 b1
    if d < Config.format.minDist then throw (.reservedDistance d c.ipos)
    if c.dst.length < d then throw (.dstUnderflow c.dst.length d)
    let c ← refCopy p d (lzLength b1) c
    return (false, c)
  | some .rle => do
    let (n, c) ← refByte inp c
    let (v, c) ← refByte inp c
    let c ← refFill p v (rleCount n) c
    return (false, c)
  | none => .error (.invalidCommand (slotCode g s) c.ipos)

/-- `for s in …` of R217 for the last `left` slots of a group. -/
def refSlots (p : Params) (inp : Bytes) (g : Byte) : Nat → Cursor → Except Exn (Bool × Cursor)
  | 0, c => .ok (false, c)
  | left + 1, c => do
    let (ended, c) ← refSlot p inp g (Config.format.slots - (left + 1)) c
    if ended then return (true, c) else refSlots p inp g left c

/-- `while not ended and g < 256` of R217 with `left` groups to go. -/
def refGroups (p : Params) (inp : Bytes) : Nat → Cursor → Except Exn Cursor
  | 0, c => .ok c
  | left + 1, c => do
    let (g, c) ← refByte inp c
    let (ended, c) ← refSlots p inp g Config.format.slots c
    if ended then return c else refGroups p inp left c

/-- `for blk in …` of R217 from block `blk` on, `left` blocks to go. -/
def refBlocks (p : Params) (inp : Bytes) (strict : Bool) : Nat → Nat → Cursor → Except Exn Cursor
  | 0, _, c => .ok c
  | left + 1, blk, c => do
    let (b0, c) ← refByte inp c
    let (b1, c) ← refByte inp c
    let bsize := b0.toNat + 256 * b1.toNat
    let e ← refGroups p inp Config.format.maxGroups c
    if strict && e.ipos - c.ipos != bsize then throw (.blockSizeMismatch blk bsize (e.ipos - c.ipos))
    refBlocks p inp strict left (blk + 1) e

/-- R120's loop for the extra bytes `k` on, `left` of them to go. -/
def refExtra (inp : Bytes) : Nat → Nat → Nat → Cursor → Except Exn (Nat × Cursor)
  | 0, _, v, c => .ok (v, c)
  | left + 1, k, v, c => do
    let (e, c) ← refByte inp c
    refExtra inp left (k + 1) (v ||| (e.toNat <<< (Config.format.varintChunk * k))) c

/-- `VarintRead()` of 40_varint.md R120, on naturals. -/
def refVarint (inp : Bytes) (c : Cursor) : Except Exn (Nat × Cursor) := do
  let (f, c) ← refByte inp c
  refExtra inp (f.toNat / 64) 1 (f.toNat % 64) c

/-- `decompress(IN, strict)` (R217). -/
def refDecompress (p : Params) (inp : Bytes) (strict : Bool) : Except Exn Bytes := do
  let (usize, c) ← refVarint inp { ipos := 0, dst := [] }
  let (m, c) ← refVarint inp c
  let e ← refBlocks p inp strict (m + 1) 0 c
  if strict && e.dst.length != usize then throw (.uncompressedSizeMismatch usize e.dst.length)
  return e.dst

end Sys2Proof.Machine
end

