-- ==== Sys2Proof/Machine/Window.lean ====
section
/-! DEFINITION. The circular window of 10_state.md R34: the 4096 bytes a hardware decoder may keep beside its
output stream instead of the whole destination. A derived view; State holds DST once. -/

namespace Sys2Proof.Machine

open Sys2Proof

/-- The positions of the circular window, one more than the largest distance (R34). -/
def windowSize : Nat := Config.format.window + 1

/-- `W[DST.len mod 4096] <- v` on an append at position `len` (R34). -/
def windowWrite (w : Bytes) (len : Nat) (v : Byte) : Bytes := w.set (len % windowSize) v

/-- The window after the bytes `bs` have been appended from position `len` on. -/
def windowAppend (w : Bytes) : Nat → Bytes → Bytes
  | _, [] => w
  | len, v :: bs => windowAppend (windowWrite w len v) (len + 1) bs

/-- `W[(DST.len − d) mod 4096]` (R34). -/
def windowRead (w : Bytes) (len d : Nat) : Option Byte := w[(len - d) % windowSize]?

end Sys2Proof.Machine
end

