-- ==== Sys2Proof/Safety.lean ====
section
/-! DEFINITION. What counts as a safe state and a safe run, in the terms the statements use: the invariant every
step keeps, from the spec's own statements about the registers (10_state.md R24 to R45, 41_command_decoder.md
R151, 43_block_framer.md R211 to R214, 70_reset_and_hazards.md R267). -/

namespace Sys2Proof.Machine

open Sys2Proof

/-- The phases between a block's prefix and its check. -/
def DecPhase.inBlock : DecPhase → Bool
  | .grpFetch => true
  | .cmd => true
  | .blkCheck => true
  | .idle => false
  | .hdrSize => false
  | .hdrBlocks => false
  | .blkPrefix => false
  | .streamCheck => false
  | .done => false
  | .fault => false

/-- The phases in which a block is being read or is about to be. -/
def DecPhase.inBlocks (ph : DecPhase) : Bool := ph.inBlock || ph == .blkPrefix

/-- The most bytes a block may have read since its prefix (R151): 9 for a whole group, and in CMD one group byte
and 2 for each slot passed. -/
def Dec.consumedBound (d : Dec) : Nat :=
  if d.phase = .cmd then 9 * (d.gcnt.toNat - 1) + 1 + 2 * d.slot.toNat else 9 * d.gcnt.toNat

/-- What holds of DEC between steps. -/
structure Dec.Inv (p : Params) (d : Dec) : Prop where
  /-- FAULT is clear unless the phase is FAULT (R41). -/
  clear : d.phase ≠ .fault → d.fault = FaultRecord.clear
  /-- In FAULT the code is one a decoder raises (60_exceptions.md R231). -/
  code : d.phase = .fault → d.fault.code ∈ [1, 2, 3, 5, 6]
  /-- R24, 40_varint.md R121. -/
  usize : d.usize.toNat < 2 ^ 26
  /-- R25. -/
  nblocks : d.nblocks.toNat ≤ 2 ^ 26
  /-- R26: the block being read is one of the stream's. -/
  blk : d.phase.inBlocks → d.blk.toNat < d.nblocks.toNat
  /-- R203: after the last block. -/
  blkEnd : d.phase = .streamCheck ∨ d.phase = .done → d.blk = d.nblocks
  /-- R29. -/
  gcnt : d.gcnt.toNat ≤ 256
  /-- R140: in CMD a group has been fetched; at the check too (R151). -/
  fetched : d.phase = .cmd ∨ d.phase = .blkCheck → 1 ≤ d.gcnt.toNat
  /-- R31. -/
  slot : d.slot.toNat ≤ 3
  /-- R28, R151: every group has read at least its group byte and at most 9 bytes. -/
  consumed : d.phase.inBlock → d.bstart + d.gcnt.toNat ≤ d.ipos ∧ d.ipos ≤ d.bstart + d.consumedBound
  /-- R32, 20_memory.md R61: ipos never passes the end of IN, but for the alternative NONSTRICT_RESYNC. -/
  ipos : p.resync = .stay ∨ d.strict = true → d.ipos ≤ d.inp.length
  /-- 20_memory.md R62. -/
  cap : ∀ c, p.dstCap = some c → d.dst.length ≤ c
  /-- R42, R205. -/
  result : d.phase = .done → d.result = d.dst
  /-- R205: a strict operation that is done has produced the declared size. -/
  size : d.phase = .done → d.strict = true → d.dst.length = d.usize.toNat

/-- The phases in which a block of ENC is open. -/
def EncPhase.inBlock : EncPhase → Bool
  | .grpOpen => true
  | .slot => true
  | .grpClose => true
  | .blkClose => true
  | .idle => false
  | .check => false
  | .header => false
  | .blkOpen => false
  | .done => false
  | .fault => false

/-- The phases in which a group of ENC is open. -/
def EncPhase.inGroup (ph : EncPhase) : Bool := ph == .slot || ph == .grpClose

/-- The phases after HEADER. -/
def EncPhase.afterHeader (ph : EncPhase) : Bool := ph.inBlock || ph == .blkOpen || ph == .done

/-- Source bytes of the block that are encoded. -/
def Enc.taken (c : Enc) : Nat := c.p - c.bs

/-- What holds of ENC's positions and sizes between steps when matches and runs stop at the block end. -/
structure Enc.Framed (c : Enc) : Prop where
  /-- R211: a block opens where the one before it ended. -/
  opened : c.phase = .blkOpen → c.p = 512 * c.blk
  /-- R36, R180: p stays in the block. -/
  within : c.phase.inBlock → c.bs ≤ c.p ∧ c.p ≤ c.be
  /-- R170: the block is closed when its bytes are exhausted. -/
  closed : c.phase = .blkClose → c.p = c.be
  /-- R36. -/
  ended : c.phase = .done → c.p = c.n
  /-- R170: no group is empty. -/
  nonempty : c.phase = .slot → c.slot = 0 → c.p < c.be
  /-- R171: a group closes full, or because the block's bytes are exhausted, and never empty (R170). -/
  full : c.phase = .grpClose → 1 ≤ c.slot.toNat ∧ (c.slot.toNat = 4 ∨ c.p = c.be)
  /-- R214, with k source bytes taken: 4·size + slot ≤ 5·k + 4 while a group is open. -/
  groupSize : c.phase.inGroup → 4 * c.blockBytes + c.slot.toNat ≤ 5 * c.taken + 4
  /-- R214: 4·size ≤ 5·k between groups while bytes remain, all groups being full then. -/
  openSize : c.phase = .grpOpen → c.p < c.be → 4 * c.blockBytes ≤ 5 * c.taken
  /-- R214: size ≤ k + ceil(k/4) when the bytes are exhausted. -/
  closeSize : c.phase = .grpOpen ∨ c.phase = .blkClose → 4 * c.blockBytes ≤ 5 * c.taken + 3

/-- What holds of ENC between steps. -/
structure Enc.Inv (p : Params) (c : Enc) : Prop where
  /-- FAULT is clear unless the phase is FAULT (R41). -/
  clear : c.phase ≠ .fault → c.fault = FaultRecord.clear
  /-- In FAULT the code is NUMERIC_RANGE (60_exceptions.md R231, R236). -/
  code : c.phase = .fault → c.fault.code = 4
  /-- R36. -/
  length : c.n = c.src.length
  /-- R209: after CHECK, N is 1 to 2^24 − 1. -/
  checked : c.phase = .header ∨ c.phase.afterHeader → 1 ≤ c.n ∧ c.n ≤ 2 ^ 24 - 1
  /-- R37, R210. -/
  nblocks : c.phase.afterHeader → c.nblocks = ceilDiv c.n 512
  /-- R37: the block is one of the source's. -/
  blk : c.phase.inBlock ∨ c.phase = .blkOpen → c.blk < c.nblocks
  /-- R212: after the last block. -/
  blkEnd : c.phase = .done → c.blk = c.nblocks
  /-- R211. -/
  bounds : c.phase.inBlock → c.bs = 512 * c.blk ∧ c.be = min (c.bs + 512) c.n
  /-- R38. -/
  slot : c.slot.toNat ≤ 4
  /-- 20_memory.md R64, 70_reset_and_hazards.md R267: the prefix is reserved as 0 until BLK_CLOSE. -/
  reservedPrefix : c.phase.inBlock → c.out[c.ppos]? = some 0 ∧ c.out[c.ppos + 1]? = some 0
  /-- 20_memory.md R64, 70_reset_and_hazards.md R267: the group byte is reserved as 0 until GRP_CLOSE. -/
  reservedGroup : c.phase.inGroup → c.ppos + 2 ≤ c.gpos ∧ c.out[c.gpos]? = some 0
  /-- 42_encoder.md R179: the codes of slots not filled are 0. -/
  unused : c.phase.inGroup → c.gbyte.toNat < 4 ^ c.slot.toNat
  /-- R42, R212. -/
  result : c.phase = .done → c.result = c.out
  /-- The parameter LOOKAHEAD at the spec's reading (R180, D8). -/
  framed : p.lookahead = .blockEnd → c.Framed

/-- What holds of the machine between steps. -/
structure State.Inv (s : State) : Prop where
  dec : s.dec.Inv s.params
  enc : s.enc.Inv s.params

/-- Whether `n` more bytes fit the destination (20_memory.md R62). -/
def Dec.roomFor (p : Params) (d : Dec) (n : Nat) : Bool :=
  match p.dstCap with
  | none => true
  | some c => decide (d.dst.length + n ≤ c)

/-- The bytes an LZ77 appends, said without the copy's loop (41_command_decoder.md R144 (a), (b)): byte i is the byte
at start − d + (i mod d). -/
def copied (dst : Bytes) (d n : Nat) : Bytes :=
  (List.range n).map fun i => dst.getD (dst.length - d + i % d) 0

/-- DEC moves next, in this phase. -/
def State.decAt (s : State) (ph : DecPhase) : Bool := s.mover == some .dec && s.dec.phase == ph

/-- ENC moves next, in this phase. -/
def State.encAt (s : State) (ph : EncPhase) : Bool := s.mover == some .enc && s.enc.phase == ph

/-- DEC moves next, and the slot it executes holds the code of this command (41_command_decoder.md R141). -/
def State.atCommand (s : State) (k : CmdKind) : Bool :=
  s.decAt .cmd && s.params.codeMap.kind? (slotCode s.dec.gbyte s.dec.slot.toNat) == some k

/-- The machine with DEC alone at work: ENC not busy and no START to come. -/
def State.decAlone (s : State) : Bool := !s.enc.busy && s.pending.isEmpty

/-- The machine with ENC alone at work. -/
def State.encAlone (s : State) : Bool := !s.dec.busy && s.pending.isEmpty

/-- A state right after a START of a decompress operation (70_reset_and_hazards.md R261). -/
def State.startDec (s : State) (strict : Bool) (input : Bytes) : State :=
  { s with dec := s.dec.begin strict input }

/-- A state right after a START of a compress operation (R262). -/
def State.startEnc (s : State) (input : Bytes) : State := { s with enc := s.enc.begin input }

/-- `k` steps of the machine. -/
def runSteps : Nat → State → Host.Outcome State Fault Refusal
  | 0, s => .next s
  | k + 1, s =>
    match step s with
    | .next t => runSteps k t
    | .fault f => .fault f
    | .refused r => .refused r

/-- A safe step: the model does not stop. -/
def State.safeStep (s : State) : Prop := ∃ t, step s = .next t

end Sys2Proof.Machine
end

