-- ==== Sys2Proof/Certificates/Slice0/Obligations.lean ====
section
/-! DEFINITION. The statements about the machine. A step's statement gives the whole next state: `s.reschedule` is
`s` but for the model's own fields `turn` and `tick` (log 12), `withDec` and `withEnc` replace one engine. -/

open Sys2Proof Sys2Proof.Machine

/-! ### Encoding -/

/-- Words written out from 30_encoding.md R94 to R98 decode to what they stand for. -/
def Obligations.WrittenOutWordsDecode : Prop :=
  decodeSlot CodeMap.spec 0b00000000#8 0 [] = .ok (.endBlock, []) ∧
  decodeSlot CodeMap.spec 0b00000001#8 0 [0x41#8] = .ok (.copy 0x41#8, []) ∧
  decodeSlot CodeMap.spec 0b10010101#8 3 [0x03#8, 0x08#8] = .ok (.lz77 3 10, []) ∧
  decodeSlot CodeMap.spec 0b00000010#8 0 [0xFF#8, 0xFF#8] = .ok (.lz77 4095 17, []) ∧
  decodeSlot CodeMap.spec 0b00001100#8 1 [0x29#8, 0x00#8] = .ok (.rle 43 0x00#8, []) ∧
  decodeVarint [0b00111111#8] = .ok (.varint1 0x3F#6, []) ∧
  decodeVarint [0b01101100#8, 0x04#8] = .ok (.varint2 0x2C#6 0x04#8, []) ∧
  decodeVarint [0b10000000#8, 0x00#8, 0x01#8] = .ok (.varint3 0#6 0x00#8 0x01#8, []) ∧
  decodeVarint [0b11111111#8, 0x3F#8, 0x3F#8, 0x3F#8] = .ok (.varint4 0x3F#6 0x3F#8 0x3F#8 0x3F#8, [])

/-- R93: a group byte is its four slot codes, slot 0 in bits 1:0 and slot 3 in bits 7:6. -/
def Obligations.GroupByteIsItsSlotCodes : Prop :=
  ∀ g : Byte, g.toNat = (slotCode g 0).toNat + 4 * (slotCode g 1).toNat + 16 * (slotCode g 2).toNat
    + 64 * (slotCode g 3).toNat

/-- R96: the two operand bytes b0, b1, in that order: distance = b0 and the upper half of b1 above it, 0..4095, with
0 and 1 reserved; length = lower half of b1 plus 2, 2..17. -/
def Obligations.Lz77OperandFields : Prop :=
  ∀ (b0 b1 : Byte) (rest : Bytes),
    decodeOperands .lz77 (b0 :: b1 :: rest) = .ok (.lz77 (lzDistance b0 b1) (lzLength b1), rest) ∧
    (Instr.lz77 (lzDistance b0 b1) (lzLength b1)).reserved = decide (b1.toNat / 16 = 0 ∧ b0.toNat ≤ 1) ∧
    lzDistance b0 b1 = b0.toNat + 256 * (b1.toNat / 16) ∧ lzLength b1 = b1.toNat % 16 + 2 ∧
    lzDistance b0 b1 ≤ 4095 ∧ 2 ≤ lzLength b1 ∧ lzLength b1 ≤ 17

/-- Every well-formed command's operands, behind a group byte that holds its code in some slot, decode to it and
leave the rest, under every legal code assignment. -/
def Obligations.CommandOperandsDecodeInEverySlot : Prop :=
  ∀ (m : CodeMap) (i : Instr) (k : CmdKind) (g : Byte) (s : Nat) (rest : Bytes),
    m.wf = true → i.wf = true → i.kind = some k → slotCode g s = m.code k →
    decodeSlot m g s (i.operands ++ rest) = .ok (i, rest)

/-- Decode of encode is the instruction, for every well-formed instruction, with the rest left over. -/
def Obligations.DecodeOfEncodeIsTheInstruction : Prop :=
  ∀ (m : CodeMap) (i : Instr) (rest : Bytes), m.wf = true → i.wf = true →
    decode m i.place (encode m i ++ rest) = .ok (i, rest)

/-- What decodes is well formed and its encoding is what was read: a slot's operands, a varint's bytes. -/
def Obligations.EncodeOfDecodeIsTheBytes : Prop :=
  (∀ (m : CodeMap) (g : Byte) (s : Nat) (bs rest : Bytes) (i : Instr),
    decodeSlot m g s bs = .ok (i, rest) →
      i.wf = true ∧ bs = i.operands ++ rest ∧ ∃ k, i.kind = some k ∧ m.code k = slotCode g s) ∧
  (∀ (m : CodeMap) (bs rest : Bytes) (i : Instr),
    decodeVarint bs = .ok (i, rest) → i.wf = true ∧ i.kind = none ∧ bs = encode m i ++ rest)

/-- R102, R232: under a legal code assignment every slot code is some command's, so no bytes are an invalid command. -/
def Obligations.NoCodeIsInvalid : Prop :=
  ∀ (m : CodeMap) (g : Byte) (s : Nat) (bs : Bytes) (code : BitVec 2), m.wf = true →
    decodeSlot m g s bs ≠ .error (.invalidCommand code)

/-- R98: N = F[7:6] further bytes are read, each or-ed in whole at shift 6k; a missing one is the end of the input. -/
def Obligations.VarintValueIsTheOrOfItsChunks : Prop :=
  decodeVarint [] = .error .inputEnd ∧
  ∀ (f : Byte) (rest : Bytes),
    (f.toNat / 64 ≤ rest.length →
      ∃ i v, decodeVarint (f :: rest) = .ok (i, rest.drop (f.toNat / 64)) ∧ i.headerValue = some v ∧
        v.toNat = ((rest.take (f.toNat / 64)).zipIdx 1).foldl
          (fun acc ek => acc ||| (ek.1.toNat <<< (6 * ek.2))) (f.toNat % 64)) ∧
    (rest.length < f.toNat / 64 → decodeVarint (f :: rest) = .error .inputEnd)

/-- 40_varint.md R121: a decoded value is at most 2^26 − 1, and `FF FF FF FF` reaches it. -/
def Obligations.VarintValueRange : Prop :=
  (∀ (bs rest : Bytes) (i : Instr) (v : BitVec 32),
    decodeVarint bs = .ok (i, rest) → i.headerValue = some v → v.toNat ≤ 2 ^ 26 - 1) ∧
  varintValue 0x3F#6 [0xFF#8, 0xFF#8, 0xFF#8] = BitVec.ofNat 32 (2 ^ 26 - 1)

/-- R124: what VARINT.ENC writes for v ≤ 2^24 − 1, VARINT.DEC reads back, and no byte more. -/
def Obligations.VarintRoundTrip : Prop :=
  ∀ (v : Nat) (rest : Bytes), v ≤ 2 ^ 24 - 1 →
    decodeVarint (varintBytes .sixBit v ++ rest) = .ok (varintInstr .sixBit v, rest) ∧
    (varintInstr .sixBit v).headerValue = some (BitVec.ofNat 32 v)

/-- R122, R123, R99 with D16 (the spec's choice): VARINT.ENC appends the canonical bytes: N is the smallest count with
v < 2^(6(N+1)), byte 0 is N and v[5:0], byte k is v[6k+5:6k] with bits 7:6 zero. Above 2^24 − 1 it raises
NUMERIC_RANGE before any byte. -/
def Obligations.VarintWritesCanonicalBytes : Prop :=
  (∀ (p : Params) (v : Nat) (c : Enc), 2 ^ 24 - 1 < v → varintWrite p v c = .raised (c.raise (.varintRange v))) ∧
  (∀ (p : Params) (v : Nat) (c : Enc), v ≤ 2 ^ 24 - 1 →
    varintWrite p v c = .go () { c with out := c.out ++ varintBytes p.varintForm v }) ∧
  ∀ v : Nat, v ≤ 2 ^ 24 - 1 →
    ∃ n ≤ 3, (varintBytes .sixBit v).length = n + 1 ∧ v < 2 ^ (6 * (n + 1)) ∧ (n = 0 ∨ 2 ^ (6 * n) ≤ v) ∧
      (varintBytes .sixBit v)[0]?.map BitVec.toNat = some (64 * n + v % 64) ∧
      ∀ k, 1 ≤ k → k ≤ n → (varintBytes .sixBit v)[k]?.map BitVec.toNat = some (v / 2 ^ (6 * k) % 64)

/-- R92: the commands of a packed group decode one after another, slot by slot, each leaving the operands of the
next; unused slots hold END. It speaks of the layout: commands packed after an END (the model's choice, log 31) are
laid out so too, and no step executes them. -/
def Obligations.PackedGroupDecodesInOrder : Prop :=
  ∀ (m : CodeMap) (is : List Instr) (rest : Bytes), m.wf = true → is.length ≤ 4 →
    (∀ i ∈ is, i.wf = true ∧ i.kind.isSome = true) →
    (∀ j i, is[j]? = some i →
      decodeSlot m (packCodes m 0 is 0) j (((is.drop j).map Instr.operands).flatten ++ rest) =
        .ok (i, ((is.drop (j + 1)).map Instr.operands).flatten ++ rest)) ∧
    (∀ j, is.length ≤ j → slotCode (packCodes m 0 is 0) j = 0)

/-! ### The meanings of the commands -/

/-- R142: END goes to the block check and does nothing else, whatever the other slots of the group byte hold. -/
def Obligations.EndStopsTheBlock : Prop :=
  (∀ s : State, exec .endBlock s = .next (s.withDec { s.dec with phase := .blkCheck })) ∧
  (∀ s : State, s.atCommand .endBlock = true →
    step s = .next (s.reschedule.withDec { s.dec with phase := .blkCheck }))

/-- R143: COPY reads one byte and appends it; IO(INPUT_END) without the byte, IO(DST_FULL) at capacity. -/
def Obligations.CopyAppendsTheLiteral : Prop :=
  (∀ (s : State) (v : Byte), s.params.dstCap ≠ some s.dec.dst.length →
    exec (.copy v) s = .next (s.withDec (advance { s.dec with dst := s.dec.dst ++ [v] }))) ∧
  (∀ (s : State) (v : Byte), s.params.dstCap = some s.dec.dst.length →
    exec (.copy v) s = .next (s.withDec (s.dec.raise (.dstFull s.dec.dst.length)))) ∧
  (∀ (s : State) (v : Byte), s.atCommand .copy = true → s.dec.inp[s.dec.ipos]? = some v →
    step s = exec (.copy v) (s.reschedule.withDec (s.dec.past 1))) ∧
  (∀ s : State, s.atCommand .copy = true → s.dec.inp.length ≤ s.dec.ipos →
    step s = .next (s.reschedule.withDec (s.dec.raise (.inputEnd s.dec.ipos))))

/-- R144 for a legal distance: with room, n bytes are appended, byte i the one at start − d + (i mod d) (corner cases
(a) and (b)), and the slot advances; a copy that meets the capacity has appended exactly the bytes that fitted when it
raises IO(DST_FULL). That clause is the model's reading of R239 (log 22): by D21 no host can see DST after a fault. -/
def Obligations.Lz77RepeatsTheLastBytes : Prop :=
  (∀ (s : State) (d n : Nat), 2 ≤ d → d ≤ s.dec.dst.length → s.dec.roomFor s.params n = true →
    exec (.lz77 d n) s =
      .next (s.withDec (advance { s.dec with dst := s.dec.dst ++ copied s.dec.dst d n }))) ∧
  (∀ (s : State) (d n cap : Nat), 2 ≤ d → d ≤ s.dec.dst.length → s.params.dstCap = some cap →
    s.dec.dst.length ≤ cap → cap < s.dec.dst.length + n →
    exec (.lz77 d n) s = .next (s.withDec (({ s.dec with
      dst := s.dec.dst ++ (copied s.dec.dst d n).take (cap - s.dec.dst.length) } : Dec).raise (.dstFull cap))))

/-- R144, R238 with D12 and D13 (the spec's choices): the operands are read first, then a distance below 2 raises
RESERVED_DISTANCE, then a distance above DST.len raises IO(DST_UNDERFLOW), before any byte is appended. -/
def Obligations.Lz77ChecksInOrder : Prop :=
  (∀ (s : State) (d n : Nat), d < 2 →
    exec (.lz77 d n) s = .next (s.withDec (s.dec.raise (.reservedDistance d s.dec.ipos)))) ∧
  (∀ (s : State) (d n : Nat), 2 ≤ d → s.dec.dst.length < d →
    exec (.lz77 d n) s = .next (s.withDec (s.dec.raise (.dstUnderflow s.dec.dst.length d)))) ∧
  (∀ (s : State) (b0 b1 : Byte), s.atCommand .lz77 = true →
    s.dec.inp[s.dec.ipos]? = some b0 → s.dec.inp[s.dec.ipos + 1]? = some b1 →
    step s = exec (.lz77 (lzDistance b0 b1) (lzLength b1)) (s.reschedule.withDec (s.dec.past 2))) ∧
  (∀ s : State, s.atCommand .lz77 = true → s.dec.inp.length ≤ s.dec.ipos →
    step s = .next (s.reschedule.withDec (s.dec.raise (.inputEnd s.dec.ipos)))) ∧
  (∀ s : State, s.atCommand .lz77 = true → s.dec.inp.length = s.dec.ipos + 1 →
    step s = .next (s.reschedule.withDec ((s.dec.past 1).raise (.inputEnd (s.dec.ipos + 1)))))

/-- R145: RLE reads the count field and the byte, and appends count = n + 2 copies; the faults of R145 in their order.
That DST holds the copies that fitted after IO(DST_FULL) is the model's reading of R239 (log 22): by D21 no host can
see DST after a fault. -/
def Obligations.RleAppendsTheRun : Prop :=
  (∀ (s : State) (c : Nat) (v : Byte), s.dec.roomFor s.params c = true →
    exec (.rle c v) s = .next (s.withDec (advance { s.dec with dst := s.dec.dst ++ List.replicate c v }))) ∧
  (∀ (s : State) (c cap : Nat) (v : Byte), s.params.dstCap = some cap → s.dec.dst.length ≤ cap →
    cap < s.dec.dst.length + c →
    exec (.rle c v) s = .next (s.withDec (({ s.dec with
      dst := s.dec.dst ++ List.replicate (cap - s.dec.dst.length) v } : Dec).raise (.dstFull cap)))) ∧
  (∀ (s : State) (n v : Byte), s.atCommand .rle = true →
    s.dec.inp[s.dec.ipos]? = some n → s.dec.inp[s.dec.ipos + 1]? = some v →
    step s = exec (.rle (n.toNat + 2) v) (s.reschedule.withDec (s.dec.past 2))) ∧
  (∀ s : State, s.atCommand .rle = true → s.dec.inp.length ≤ s.dec.ipos →
    step s = .next (s.reschedule.withDec (s.dec.raise (.inputEnd s.dec.ipos)))) ∧
  (∀ s : State, s.atCommand .rle = true → s.dec.inp.length = s.dec.ipos + 1 →
    step s = .next (s.reschedule.withDec ((s.dec.past 1).raise (.inputEnd (s.dec.ipos + 1)))))

/-- R147: a COPY, an LZ77 and an RLE that raise nothing end with Advance: after slot 3 the group fetch, else the next
slot. -/
def Obligations.AdvanceTakesTheNextSlot : Prop :=
  ∀ (i : Instr) (k : CmdKind) (s t : State), i.kind = some k → k ≠ .endBlock →
    exec i s = .next t → t.dec.phase ≠ .fault →
    (s.dec.slot = 3 → t.dec.phase = .grpFetch ∧ t.dec.slot = s.dec.slot) ∧
    (s.dec.slot ≠ 3 → t.dec.phase = .cmd ∧ t.dec.slot = s.dec.slot + 1)

/-- R120, R200, R201: VARINT1 to VARINT4 in a header field complete with the value of R120: in HDR_SIZE it is
written to DEC.usize, in HDR_BLOCKS value + 1 to DEC.nblocks. -/
def Obligations.VarintsFillTheHeader : Prop :=
  ∀ (s : State) (low6 : BitVec 6) (e1 e2 e3 : Byte),
    (s.dec.phase = .hdrSize →
      exec (.varint1 low6) s = .next (s.withDec { s.dec with usize := low6.setWidth 32, phase := .hdrBlocks }) ∧
      exec (.varint2 low6 e1) s = .next (s.withDec { s.dec with
        usize := low6.setWidth 32 ||| e1.setWidth 32 <<< 6, phase := .hdrBlocks }) ∧
      exec (.varint3 low6 e1 e2) s = .next (s.withDec { s.dec with
        usize := low6.setWidth 32 ||| e1.setWidth 32 <<< 6 ||| e2.setWidth 32 <<< 12, phase := .hdrBlocks }) ∧
      exec (.varint4 low6 e1 e2 e3) s = .next (s.withDec { s.dec with
        usize := low6.setWidth 32 ||| e1.setWidth 32 <<< 6 ||| e2.setWidth 32 <<< 12 ||| e3.setWidth 32 <<< 18,
        phase := .hdrBlocks })) ∧
    (s.dec.phase = .hdrBlocks →
      exec (.varint1 low6) s = .next (s.withDec { s.dec with
        nblocks := low6.setWidth 32 + 1, blk := 0, phase := .blkPrefix }) ∧
      exec (.varint2 low6 e1) s = .next (s.withDec { s.dec with
        nblocks := (low6.setWidth 32 ||| e1.setWidth 32 <<< 6) + 1, blk := 0, phase := .blkPrefix }) ∧
      exec (.varint3 low6 e1 e2) s = .next (s.withDec { s.dec with
        nblocks := (low6.setWidth 32 ||| e1.setWidth 32 <<< 6 ||| e2.setWidth 32 <<< 12) + 1,
        blk := 0, phase := .blkPrefix }) ∧
      exec (.varint4 low6 e1 e2 e3) s = .next (s.withDec { s.dec with
        nblocks := (low6.setWidth 32 ||| e1.setWidth 32 <<< 6 ||| e2.setWidth 32 <<< 12 |||
          e3.setWidth 32 <<< 18) + 1,
        blk := 0, phase := .blkPrefix }))

/-- The model's choice (log 20): a varint outside the two header phases, which no step runs, stops by name. -/
def Obligations.VarintElsewhereStopsByName : Prop :=
  ∀ (i : Instr) (s : State), i.place = .header → s.dec.phase ≠ .hdrSize → s.dec.phase ≠ .hdrBlocks →
    exec i s = .fault .headerValueNotTaken

/-- The frame of END, COPY, LZ77 and RLE: ENC, the host port, the parameters, IN and every register of DEC but phase,
slot, DST and FAULT stay; FAULT changes only with the phase FAULT; of DST only the bytes from DST.len on, as many as
the command covers, can change. -/
def Obligations.CommandFrame : Prop :=
  ∀ (i : Instr) (k : CmdKind) (s t : State), i.kind = some k → exec i s = .next t →
    t = s.withDec { s.dec with phase := t.dec.phase, slot := t.dec.slot, dst := t.dec.dst, fault := t.dec.fault } ∧
    (t.dec.phase ≠ .fault → t.dec.fault = s.dec.fault) ∧
    (∀ a, a < s.dec.dst.length ∨ s.dec.dst.length + covered i ≤ a → t.dec.dst[a]? = s.dec.dst[a]?)

/-- The frame of VARINT1 to VARINT4: only phase, usize (in HDR_SIZE), nblocks and blk (in HDR_BLOCKS) change; every
byte of DST stays. -/
def Obligations.VarintFrame : Prop :=
  ∀ (i : Instr) (s t : State), i.kind = none → exec i s = .next t →
    (s.dec.phase = .hdrSize ∧ t = s.withDec { s.dec with phase := .hdrBlocks, usize := t.dec.usize }) ∨
    (s.dec.phase = .hdrBlocks ∧
      t = s.withDec { s.dec with phase := .blkPrefix, nblocks := t.dec.nblocks, blk := 0 })

/-! ### The steps of DEC -/

/-- A step whose place in the stream decodes to an instruction runs exec of it, with DEC.ipos past the bytes read. -/
def Obligations.StepRunsTheDecodedInstruction : Prop :=
  (∀ (s : State) (i : Instr) (rest : Bytes), s.decAt .cmd = true →
    decodeSlot s.params.codeMap s.dec.gbyte s.dec.slot.toNat s.dec.remaining = .ok (i, rest) →
    step s = exec i (s.reschedule.withDec (s.dec.past (s.dec.remaining.length - rest.length)))) ∧
  (∀ (s : State) (i : Instr) (rest : Bytes), s.decAt .hdrSize = true ∨ s.decAt .hdrBlocks = true →
    decodeVarint s.dec.remaining = .ok (i, rest) →
    step s = exec i (s.reschedule.withDec (s.dec.past (s.dec.remaining.length - rest.length))))

/-- R200, R201: the header steps, num_blocks 1 to 2^26, with IO(INPUT_END) at the end of IN where a byte is missing. -/
def Obligations.HeaderStepsReadTheFields : Prop :=
  (∀ (s : State) (i : Instr) (v : BitVec 32) (rest : Bytes), s.decAt .hdrSize = true →
    decodeVarint s.dec.remaining = .ok (i, rest) → i.headerValue = some v →
    step s = .next (s.reschedule.withDec { s.dec with
      ipos := s.dec.ipos + (i.operands.length + 1), usize := v, phase := .hdrBlocks })) ∧
  (∀ (s : State) (i : Instr) (v : BitVec 32) (rest : Bytes), s.decAt .hdrBlocks = true →
    decodeVarint s.dec.remaining = .ok (i, rest) → i.headerValue = some v →
    (v + 1).toNat = v.toNat + 1 ∧ v.toNat + 1 ≤ 2 ^ 26 ∧
    step s = .next (s.reschedule.withDec { s.dec with
      ipos := s.dec.ipos + (i.operands.length + 1), nblocks := v + 1, blk := 0, phase := .blkPrefix })) ∧
  (∀ s : State, s.decAt .hdrSize = true ∨ s.decAt .hdrBlocks = true →
    decodeVarint s.dec.remaining = .error .inputEnd →
    step s = .next (s.reschedule.withDec
      (({ s.dec with ipos := max s.dec.ipos s.dec.inp.length } : Dec).raise
        (.inputEnd (max s.dec.ipos s.dec.inp.length)))))

/-- R140, R148: the group fetch, its end of input, and the bound of 256 groups, which reads no byte. -/
def Obligations.GroupFetchOrBound : Prop :=
  (∀ s : State, s.decAt .grpFetch = true → s.dec.gcnt = 256 →
    step s = .next (s.reschedule.withDec { s.dec with phase := .blkCheck })) ∧
  (∀ (s : State) (g : Byte), s.decAt .grpFetch = true → s.dec.gcnt ≠ 256 → s.dec.inp[s.dec.ipos]? = some g →
    step s = .next (s.reschedule.withDec { s.dec with
      gbyte := g, ipos := s.dec.ipos + 1, gcnt := s.dec.gcnt + 1, slot := 0, phase := .cmd })) ∧
  (∀ s : State, s.decAt .grpFetch = true → s.dec.gcnt ≠ 256 → s.dec.inp.length ≤ s.dec.ipos →
    step s = .next (s.reschedule.withDec (s.dec.raise (.inputEnd s.dec.ipos))))

/-- R202, R65: the block prefix, little-endian. -/
def Obligations.BlockPrefixIsRead : Prop :=
  (∀ (s : State) (b0 b1 : Byte), s.decAt .blkPrefix = true →
    s.dec.inp[s.dec.ipos]? = some b0 → s.dec.inp[s.dec.ipos + 1]? = some b1 →
    step s = .next (s.reschedule.withDec { s.dec with
      bsize := BitVec.ofNat 16 (b0.toNat + 256 * b1.toNat), ipos := s.dec.ipos + 2, bstart := s.dec.ipos + 2,
      gcnt := 0, phase := .grpFetch })) ∧
  (∀ s : State, s.decAt .blkPrefix = true → s.dec.inp.length ≤ s.dec.ipos →
    step s = .next (s.reschedule.withDec (s.dec.raise (.inputEnd s.dec.ipos)))) ∧
  (∀ s : State, s.decAt .blkPrefix = true → s.dec.inp.length = s.dec.ipos + 1 →
    step s = .next (s.reschedule.withDec ((s.dec.past 1).raise (.inputEnd (s.dec.ipos + 1)))))

/-- R203: the block check: BLOCK_SIZE_MISMATCH in strict mode only, then the next block or the stream check, ipos staying
under NONSTRICT_RESYNC = NONE, the spec's default; and the bytes consumed are 1 to 2304. -/
def Obligations.BlockCheckCompares : Prop :=
  (∀ s : State, s.decAt .blkCheck = true → s.dec.strict = true →
    s.dec.ipos - s.dec.bstart ≠ s.dec.bsize.toNat →
    step s = .next (s.reschedule.withDec (s.dec.raise
      (.blockSizeMismatch s.dec.blk.toNat s.dec.bsize.toNat (s.dec.ipos - s.dec.bstart))))) ∧
  (∀ s : State, s.decAt .blkCheck = true → s.params.resync = .stay →
    s.dec.strict = false ∨ s.dec.ipos - s.dec.bstart = s.dec.bsize.toNat →
    step s = .next (s.reschedule.withDec { s.dec with
      blk := s.dec.blk + 1
      phase := if s.dec.blk + 1 < s.dec.nblocks then .blkPrefix else .streamCheck })) ∧
  (∀ s : State, s.Inv → s.dec.phase = .blkCheck → s.dec.bstart < s.dec.ipos ∧ s.dec.ipos - s.dec.bstart ≤ 2304)

/-- R205 with D10: the stream check, DONE and RESULT. -/
def Obligations.StreamCheckCompares : Prop :=
  (∀ s : State, s.decAt .streamCheck = true → s.dec.strict = true → s.dec.dst.length ≠ s.dec.usize.toNat →
    step s = .next (s.reschedule.withDec (s.dec.raise
      (.uncompressedSizeMismatch s.dec.usize.toNat s.dec.dst.length)))) ∧
  (∀ s : State, s.decAt .streamCheck = true →
    s.dec.strict = false ∨ s.dec.dst.length = s.dec.usize.toNat →
    step s = .next (s.reschedule.withDec { s.dec with phase := .done, result := s.dec.dst }))

/-! ### Faults and the host port -/

/-- R230, R231: what each fault records, and that raising one ends the operation: phase FAULT, STATUS busy 0, done 0,
fault 1, FAULT observed, and nothing else changed (R239). -/
def Obligations.RaiseRecordsTheFault : Prop :=
  (∀ (code : BitVec 2) (ipos : Nat), (Exn.invalidCommand code ipos).record = ⟨1, code.toNat, ipos, 0⟩) ∧
  (∀ blk declared consumed : Nat,
    (Exn.blockSizeMismatch blk declared consumed).record = ⟨2, blk, declared, consumed⟩) ∧
  (∀ declared produced : Nat,
    (Exn.uncompressedSizeMismatch declared produced).record = ⟨3, declared, produced, 0⟩) ∧
  (∀ v : Nat, (Exn.varintRange v).record = ⟨4, 1, v, 0⟩) ∧
  (∀ v : Nat, (Exn.blockSizeRange v).record = ⟨4, 2, v, 0⟩) ∧
  Exn.emptyInput.record = ⟨4, 3, 0, 0⟩ ∧
  (∀ ipos : Nat, (Exn.inputEnd ipos).record = ⟨5, 1, ipos, 0⟩) ∧
  (∀ len d : Nat, (Exn.dstUnderflow len d).record = ⟨5, 2, len, d⟩) ∧
  (∀ len : Nat, (Exn.dstFull len).record = ⟨5, 3, len, 0⟩) ∧
  (∀ d ipos : Nat, (Exn.reservedDistance d ipos).record = ⟨6, d, ipos, 0⟩) ∧
  (∀ (d : Dec) (e : Exn), d.raise e = { d with phase := .fault, fault := e.record } ∧
    (d.raise e).busy = false ∧ (d.raise e).isDone = false ∧ (d.raise e).isFault = true ∧
    (d.raise e).observe = .faulted e.record ∧ (d.raise e).readResult = none) ∧
  (∀ (c : Enc) (e : Exn), c.raise e = { c with phase := .fault, fault := e.record } ∧
    (c.raise e).busy = false ∧ (c.raise e).isDone = false ∧ (c.raise e).isFault = true ∧
    (c.raise e).observe = .faulted e.record ∧ (c.raise e).readResult = none)

/-- R41, R42, R240, R271: an engine changes only by its own step, which it takes only while busy, or by a START that
addresses it, which is performed only while it is not busy. -/
def Obligations.EnginesChangeOnlyByStepOrStart : Prop :=
  (∀ s t : State, s.mover ≠ some .dec ∨ s.dec.busy = false → step s = .next t →
    t.dec = s.dec ∨ (s.dec.busy = false ∧
      ∃ w ws, s.pending = w :: ws ∧ w.op = 1 ∧ t.dec = s.dec.begin w.strict w.input)) ∧
  (∀ s t : State, s.mover ≠ some .enc ∨ s.enc.busy = false → step s = .next t →
    t.enc = s.enc ∨ (s.enc.busy = false ∧
      ∃ w ws, s.pending = w :: ws ∧ w.op = 2 ∧ t.enc = s.enc.begin w.input))

/-- R42, R261, R262: the start of an operation, register by register: START.op and START.input are written,
START.strict only with op 1; and a START write is made only while the engine it addresses is not busy. Registers the
rules do not name keep their contents (the model's choice, log 3); op 0 and 3 wait until neither engine is busy (the
model's choice, log 15). -/
def Obligations.StartBeginsTheOperation : Prop :=
  (∀ (s : State) (w : StartPort) (ws : List StartPort), s.mover = some .host → s.pending = w :: ws → w.op = 1 →
    step s = .next { s.reschedule with
      pending := ws
      start := w
      dec := { s.dec with
        inp := w.input, strict := w.strict, ipos := 0, dst := [], fault := ⟨0, 0, 0, 0⟩, phase := .hdrSize } }) ∧
  (∀ (s : State) (w : StartPort) (ws : List StartPort), s.mover = some .host → s.pending = w :: ws → w.op = 2 →
    step s = .next { s.reschedule with
      pending := ws
      start := { op := 2, strict := s.start.strict, input := w.input }
      enc := { s.enc with
        src := w.input, n := w.input.length, p := 0, out := [], fault := ⟨0, 0, 0, 0⟩, phase := .check } }) ∧
  (∀ (s : State) (w : StartPort) (ws : List StartPort), s.mover = some .host → s.pending = w :: ws →
    w.op ≠ 1 → w.op ≠ 2 →
    step s = .next { s.reschedule with
      pending := ws, start := { op := w.op, strict := s.start.strict, input := w.input } }) ∧
  (∀ (s : State) (w : StartPort) (ws : List StartPort), s.mover = some .host → s.pending = w :: ws →
    (w.op ≠ 2 → s.dec.busy = false) ∧ (w.op ≠ 1 → s.enc.busy = false))

/-- R260: after reset both engines are IDLE, FAULT and STATUS are 0 and RESULT is empty, and no step changes anything
until the host starts an operation (the idle step is the model's rendering, log 13). -/
def Obligations.ResetIsIdle : Prop :=
  State.reset.dec.phase = .idle ∧ State.reset.enc.phase = .idle ∧
  State.reset.dec.fault = ⟨0, 0, 0, 0⟩ ∧ State.reset.enc.fault = ⟨0, 0, 0, 0⟩ ∧
  State.reset.dec.busy = false ∧ State.reset.dec.isDone = false ∧ State.reset.dec.isFault = false ∧
  State.reset.enc.busy = false ∧ State.reset.enc.isDone = false ∧ State.reset.enc.isFault = false ∧
  State.reset.dec.result = [] ∧ State.reset.enc.result = [] ∧
  State.reset.dec.dst = [] ∧ State.reset.enc.out = [] ∧
  State.reset.start = ⟨0, false, []⟩ ∧
  step State.reset = .next State.reset

/-! ### The encoder -/

/-- R172: the match length is bounded by 17, d and the block end, its bytes agree, and it is maximal. -/
def Obligations.MatchLengthIsMaximal : Prop :=
  ∀ (src : Bytes) (p d be : Nat),
    matchLen src p d be ≤ 17 ∧ matchLen src p d be ≤ d ∧ matchLen src p d be ≤ be - p ∧
    (∀ l, l < matchLen src p d be → src[p + l]? = src[p - d + l]?) ∧
    (matchLen src p d be = 17 ∨ matchLen src p d be = d ∨ be ≤ p + matchLen src p d be ∨
      src[p + matchLen src p d be]? ≠ src[p - d + matchLen src p d be]?)

/-- R173: the greatest match length over the candidate distances, and under LZ_TIE = SMALLEST (D6) the smallest
distance giving it; under LARGEST the largest. No candidate gives (0, 0). -/
def Obligations.BestMatchIsGreatestThenNearest : Prop :=
  ∀ (t : LzTie) (src : Bytes) (p reach be : Nat),
    (reach < 2 → bestLz t src p reach be = (0, 0)) ∧
    (∀ d, 2 ≤ d → d ≤ min reach 4095 → matchLen src p d be ≤ (bestLz t src p reach be).1) ∧
    (2 ≤ reach → (t = .smallest ∨ 0 < (bestLz t src p reach be).1) →
      2 ≤ (bestLz t src p reach be).2 ∧ (bestLz t src p reach be).2 ≤ min reach 4095 ∧
      matchLen src p (bestLz t src p reach be).2 be = (bestLz t src p reach be).1) ∧
    (∀ d, 2 ≤ d → d ≤ min reach 4095 → matchLen src p d be = (bestLz t src p reach be).1 →
      0 < (bestLz t src p reach be).1 →
      (t = .smallest → (bestLz t src p reach be).2 ≤ d) ∧ (t = .largest → d ≤ (bestLz t src p reach be).2))

/-- R174: the run counts the byte at p, is bounded by 257 and the block end, and is maximal. -/
def Obligations.RunLengthIsMaximal : Prop :=
  ∀ (src : Bytes) (p be : Nat), p < be →
    1 ≤ runLen src p be ∧ runLen src p be ≤ 257 ∧ p + runLen src p be ≤ be ∧
    (∀ r, r < runLen src p be → src[p + r]? = src[p]?) ∧
    (runLen src p be = 257 ∨ p + runLen src p be = be ∨ src[p + runLen src p be]? ≠ src[p]?)

/-- R175: the selector. -/
def Obligations.SelectorTakesTheBest : Prop :=
  ∀ (lzLen lzDist rleCnt : Nat) (v : Byte),
    (max lzLen rleCnt ≤ 1 → select lzLen lzDist rleCnt v = .copy v) ∧
    (1 < max lzLen rleCnt → rleCnt < lzLen → select lzLen lzDist rleCnt v = .lz77 lzDist lzLen) ∧
    (1 < max lzLen rleCnt → lzLen ≤ rleCnt → select lzLen lzDist rleCnt v = .rle rleCnt v)

/-- R182: every command the encoder selects is well formed and legal, covers at least one byte and none past the limit,
never reads a byte it writes, and stands for the source bytes it covers. -/
def Obligations.SelectedCommandsAreLegal : Prop :=
  ∀ (p : Params) (v : Byte) (c : Enc), c.src[c.p]? = some v → c.p < c.limit p →
    (choose p v c).wf = true ∧ (choose p v c).reserved = false ∧
    1 ≤ covered (choose p v c) ∧ c.p + covered (choose p v c) ≤ c.limit p ∧
    ((choose p v c = .copy v) ∨
     (∃ d n, choose p v c = .lz77 d n ∧ 2 ≤ d ∧ d ≤ min (c.reach p) 4095 ∧ 2 ≤ n ∧ n ≤ min 17 d ∧
       ∀ l, l < n → c.src[c.p + l]? = c.src[c.p - d + l]?) ∨
     (∃ r, choose p v c = .rle r v ∧ 2 ≤ r ∧ r ≤ 257 ∧ ∀ l, l < r → c.src[c.p + l]? = some v))

/-- R209 with D17: CHECK refuses an empty source, then one above 2^24 − 1, before any output. -/
def Obligations.CheckRefusesTheRange : Prop :=
  (∀ s : State, s.encAt .check = true → s.enc.n = 0 →
    step s = .next (s.reschedule.withEnc (s.enc.raise .emptyInput))) ∧
  (∀ s : State, s.encAt .check = true → 2 ^ 24 - 1 < s.enc.n →
    step s = .next (s.reschedule.withEnc (s.enc.raise (.varintRange s.enc.n)))) ∧
  (∀ s : State, s.encAt .check = true → 1 ≤ s.enc.n → s.enc.n ≤ 2 ^ 24 - 1 →
    step s = .next (s.reschedule.withEnc { s.enc with phase := .header }))

/-- R210: HEADER writes the block count and the two varints, the second of a value at most 32767. -/
def Obligations.HeaderIsWritten : Prop :=
  ∀ s : State, s.encAt .header = true → 1 ≤ s.enc.n → s.enc.n ≤ 2 ^ 24 - 1 →
    (s.enc.n + 511) / 512 - 1 ≤ 32767 ∧
    step s = .next (s.reschedule.withEnc { s.enc with
      nblocks := (s.enc.n + 511) / 512
      out := s.enc.out ++ varintBytes s.params.varintForm s.enc.n ++
        varintBytes s.params.varintForm ((s.enc.n + 511) / 512 - 1)
      blk := 0
      p := 0
      phase := .blkOpen })

/-- R211: BLK_OPEN sets the block's bounds and reserves the prefix; the block starts at ENC.p, and covers 512 bytes, or,
the last, 1 to 512. -/
def Obligations.BlockOpens : Prop :=
  (∀ s : State, s.Inv → s.params.lookahead = .blockEnd → s.enc.phase = .blkOpen →
    512 * s.enc.blk = s.enc.p ∧
    (s.enc.blk + 1 < s.enc.nblocks → min (512 * s.enc.blk + 512) s.enc.n = 512 * s.enc.blk + 512) ∧
    (s.enc.nblocks ≤ s.enc.blk + 1 → min (512 * s.enc.blk + 512) s.enc.n = s.enc.n ∧
      512 * s.enc.blk = 512 * (s.enc.nblocks - 1) ∧ 512 * s.enc.blk < s.enc.n ∧ s.enc.n ≤ 512 * s.enc.blk + 512)) ∧
  ∀ s : State, s.encAt .blkOpen = true →
    step s = .next (s.reschedule.withEnc { s.enc with
      bs := 512 * s.enc.blk
      be := min (512 * s.enc.blk + 512) s.enc.n
      ppos := s.enc.out.length
      out := s.enc.out ++ [0, 0]
      phase := .grpOpen })

/-- R170: GRP_OPEN reserves a group byte while bytes of the block remain, else closes the block. -/
def Obligations.GroupOpens : Prop :=
  (∀ s : State, s.encAt .grpOpen = true → s.params.lookahead = .blockEnd → s.enc.p = s.enc.be →
    step s = .next (s.reschedule.withEnc { s.enc with phase := .blkClose })) ∧
  (∀ s : State, s.encAt .grpOpen = true → s.params.lookahead = .blockEnd → s.enc.p ≠ s.enc.be →
    step s = .next (s.reschedule.withEnc { s.enc with
      gpos := s.enc.out.length, out := s.enc.out ++ [0], gbyte := 0, slot := 0, phase := .slot }))

/-- R171: SLOT closes a full group or an exhausted block, else selects with BestLz, RunLen and Select, appends the
operands, packs the code and consumes the length. Every read is below N in the states the second clause names. -/
def Obligations.SlotEmitsOneCommand : Prop :=
  (∀ s : State, s.encAt .slot = true → s.params.lookahead = .blockEnd → s.enc.slot = 4 ∨ s.enc.p = s.enc.be →
    step s = .next (s.reschedule.withEnc { s.enc with phase := .grpClose })) ∧
  (∀ (s : State) (v : Byte) (i : Instr) (k : CmdKind) (best : Nat × Nat), s.encAt .slot = true →
    s.params.lookahead = .blockEnd → s.enc.slot ≠ 4 → s.enc.p ≠ s.enc.be → s.enc.be ≤ s.enc.src.length → s.enc.src[s.enc.p]? = some v →
    best = bestLz s.params.lzTie s.enc.src s.enc.p (s.enc.reach s.params) s.enc.be →
    i = select best.1 best.2 (runLen s.enc.src s.enc.p s.enc.be) v →
    i.kind = some k →
    step s = .next (s.reschedule.withEnc { s.enc with
      out := s.enc.out ++ i.operands
      gbyte := s.enc.gbyte ||| ((s.params.codeMap.code k).setWidth 8 <<< (2 * s.enc.slot.toNat))
      slot := s.enc.slot + 1
      p := s.enc.p + covered i
      phase := .slot }))

/-- R179: GRP_CLOSE patches the group byte and nothing else of OUT; slots not filled hold code 0, END. -/
def Obligations.GroupByteIsPatched : Prop :=
  (∀ s : State, s.encAt .grpClose = true → s.enc.gpos < s.enc.out.length →
    step s = .next (s.reschedule.withEnc { s.enc with
      out := s.enc.out.set s.enc.gpos s.enc.gbyte, phase := .grpOpen })) ∧
  (∀ (s : State) (j : Nat), s.Inv → s.enc.phase = .grpClose → s.enc.slot.toNat ≤ j → slotCode s.enc.gbyte j = 0)

/-- R212: BLK_CLOSE appends the explicit END group after a full last group, patches the prefix with the bytes written
since it, and goes to the next block or to DONE with RESULT. -/
def Obligations.BlockCloses : Prop :=
  ∀ (s : State) (out : Bytes) (size : Nat), s.encAt .blkClose = true →
    out = (if s.enc.slot = 4 then s.enc.out ++ [0] else s.enc.out) → s.enc.ppos + 2 ≤ out.length →
    size = out.length - (s.enc.ppos + 2) →
    (0xFFFF < size →
      step s = .next (s.reschedule.withEnc (({ s.enc with out := out } : Enc).raise (.blockSizeRange size)))) ∧
    (size ≤ 0xFFFF → s.enc.blk + 1 < s.enc.nblocks →
      step s = .next (s.reschedule.withEnc { s.enc with
        out := (out.set s.enc.ppos (BitVec.ofNat 8 size)).set (s.enc.ppos + 1) (BitVec.ofNat 8 (size / 256))
        blk := s.enc.blk + 1
        phase := .blkOpen })) ∧
    (size ≤ 0xFFFF → s.enc.nblocks ≤ s.enc.blk + 1 →
      step s = .next (s.reschedule.withEnc { s.enc with
        out := (out.set s.enc.ppos (BitVec.ofNat 8 size)).set (s.enc.ppos + 1) (BitVec.ofNat 8 (size / 256))
        blk := s.enc.blk + 1
        phase := .done
        result := (out.set s.enc.ppos (BitVec.ofNat 8 size)).set (s.enc.ppos + 1) (BitVec.ofNat 8 (size / 256)) }))

/-- R64, R63, R36: a step of ENC never shortens OUT and changes no byte of it but the group byte in GRP_CLOSE and the
two prefix bytes in BLK_CLOSE; it leaves SRC and N, and moves p only forward (HEADER sets it to 0). -/
def Obligations.EncoderPatchesOnlyReservedBytes : Prop :=
  ∀ s t : State, s.mover = some .enc → step s = .next t →
    t.enc.src = s.enc.src ∧ t.enc.n = s.enc.n ∧ (s.enc.phase ≠ .header → s.enc.p ≤ t.enc.p) ∧
    s.enc.out.length ≤ t.enc.out.length ∧
    ∀ a, a < s.enc.out.length → ¬ (s.enc.phase = .grpClose ∧ a = s.enc.gpos) →
      ¬ (s.enc.phase = .blkClose ∧ (a = s.enc.ppos ∨ a = s.enc.ppos + 1)) →
      t.enc.out[a]? = s.enc.out[a]?

/-! ### The whole machine -/

/-- R20, R75: a step of one engine leaves the other as it is, and what it does depends on that engine and the parameters
alone. -/
def Obligations.EnginesShareNothing : Prop :=
  (∀ s t : State, s.mover = some .dec → step s = .next t → t.enc = s.enc) ∧
  (∀ s t : State, s.mover = some .enc → step s = .next t → t.dec = s.dec) ∧
  (∀ s s' t t' : State, s.mover = some .dec → s'.mover = some .dec → s.dec = s'.dec → s.params = s'.params →
    step s = .next t → step s' = .next t' → t.dec = t'.dec) ∧
  (∀ s s' t t' : State, s.mover = some .enc → s'.mover = some .enc → s.enc = s'.enc → s.params = s'.params →
    step s = .next t → step s' = .next t' → t.enc = t'.enc)

/-- R74, R268: no step of an engine changes IN or SRC, and no step at all the parameters. -/
def Obligations.InputsAndParametersStay : Prop :=
  ∀ s t : State, step s = .next t →
    t.params = s.params ∧ (s.mover ≠ some .host →
      t.dec.inp = s.dec.inp ∧ t.enc.src = s.enc.src ∧ t.start = s.start ∧ t.pending = s.pending)

/-- R33, R62: DEC only appends to the destination. R32: and its input position only moves forward and, under
NONSTRICT_RESYNC = NONE (D9), never past the end. -/
def Obligations.DestinationOnlyGrows : Prop :=
  ∀ s t : State, s.mover = some .dec → step s = .next t →
    s.dec.dst <+: t.dec.dst ∧
    (s.params.resync = .stay → s.dec.ipos ≤ t.dec.ipos ∧ (s.dec.ipos ≤ s.dec.inp.length → t.dec.ipos ≤ t.dec.inp.length))

/-- R247: the two size mismatches are raised only when DEC.strict = 1. -/
def Obligations.SizeFaultsOnlyWhenStrict : Prop :=
  ∀ s t : State, step s = .next t → s.dec.phase ≠ .fault → t.dec.phase = .fault →
    t.dec.fault.code = 2 ∨ t.dec.fault.code = 3 → s.dec.strict = true ∧ t.dec.strict = true

/-- The invariant holds after reset. It rests on the reset values of R260 and R46 and, where the spec gives a
register no value, on the model's choice of 0 and empty (log 2). -/
def Obligations.ResetMeetsInv : Prop := State.reset.Inv

/-- Every step keeps the invariant of Safety.lean, from every state that meets it. -/
def Obligations.StepKeepsInv : Prop := ∀ s t : State, s.Inv → step s = .next t → t.Inv

/-- From every state that meets the invariant the model does not stop: every step answers a next state. -/
def Obligations.InvStatesStepSafely : Prop := ∀ s : State, s.Inv → s.safeStep

/-- R214: a block's size is at most 641, so BLK_CLOSE never raises. -/
def Obligations.BlockSizeIsAtMost641 : Prop :=
  ∀ s t : State, s.Inv → s.params.lookahead = .blockEnd → s.encAt .blkClose = true → step s = .next t →
    (endMark s.enc).blockBytes ≤ 641 ∧ t.enc.phase ≠ .fault

/-- R207: a decompress operation ends within a number of steps bounded by the input length. -/
def Obligations.DecompressEnds : Prop :=
  ∀ (s : State) (strict : Bool) (input : Bytes), s.decAlone = true → s.params.resync = .stay →
    ∃ k t, k ≤ 6 * input.length + 10 ∧ runSteps k (s.startDec strict input) = .next t ∧
      (t.dec.phase = .done ∨ t.dec.phase = .fault)

/-- R272, R209: a compress operation ends within a number of steps bounded by N, in DONE exactly when N is 1 to 2^24 − 1;
that N = 0 is refused is the spec's choice D17. -/
def Obligations.CompressEnds : Prop :=
  ∀ (s : State) (input : Bytes), s.encAlone = true → s.params.lookahead = .blockEnd →
    ∃ k t, k ≤ 7 * input.length + 4 ∧ runSteps k (s.startEnc input) = .next t ∧
      (t.enc.phase = .done ∨ t.enc.phase = .fault) ∧
      (t.enc.phase = .done ↔ 1 ≤ input.length ∧ input.length ≤ 2 ^ 24 - 1)

/-- R34: the 4096-byte circular window gives the same byte as the whole destination for every distance up to 4095. -/
def Obligations.CircularWindowSuffices : Prop :=
  ∀ (w dst : Bytes) (d : Nat), w.length = windowSize → 1 ≤ d → d ≤ 4095 → d ≤ dst.length →
    windowRead (windowAppend w 0 dst) dst.length d = dst[dst.length - d]?

/-- R247: a stream that decodes in strict mode decodes to the same destination in non-strict mode. -/
def Obligations.StrictDecodesAlsoNonStrict : Prop :=
  ∀ (s t : State) (input : Bytes) (k : Nat), s.decAlone = true →
    runSteps k (s.startDec true input) = .next t → t.dec.phase = .done →
    ∃ u, runSteps k (s.startDec false input) = .next u ∧ u.dec.phase = .done ∧ u.dec.result = t.dec.result

/-- R217: the steps of DEC compute the whole decompress function. -/
def Obligations.StepsComputeDecompress : Prop :=
  ∀ (s : State) (strict : Bool) (input : Bytes), s.decAlone = true → s.params.resync = .stay →
    ∃ k t, runSteps k (s.startDec strict input) = .next t ∧
      t.dec.observe = match refDecompress s.params input strict with
        | .ok bytes => .result bytes
        | .error e => .faulted e.record

/-- R216: compress, then a strict decompress, gives the source back, for every code assignment, tie, window scope and
varint form, when matches stop at the block end and the destination has room. -/
def Obligations.CompressThenDecompressIsIdentity : Prop :=
  ∀ (s : State) (source : Bytes), s.encAlone = true → s.decAlone = true →
    s.params.codeMap.wf = true → s.params.lookahead = .blockEnd →
    (∀ c, s.params.dstCap = some c → source.length ≤ c) →
    1 ≤ source.length → source.length ≤ 2 ^ 24 - 1 →
    ∃ k t, runSteps k (s.startEnc source) = .next t ∧ t.enc.phase = .done ∧
      ∃ k' u, runSteps k' (t.startDec true t.enc.result) = .next u ∧ u.dec.phase = .done ∧
        u.dec.result = source
end

