-- ==== Sys2Proof/Laws/State.lean ====
section
/-! SUPPORT. One lemma per field per named update of the state, so that no proof unfolds an update. -/

namespace Sys2Proof.Machine

open Sys2Proof

@[simp] theorem Dec.raise_phase (d : Dec) (e : Exn) : (d.raise e).phase = .fault := rfl
@[simp] theorem Dec.raise_strict (d : Dec) (e : Exn) : (d.raise e).strict = d.strict := rfl
@[simp] theorem Dec.raise_inp (d : Dec) (e : Exn) : (d.raise e).inp = d.inp := rfl
@[simp] theorem Dec.raise_ipos (d : Dec) (e : Exn) : (d.raise e).ipos = d.ipos := rfl
@[simp] theorem Dec.raise_usize (d : Dec) (e : Exn) : (d.raise e).usize = d.usize := rfl
@[simp] theorem Dec.raise_nblocks (d : Dec) (e : Exn) : (d.raise e).nblocks = d.nblocks := rfl
@[simp] theorem Dec.raise_blk (d : Dec) (e : Exn) : (d.raise e).blk = d.blk := rfl
@[simp] theorem Dec.raise_bsize (d : Dec) (e : Exn) : (d.raise e).bsize = d.bsize := rfl
@[simp] theorem Dec.raise_bstart (d : Dec) (e : Exn) : (d.raise e).bstart = d.bstart := rfl
@[simp] theorem Dec.raise_gcnt (d : Dec) (e : Exn) : (d.raise e).gcnt = d.gcnt := rfl
@[simp] theorem Dec.raise_gbyte (d : Dec) (e : Exn) : (d.raise e).gbyte = d.gbyte := rfl
@[simp] theorem Dec.raise_slot (d : Dec) (e : Exn) : (d.raise e).slot = d.slot := rfl
@[simp] theorem Dec.raise_dst (d : Dec) (e : Exn) : (d.raise e).dst = d.dst := rfl
@[simp] theorem Dec.raise_fault (d : Dec) (e : Exn) : (d.raise e).fault = e.record := rfl
@[simp] theorem Dec.raise_result (d : Dec) (e : Exn) : (d.raise e).result = d.result := rfl

@[simp] theorem Enc.raise_phase (c : Enc) (e : Exn) : (c.raise e).phase = .fault := rfl
@[simp] theorem Enc.raise_src (c : Enc) (e : Exn) : (c.raise e).src = c.src := rfl
@[simp] theorem Enc.raise_n (c : Enc) (e : Exn) : (c.raise e).n = c.n := rfl
@[simp] theorem Enc.raise_p (c : Enc) (e : Exn) : (c.raise e).p = c.p := rfl
@[simp] theorem Enc.raise_nblocks (c : Enc) (e : Exn) : (c.raise e).nblocks = c.nblocks := rfl
@[simp] theorem Enc.raise_blk (c : Enc) (e : Exn) : (c.raise e).blk = c.blk := rfl
@[simp] theorem Enc.raise_bs (c : Enc) (e : Exn) : (c.raise e).bs = c.bs := rfl
@[simp] theorem Enc.raise_be (c : Enc) (e : Exn) : (c.raise e).be = c.be := rfl
@[simp] theorem Enc.raise_ppos (c : Enc) (e : Exn) : (c.raise e).ppos = c.ppos := rfl
@[simp] theorem Enc.raise_gpos (c : Enc) (e : Exn) : (c.raise e).gpos = c.gpos := rfl
@[simp] theorem Enc.raise_gbyte (c : Enc) (e : Exn) : (c.raise e).gbyte = c.gbyte := rfl
@[simp] theorem Enc.raise_slot (c : Enc) (e : Exn) : (c.raise e).slot = c.slot := rfl
@[simp] theorem Enc.raise_out (c : Enc) (e : Exn) : (c.raise e).out = c.out := rfl
@[simp] theorem Enc.raise_fault (c : Enc) (e : Exn) : (c.raise e).fault = e.record := rfl
@[simp] theorem Enc.raise_result (c : Enc) (e : Exn) : (c.raise e).result = c.result := rfl

@[simp] theorem Dec.past_phase (d : Dec) (n : Nat) : (d.past n).phase = d.phase := rfl
@[simp] theorem Dec.past_strict (d : Dec) (n : Nat) : (d.past n).strict = d.strict := rfl
@[simp] theorem Dec.past_inp (d : Dec) (n : Nat) : (d.past n).inp = d.inp := rfl
@[simp] theorem Dec.past_ipos (d : Dec) (n : Nat) : (d.past n).ipos = d.ipos + n := rfl
@[simp] theorem Dec.past_usize (d : Dec) (n : Nat) : (d.past n).usize = d.usize := rfl
@[simp] theorem Dec.past_nblocks (d : Dec) (n : Nat) : (d.past n).nblocks = d.nblocks := rfl
@[simp] theorem Dec.past_blk (d : Dec) (n : Nat) : (d.past n).blk = d.blk := rfl
@[simp] theorem Dec.past_bsize (d : Dec) (n : Nat) : (d.past n).bsize = d.bsize := rfl
@[simp] theorem Dec.past_bstart (d : Dec) (n : Nat) : (d.past n).bstart = d.bstart := rfl
@[simp] theorem Dec.past_gcnt (d : Dec) (n : Nat) : (d.past n).gcnt = d.gcnt := rfl
@[simp] theorem Dec.past_gbyte (d : Dec) (n : Nat) : (d.past n).gbyte = d.gbyte := rfl
@[simp] theorem Dec.past_slot (d : Dec) (n : Nat) : (d.past n).slot = d.slot := rfl
@[simp] theorem Dec.past_dst (d : Dec) (n : Nat) : (d.past n).dst = d.dst := rfl
@[simp] theorem Dec.past_fault (d : Dec) (n : Nat) : (d.past n).fault = d.fault := rfl
@[simp] theorem Dec.past_result (d : Dec) (n : Nat) : (d.past n).result = d.result := rfl

@[simp] theorem advance_phase (d : Dec) : (advance d).phase = if d.slot = 3 then .grpFetch else .cmd := by
  unfold advance; split <;> rfl
@[simp] theorem advance_strict (d : Dec) : (advance d).strict = d.strict := by
  unfold advance; split <;> rfl
@[simp] theorem advance_inp (d : Dec) : (advance d).inp = d.inp := by
  unfold advance; split <;> rfl
@[simp] theorem advance_ipos (d : Dec) : (advance d).ipos = d.ipos := by
  unfold advance; split <;> rfl
@[simp] theorem advance_usize (d : Dec) : (advance d).usize = d.usize := by
  unfold advance; split <;> rfl
@[simp] theorem advance_nblocks (d : Dec) : (advance d).nblocks = d.nblocks := by
  unfold advance; split <;> rfl
@[simp] theorem advance_blk (d : Dec) : (advance d).blk = d.blk := by
  unfold advance; split <;> rfl
@[simp] theorem advance_bsize (d : Dec) : (advance d).bsize = d.bsize := by
  unfold advance; split <;> rfl
@[simp] theorem advance_bstart (d : Dec) : (advance d).bstart = d.bstart := by
  unfold advance; split <;> rfl
@[simp] theorem advance_gcnt (d : Dec) : (advance d).gcnt = d.gcnt := by
  unfold advance; split <;> rfl
@[simp] theorem advance_gbyte (d : Dec) : (advance d).gbyte = d.gbyte := by
  unfold advance; split <;> rfl
@[simp] theorem advance_slot (d : Dec) : (advance d).slot = if d.slot = 3 then d.slot else d.slot + 1 := by
  unfold advance; split <;> rfl
@[simp] theorem advance_dst (d : Dec) : (advance d).dst = d.dst := by
  unfold advance; split <;> rfl
@[simp] theorem advance_fault (d : Dec) : (advance d).fault = d.fault := by
  unfold advance; split <;> rfl
@[simp] theorem advance_result (d : Dec) : (advance d).result = d.result := by
  unfold advance; split <;> rfl

@[simp] theorem Dec.begin_phase (d : Dec) (strict : Bool) (input : Bytes) : (d.begin strict input).phase = .hdrSize := rfl
@[simp] theorem Dec.begin_strict (d : Dec) (strict : Bool) (input : Bytes) : (d.begin strict input).strict = strict := rfl
@[simp] theorem Dec.begin_inp (d : Dec) (strict : Bool) (input : Bytes) : (d.begin strict input).inp = input := rfl
@[simp] theorem Dec.begin_ipos (d : Dec) (strict : Bool) (input : Bytes) : (d.begin strict input).ipos = 0 := rfl
@[simp] theorem Dec.begin_usize (d : Dec) (strict : Bool) (input : Bytes) : (d.begin strict input).usize = d.usize := rfl
@[simp] theorem Dec.begin_nblocks (d : Dec) (strict : Bool) (input : Bytes) : (d.begin strict input).nblocks = d.nblocks := rfl
@[simp] theorem Dec.begin_blk (d : Dec) (strict : Bool) (input : Bytes) : (d.begin strict input).blk = d.blk := rfl
@[simp] theorem Dec.begin_bsize (d : Dec) (strict : Bool) (input : Bytes) : (d.begin strict input).bsize = d.bsize := rfl
@[simp] theorem Dec.begin_bstart (d : Dec) (strict : Bool) (input : Bytes) : (d.begin strict input).bstart = d.bstart := rfl
@[simp] theorem Dec.begin_gcnt (d : Dec) (strict : Bool) (input : Bytes) : (d.begin strict input).gcnt = d.gcnt := rfl
@[simp] theorem Dec.begin_gbyte (d : Dec) (strict : Bool) (input : Bytes) : (d.begin strict input).gbyte = d.gbyte := rfl
@[simp] theorem Dec.begin_slot (d : Dec) (strict : Bool) (input : Bytes) : (d.begin strict input).slot = d.slot := rfl
@[simp] theorem Dec.begin_dst (d : Dec) (strict : Bool) (input : Bytes) : (d.begin strict input).dst = [] := rfl
@[simp] theorem Dec.begin_fault (d : Dec) (strict : Bool) (input : Bytes) : (d.begin strict input).fault = FaultRecord.clear := rfl
@[simp] theorem Dec.begin_result (d : Dec) (strict : Bool) (input : Bytes) : (d.begin strict input).result = d.result := rfl

@[simp] theorem Enc.begin_phase (c : Enc) (input : Bytes) : (c.begin input).phase = .check := rfl
@[simp] theorem Enc.begin_src (c : Enc) (input : Bytes) : (c.begin input).src = input := rfl
@[simp] theorem Enc.begin_n (c : Enc) (input : Bytes) : (c.begin input).n = input.length := rfl
@[simp] theorem Enc.begin_p (c : Enc) (input : Bytes) : (c.begin input).p = 0 := rfl
@[simp] theorem Enc.begin_nblocks (c : Enc) (input : Bytes) : (c.begin input).nblocks = c.nblocks := rfl
@[simp] theorem Enc.begin_blk (c : Enc) (input : Bytes) : (c.begin input).blk = c.blk := rfl
@[simp] theorem Enc.begin_bs (c : Enc) (input : Bytes) : (c.begin input).bs = c.bs := rfl
@[simp] theorem Enc.begin_be (c : Enc) (input : Bytes) : (c.begin input).be = c.be := rfl
@[simp] theorem Enc.begin_ppos (c : Enc) (input : Bytes) : (c.begin input).ppos = c.ppos := rfl
@[simp] theorem Enc.begin_gpos (c : Enc) (input : Bytes) : (c.begin input).gpos = c.gpos := rfl
@[simp] theorem Enc.begin_gbyte (c : Enc) (input : Bytes) : (c.begin input).gbyte = c.gbyte := rfl
@[simp] theorem Enc.begin_slot (c : Enc) (input : Bytes) : (c.begin input).slot = c.slot := rfl
@[simp] theorem Enc.begin_out (c : Enc) (input : Bytes) : (c.begin input).out = [] := rfl
@[simp] theorem Enc.begin_fault (c : Enc) (input : Bytes) : (c.begin input).fault = FaultRecord.clear := rfl
@[simp] theorem Enc.begin_result (c : Enc) (input : Bytes) : (c.begin input).result = c.result := rfl

@[simp] theorem outAppend_phase (bs : Bytes) (c : Enc) : (outAppend bs c).phase = c.phase := rfl
@[simp] theorem outAppend_src (bs : Bytes) (c : Enc) : (outAppend bs c).src = c.src := rfl
@[simp] theorem outAppend_n (bs : Bytes) (c : Enc) : (outAppend bs c).n = c.n := rfl
@[simp] theorem outAppend_p (bs : Bytes) (c : Enc) : (outAppend bs c).p = c.p := rfl
@[simp] theorem outAppend_nblocks (bs : Bytes) (c : Enc) : (outAppend bs c).nblocks = c.nblocks := rfl
@[simp] theorem outAppend_blk (bs : Bytes) (c : Enc) : (outAppend bs c).blk = c.blk := rfl
@[simp] theorem outAppend_bs (bs : Bytes) (c : Enc) : (outAppend bs c).bs = c.bs := rfl
@[simp] theorem outAppend_be (bs : Bytes) (c : Enc) : (outAppend bs c).be = c.be := rfl
@[simp] theorem outAppend_ppos (bs : Bytes) (c : Enc) : (outAppend bs c).ppos = c.ppos := rfl
@[simp] theorem outAppend_gpos (bs : Bytes) (c : Enc) : (outAppend bs c).gpos = c.gpos := rfl
@[simp] theorem outAppend_gbyte (bs : Bytes) (c : Enc) : (outAppend bs c).gbyte = c.gbyte := rfl
@[simp] theorem outAppend_slot (bs : Bytes) (c : Enc) : (outAppend bs c).slot = c.slot := rfl
@[simp] theorem outAppend_out (bs : Bytes) (c : Enc) : (outAppend bs c).out = c.out ++ bs := rfl
@[simp] theorem outAppend_fault (bs : Bytes) (c : Enc) : (outAppend bs c).fault = c.fault := rfl
@[simp] theorem outAppend_result (bs : Bytes) (c : Enc) : (outAppend bs c).result = c.result := rfl

@[simp] theorem emit_phase (p : Params) (i : Instr) (c : Enc) : (emit p i c).phase = .slot := rfl
@[simp] theorem emit_src (p : Params) (i : Instr) (c : Enc) : (emit p i c).src = c.src := rfl
@[simp] theorem emit_n (p : Params) (i : Instr) (c : Enc) : (emit p i c).n = c.n := rfl
@[simp] theorem emit_p (p : Params) (i : Instr) (c : Enc) : (emit p i c).p = c.p + covered i := rfl
@[simp] theorem emit_nblocks (p : Params) (i : Instr) (c : Enc) : (emit p i c).nblocks = c.nblocks := rfl
@[simp] theorem emit_blk (p : Params) (i : Instr) (c : Enc) : (emit p i c).blk = c.blk := rfl
@[simp] theorem emit_bs (p : Params) (i : Instr) (c : Enc) : (emit p i c).bs = c.bs := rfl
@[simp] theorem emit_be (p : Params) (i : Instr) (c : Enc) : (emit p i c).be = c.be := rfl
@[simp] theorem emit_ppos (p : Params) (i : Instr) (c : Enc) : (emit p i c).ppos = c.ppos := rfl
@[simp] theorem emit_gpos (p : Params) (i : Instr) (c : Enc) : (emit p i c).gpos = c.gpos := rfl
@[simp] theorem emit_gbyte (p : Params) (i : Instr) (c : Enc) : (emit p i c).gbyte = placeCode c.gbyte c.slot.toNat (emitCode p.codeMap i) := rfl
@[simp] theorem emit_slot (p : Params) (i : Instr) (c : Enc) : (emit p i c).slot = c.slot + 1 := rfl
@[simp] theorem emit_out (p : Params) (i : Instr) (c : Enc) : (emit p i c).out = c.out ++ i.operands := rfl
@[simp] theorem emit_fault (p : Params) (i : Instr) (c : Enc) : (emit p i c).fault = c.fault := rfl
@[simp] theorem emit_result (p : Params) (i : Instr) (c : Enc) : (emit p i c).result = c.result := rfl

@[simp] theorem endMark_phase (c : Enc) : (endMark c).phase = c.phase := by
  by_cases h : c.slot.toNat = 4 <;> simp [endMark, h]
@[simp] theorem endMark_src (c : Enc) : (endMark c).src = c.src := by
  by_cases h : c.slot.toNat = 4 <;> simp [endMark, h]
@[simp] theorem endMark_n (c : Enc) : (endMark c).n = c.n := by
  by_cases h : c.slot.toNat = 4 <;> simp [endMark, h]
@[simp] theorem endMark_p (c : Enc) : (endMark c).p = c.p := by
  by_cases h : c.slot.toNat = 4 <;> simp [endMark, h]
@[simp] theorem endMark_nblocks (c : Enc) : (endMark c).nblocks = c.nblocks := by
  by_cases h : c.slot.toNat = 4 <;> simp [endMark, h]
@[simp] theorem endMark_blk (c : Enc) : (endMark c).blk = c.blk := by
  by_cases h : c.slot.toNat = 4 <;> simp [endMark, h]
@[simp] theorem endMark_bs (c : Enc) : (endMark c).bs = c.bs := by
  by_cases h : c.slot.toNat = 4 <;> simp [endMark, h]
@[simp] theorem endMark_be (c : Enc) : (endMark c).be = c.be := by
  by_cases h : c.slot.toNat = 4 <;> simp [endMark, h]
@[simp] theorem endMark_ppos (c : Enc) : (endMark c).ppos = c.ppos := by
  by_cases h : c.slot.toNat = 4 <;> simp [endMark, h]
@[simp] theorem endMark_gpos (c : Enc) : (endMark c).gpos = c.gpos := by
  by_cases h : c.slot.toNat = 4 <;> simp [endMark, h]
@[simp] theorem endMark_gbyte (c : Enc) : (endMark c).gbyte = c.gbyte := by
  by_cases h : c.slot.toNat = 4 <;> simp [endMark, h]
@[simp] theorem endMark_slot (c : Enc) : (endMark c).slot = c.slot := by
  by_cases h : c.slot.toNat = 4 <;> simp [endMark, h]
@[simp] theorem endMark_out (c : Enc) : (endMark c).out = if c.slot.toNat = 4 then c.out ++ [0] else c.out := by
  by_cases h : c.slot.toNat = 4 <;> simp [endMark, h]
@[simp] theorem endMark_fault (c : Enc) : (endMark c).fault = c.fault := by
  by_cases h : c.slot.toNat = 4 <;> simp [endMark, h]
@[simp] theorem endMark_result (c : Enc) : (endMark c).result = c.result := by
  by_cases h : c.slot.toNat = 4 <;> simp [endMark, h]

@[simp] theorem State.withDec_params (s : State) (d : Dec) : (s.withDec d).params = s.params := rfl
@[simp] theorem State.withDec_dec (s : State) (d : Dec) : (s.withDec d).dec = d := rfl
@[simp] theorem State.withDec_enc (s : State) (d : Dec) : (s.withDec d).enc = s.enc := rfl
@[simp] theorem State.withDec_start (s : State) (d : Dec) : (s.withDec d).start = s.start := rfl
@[simp] theorem State.withDec_pending (s : State) (d : Dec) : (s.withDec d).pending = s.pending := rfl
@[simp] theorem State.withDec_turn (s : State) (d : Dec) : (s.withDec d).turn = s.turn := rfl
@[simp] theorem State.withDec_tick (s : State) (d : Dec) : (s.withDec d).tick = s.tick := rfl

@[simp] theorem State.withEnc_params (s : State) (c : Enc) : (s.withEnc c).params = s.params := rfl
@[simp] theorem State.withEnc_dec (s : State) (c : Enc) : (s.withEnc c).dec = s.dec := rfl
@[simp] theorem State.withEnc_enc (s : State) (c : Enc) : (s.withEnc c).enc = c := rfl
@[simp] theorem State.withEnc_start (s : State) (c : Enc) : (s.withEnc c).start = s.start := rfl
@[simp] theorem State.withEnc_pending (s : State) (c : Enc) : (s.withEnc c).pending = s.pending := rfl
@[simp] theorem State.withEnc_turn (s : State) (c : Enc) : (s.withEnc c).turn = s.turn := rfl
@[simp] theorem State.withEnc_tick (s : State) (c : Enc) : (s.withEnc c).tick = s.tick := rfl

@[simp] theorem State.startDec_params (s : State) (strict : Bool) (input : Bytes) : (s.startDec strict input).params = s.params := rfl
@[simp] theorem State.startDec_dec (s : State) (strict : Bool) (input : Bytes) : (s.startDec strict input).dec = s.dec.begin strict input := rfl
@[simp] theorem State.startDec_enc (s : State) (strict : Bool) (input : Bytes) : (s.startDec strict input).enc = s.enc := rfl
@[simp] theorem State.startDec_start (s : State) (strict : Bool) (input : Bytes) : (s.startDec strict input).start = s.start := rfl
@[simp] theorem State.startDec_pending (s : State) (strict : Bool) (input : Bytes) : (s.startDec strict input).pending = s.pending := rfl
@[simp] theorem State.startDec_turn (s : State) (strict : Bool) (input : Bytes) : (s.startDec strict input).turn = s.turn := rfl
@[simp] theorem State.startDec_tick (s : State) (strict : Bool) (input : Bytes) : (s.startDec strict input).tick = s.tick := rfl

@[simp] theorem State.startEnc_params (s : State) (input : Bytes) : (s.startEnc input).params = s.params := rfl
@[simp] theorem State.startEnc_dec (s : State) (input : Bytes) : (s.startEnc input).dec = s.dec := rfl
@[simp] theorem State.startEnc_enc (s : State) (input : Bytes) : (s.startEnc input).enc = s.enc.begin input := rfl
@[simp] theorem State.startEnc_start (s : State) (input : Bytes) : (s.startEnc input).start = s.start := rfl
@[simp] theorem State.startEnc_pending (s : State) (input : Bytes) : (s.startEnc input).pending = s.pending := rfl
@[simp] theorem State.startEnc_turn (s : State) (input : Bytes) : (s.startEnc input).turn = s.turn := rfl
@[simp] theorem State.startEnc_tick (s : State) (input : Bytes) : (s.startEnc input).tick = s.tick := rfl

@[simp] theorem State.reschedule_params (s : State) : (s.reschedule).params = s.params := by
  unfold State.reschedule; split <;> rfl
@[simp] theorem State.reschedule_dec (s : State) : (s.reschedule).dec = s.dec := by
  unfold State.reschedule; split <;> rfl
@[simp] theorem State.reschedule_enc (s : State) : (s.reschedule).enc = s.enc := by
  unfold State.reschedule; split <;> rfl
@[simp] theorem State.reschedule_start (s : State) : (s.reschedule).start = s.start := by
  unfold State.reschedule; split <;> rfl
@[simp] theorem State.reschedule_pending (s : State) : (s.reschedule).pending = s.pending := by
  unfold State.reschedule; split <;> rfl

@[simp] theorem writeStart_params (w : StartPort) (s : State) : (writeStart w s).params = s.params := by
  unfold writeStart; split <;> (try split) <;> simp_all
@[simp] theorem writeStart_dec (w : StartPort) (s : State) : (writeStart w s).dec = if w.op = 1 then s.dec.begin w.strict w.input else s.dec := by
  unfold writeStart; split <;> (try split) <;> simp_all
@[simp] theorem writeStart_enc (w : StartPort) (s : State) : (writeStart w s).enc = if w.op = 2 then s.enc.begin w.input else s.enc := by
  unfold writeStart; split <;> (try split) <;> simp_all
@[simp] theorem StartPort.write_op (old w : StartPort) : (old.write w).op = w.op := rfl
@[simp] theorem StartPort.write_strict (old w : StartPort) : (old.write w).strict = if w.op = 1 then w.strict else old.strict := rfl
@[simp] theorem StartPort.write_input (old w : StartPort) : (old.write w).input = w.input := rfl
@[simp] theorem writeStart_start (w : StartPort) (s : State) : (writeStart w s).start = s.start.write w := by
  unfold writeStart; split <;> (try split) <;> simp_all
@[simp] theorem writeStart_pending (w : StartPort) (s : State) : (writeStart w s).pending = s.pending := by
  unfold writeStart; split <;> (try split) <;> simp_all
@[simp] theorem writeStart_turn (w : StartPort) (s : State) : (writeStart w s).turn = s.turn := by
  unfold writeStart; split <;> (try split) <;> simp_all
@[simp] theorem writeStart_tick (w : StartPort) (s : State) : (writeStart w s).tick = s.tick := by
  unfold writeStart; split <;> (try split) <;> simp_all

@[simp] theorem State.withDec_withDec (s : State) (d e : Dec) : (s.withDec d).withDec e = s.withDec e := rfl
@[simp] theorem State.withEnc_withEnc (s : State) (c e : Enc) : (s.withEnc c).withEnc e = s.withEnc e := rfl

end Sys2Proof.Machine
end

