-- ==== Sys2Proof/Laws/Ops.lean ====
section
/-! SUPPORT. What each shared operation can do, said once; later proofs cite these instead of unfolding. -/

namespace Sys2Proof.Machine

open Sys2Proof

/-! ### Sequencing -/

@[simp] theorem Act.bind_go {σ α β : Type} (a : α) (s : σ) (f : α → σ → Act σ β) :
    (Act.go a s).bind f = f a s := rfl
@[simp] theorem Act.bind_raised {σ α β : Type} (s : σ) (f : α → σ → Act σ β) :
    (Act.raised s : Act σ α).bind f = .raised s := rfl
@[simp] theorem Act.bind_stop {σ α β : Type} (r : Fault) (f : α → σ → Act σ β) :
    (Act.stop r : Act σ α).bind f = .stop r := rfl

/-- A rule of DEC answers a next state exactly when it goes on or raises, and then only DEC has changed. -/
theorem onDec_next {f : Params → Dec → Act Dec Unit} {s t : State} :
    onDec f s = .next t ↔ ∃ d, (f s.params s.dec = .go () d ∨ f s.params s.dec = .raised d) ∧ t = s.withDec d := by
  unfold onDec State.withDec
  cases h : f s.params s.dec <;> simp [eq_comm]

/-- A rule of ENC answers a next state exactly when it goes on or raises, and then only ENC has changed. -/
theorem onEnc_next {f : Params → Enc → Act Enc Unit} {s t : State} :
    onEnc f s = .next t ↔ ∃ c, (f s.params s.enc = .go () c ∨ f s.params s.enc = .raised c) ∧ t = s.withEnc c := by
  unfold onEnc State.withEnc
  cases h : f s.params s.enc <;> simp [eq_comm]

theorem onDec_go {f : Params → Dec → Act Dec Unit} {s : State} {d : Dec} (h : f s.params s.dec = .go () d) :
    onDec f s = .next (s.withDec d) := onDec_next.2 ⟨d, .inl h, rfl⟩

theorem onDec_raised {f : Params → Dec → Act Dec Unit} {s : State} {d : Dec} (h : f s.params s.dec = .raised d) :
    onDec f s = .next (s.withDec d) := onDec_next.2 ⟨d, .inr h, rfl⟩

theorem onEnc_go {f : Params → Enc → Act Enc Unit} {s : State} {c : Enc} (h : f s.params s.enc = .go () c) :
    onEnc f s = .next (s.withEnc c) := onEnc_next.2 ⟨c, .inl h, rfl⟩

theorem onEnc_raised {f : Params → Enc → Act Enc Unit} {s : State} {c : Enc} (h : f s.params s.enc = .raised c) :
    onEnc f s = .next (s.withEnc c) := onEnc_next.2 ⟨c, .inr h, rfl⟩

/-! ### IN -/

theorem inByte_go {d : Dec} {b : Byte} (h : d.inp[d.ipos]? = some b) : inByte d = .go b (d.past 1) := by
  simp [inByte, h]

theorem inByte_end {d : Dec} (h : d.inp.length ≤ d.ipos) : inByte d = .raised (d.raise (.inputEnd d.ipos)) := by
  simp [inByte, List.getElem?_eq_none h]

/-- `InByte()` reads the byte at ipos, or raises INPUT_END at the end of IN. -/
theorem inByte_cases (d : Dec) :
    (∃ b, d.inp[d.ipos]? = some b ∧ inByte d = .go b (d.past 1)) ∨
    (d.inp.length ≤ d.ipos ∧ inByte d = .raised (d.raise (.inputEnd d.ipos))) := by
  cases h : d.inp[d.ipos]? with
  | some b => exact .inl ⟨b, rfl, inByte_go h⟩
  | none => exact .inr ⟨List.getElem?_eq_none_iff.1 h, inByte_end (List.getElem?_eq_none_iff.1 h)⟩

/-! ### DST -/

theorem dstAppend_go {p : Params} {d : Dec} (v : Byte) (h : p.dstCap ≠ some d.dst.length) :
    dstAppend p v d = .go () { d with dst := d.dst ++ [v] } := by
  simp [dstAppend, dstIsFull, h]

theorem dstAppend_full {p : Params} {d : Dec} (v : Byte) (h : p.dstCap = some d.dst.length) :
    dstAppend p v d = .raised (d.raise (.dstFull d.dst.length)) := by
  simp [dstAppend, dstIsFull, h]

theorem dstRead_go {a : Nat} {d : Dec} (h : a < d.dst.length) : dstRead a d = .go d.dst[a] d := by
  simp [dstRead, List.getElem?_eq_getElem h]

/-- A fill appends all its bytes, no append having found the destination full, or the ones before the first that did,
and then raises DST_FULL. -/
theorem dstFill_cases (p : Params) (v : Byte) (n : Nat) (d : Dec) :
    ((∀ k < n, p.dstCap ≠ some (d.dst.length + k)) ∧
      dstFill p v n d = .go () { d with dst := d.dst ++ List.replicate n v }) ∨
    ∃ k < n, p.dstCap = some (d.dst.length + k) ∧
      dstFill p v n d = .raised (({ d with dst := d.dst ++ List.replicate k v } : Dec).raise (.dstFull (d.dst.length + k))) := by
  induction n generalizing d with
  | zero => simp [dstFill]
  | succ n ih =>
    by_cases h : p.dstCap = some d.dst.length
    · exact .inr ⟨0, by omega, by simpa using h, by simp [dstFill, dstAppend_full v h]⟩
    · obtain ⟨hn, h'⟩ | ⟨k, hk, hc, h'⟩ := ih { d with dst := d.dst ++ [v] }
      · refine .inl ⟨fun k hk => ?_, by simp [dstFill, dstAppend_go v h, h', List.replicate_succ]⟩
        cases k with
        | zero => simpa using h
        | succ k => simpa [Nat.add_assoc, Nat.add_comm 1 k] using hn k (by omega)
      · refine .inr ⟨k + 1, by omega, ?_, ?_⟩
        · simpa [Nat.add_assoc, Nat.add_comm 1 k] using hc
        · simp [dstFill, dstAppend_go v h, h', List.replicate_succ, Nat.add_assoc, Nat.add_comm 1 k]

/-- A copy from inside the destination appends all its bytes, no append having found the destination full, or the ones
before the first that did, and then raises DST_FULL; it never reads outside. -/
theorem dstCopyBack_cases (p : Params) (dist n : Nat) (d : Dec) (h0 : 1 ≤ dist) (h1 : dist ≤ d.dst.length) :
    ∃ bs : Bytes, (bs.length = n ∧ (∀ k < n, p.dstCap ≠ some (d.dst.length + k)) ∧
        dstCopyBack p dist n d = .go () { d with dst := d.dst ++ bs }) ∨
      (bs.length < n ∧ p.dstCap = some (d.dst.length + bs.length) ∧
        dstCopyBack p dist n d =
          .raised (({ d with dst := d.dst ++ bs } : Dec).raise (.dstFull (d.dst.length + bs.length)))) := by
  induction n generalizing d with
  | zero => exact ⟨[], .inl ⟨rfl, by simp, by simp [dstCopyBack]⟩⟩
  | succ n ih =>
    have hr : d.dst.length - dist < d.dst.length := by omega
    by_cases h : p.dstCap = some d.dst.length
    · exact ⟨[], .inr ⟨by simp, by simpa using h, by
        simp [dstCopyBack, dstRead_go hr, dstAppend_full _ h]⟩⟩
    · obtain ⟨bs, h'⟩ := ih { d with dst := d.dst ++ [d.dst[d.dst.length - dist]] } (by simp; omega)
      refine ⟨d.dst[d.dst.length - dist] :: bs, ?_⟩
      obtain ⟨hl, hn, h'⟩ | ⟨hl, hc, h'⟩ := h'
      · refine .inl ⟨by simp [hl], fun k hk => ?_, by simp [dstCopyBack, dstRead_go hr, dstAppend_go _ h, h']⟩
        cases k with
        | zero => simpa using h
        | succ k => simpa [Nat.add_assoc, Nat.add_comm 1 k] using hn k (by omega)
      · refine .inr ⟨by simp; omega, ?_, ?_⟩
        · simpa [Nat.add_assoc, Nat.add_comm 1] using hc
        · simp [dstCopyBack, dstRead_go hr, dstAppend_go _ h, h', Nat.add_assoc, Nat.add_comm 1]

/-! ### SRC and OUT -/

theorem srcRead_go {a : Nat} {c : Enc} {v : Byte} (h : c.src[a]? = some v) : srcRead a c = .go v c := by
  simp [srcRead, h]

theorem outPatch_go {a : Nat} {c : Enc} (v : Byte) (h : a < c.out.length) :
    outPatch a v c = .go () { c with out := c.out.set a v } := by
  simp [outPatch, h]

/-- A patch changes one byte of OUT that is there, or stops. -/
theorem outPatch_cases (a : Nat) (v : Byte) (c : Enc) :
    (a < c.out.length ∧ outPatch a v c = .go () { c with out := c.out.set a v }) ∨
    (c.out.length ≤ a ∧ outPatch a v c = .stop (.patchOutside a)) := by
  by_cases h : a < c.out.length
  · exact .inl ⟨h, outPatch_go v h⟩
  · exact .inr ⟨by omega, by simp [outPatch, h]⟩

/-- VARINT.ENC appends its bytes or raises VARINT_RANGE. -/
theorem varintWrite_cases (p : Params) (v : Nat) (c : Enc) :
    (v ≤ 16777215 ∧ varintWrite p v c = .go () (outAppend (varintBytes p.varintForm v) c)) ∨
    (16777215 < v ∧ varintWrite p v c = .raised (c.raise (.varintRange v))) := by
  by_cases h : 16777215 < v
  · exact .inr ⟨h, by simp [varintWrite, h]⟩
  · exact .inl ⟨by omega, by simp [varintWrite, h]⟩

/-! ### The engines' meanings over these -/

/-- LZ77 raises RESERVED_DISTANCE or DST_UNDERFLOW without appending, raises DST_FULL after some bytes, or appends
all its bytes and advances. It never stops the model. -/
theorem lz77_cases (dist n : Nat) (p : Params) (d : Dec) :
    (dist < 2 ∧ lz77 dist n p d = .raised (d.raise (.reservedDistance dist d.ipos))) ∨
    (2 ≤ dist ∧ d.dst.length < dist ∧ lz77 dist n p d = .raised (d.raise (.dstUnderflow d.dst.length dist))) ∨
    (2 ≤ dist ∧ dist ≤ d.dst.length ∧ ∃ bs : Bytes,
      (bs.length = n ∧ (∀ k < n, p.dstCap ≠ some (d.dst.length + k)) ∧
        lz77 dist n p d = .go () (advance { d with dst := d.dst ++ bs })) ∨
      (bs.length < n ∧ p.dstCap = some (d.dst.length + bs.length) ∧ lz77 dist n p d =
        .raised (({ d with dst := d.dst ++ bs } : Dec).raise (.dstFull (d.dst.length + bs.length))))) := by
  by_cases h2 : dist < 2
  · exact .inl ⟨h2, by simp [lz77, h2]⟩
  · by_cases hu : d.dst.length < dist
    · exact .inr (.inl ⟨by omega, hu, by simp [lz77, h2, hu]⟩)
    · refine .inr (.inr ⟨by omega, by omega, ?_⟩)
      obtain ⟨bs, h⟩ := dstCopyBack_cases p dist n d (by omega) (by omega)
      refine ⟨bs, ?_⟩
      obtain ⟨hl, hn, h⟩ | ⟨hl, hc, h⟩ := h
      · exact .inl ⟨hl, hn, by simp [lz77, h2, hu, h]⟩
      · exact .inr ⟨hl, hc, by simp [lz77, h2, hu, h]⟩

/-- A header phase takes the value; any other phase stops. -/
theorem takeHeader_cases (v : BitVec 32) (d : Dec) :
    (d.phase = .hdrSize ∧ takeHeader v d = .go () { d with usize := v, phase := .hdrBlocks }) ∨
    (d.phase = .hdrBlocks ∧ takeHeader v d = .go () { d with nblocks := v + 1, blk := 0, phase := .blkPrefix }) ∨
    (d.phase ≠ .hdrSize ∧ d.phase ≠ .hdrBlocks ∧ takeHeader v d = .stop .headerValueNotTaken) := by
  unfold takeHeader
  cases h : d.phase <;> simp

/-! ### The steps by phase -/

theorem fetch_go {pl : Place} {p : Params} {d : Dec} {i : Instr} {rest : Bytes}
    (h : d.decodeHere p pl = .ok (i, rest)) : fetch pl p d = .go i (d.past (d.remaining.length - rest.length)) := by
  simp [fetch, h]

theorem fetch_end {pl : Place} {p : Params} {d : Dec} (h : d.decodeHere p pl = .error .inputEnd) :
    fetch pl p d = .raised ((d.past d.remaining.length).raise (.inputEnd (d.ipos + d.remaining.length))) := by
  simp [fetch, h]

theorem fetch_invalid {pl : Place} {p : Params} {d : Dec} {code : BitVec 2}
    (h : d.decodeHere p pl = .error (.invalidCommand code)) :
    fetch pl p d = .raised (d.raise (.invalidCommand code d.ipos)) := by
  simp [fetch, h]

/-- Fetching never stops the model: it reads an instruction, or raises INPUT_END or INVALID_COMMAND. -/
theorem fetch_cases (pl : Place) (p : Params) (d : Dec) :
    (∃ i rest, d.decodeHere p pl = .ok (i, rest) ∧
      fetch pl p d = .go i (d.past (d.remaining.length - rest.length))) ∨
    (d.decodeHere p pl = .error .inputEnd ∧
      fetch pl p d = .raised ((d.past d.remaining.length).raise (.inputEnd (d.ipos + d.remaining.length)))) ∨
    (∃ code, d.decodeHere p pl = .error (.invalidCommand code) ∧
      fetch pl p d = .raised (d.raise (.invalidCommand code d.ipos))) := by
  cases h : d.decodeHere p pl with
  | ok r => exact .inl ⟨r.1, r.2, rfl, fetch_go h⟩
  | error e =>
    cases e with
    | inputEnd => exact .inr (.inl ⟨rfl, fetch_end h⟩)
    | invalidCommand code => exact .inr (.inr ⟨code, rfl, fetch_invalid h⟩)

/-- A step that fetches runs the instruction, or has raised. -/
theorem fetchAndRun_cases (pl : Place) (s : State) :
    (∃ i d, fetch pl s.params s.dec = .go i d ∧ fetchAndRun pl s = exec i (s.withDec d)) ∨
    (∃ d, fetch pl s.params s.dec = .raised d ∧ fetchAndRun pl s = .next (s.withDec d)) := by
  obtain ⟨i, rest, -, h⟩ | ⟨-, h⟩ | ⟨code, -, h⟩ := fetch_cases pl s.params s.dec
  · exact .inl ⟨_, _, h, by simp [fetchAndRun, h]⟩
  · exact .inr ⟨_, h, by simp [fetchAndRun, h]⟩
  · exact .inr ⟨_, h, by simp [fetchAndRun, h]⟩

theorem remaining_of_get {d : Dec} {b : Byte} (h : d.inp[d.ipos]? = some b) :
    d.remaining = b :: d.inp.drop (d.ipos + 1) := by
  obtain ⟨h1, rfl⟩ := List.getElem?_eq_some_iff.1 h
  exact List.drop_eq_getElem_cons h1

@[simp] theorem remaining_past (d : Dec) (n : Nat) : (d.past n).remaining = d.remaining.drop n := by
  simp [Dec.remaining, Dec.past]

theorem remaining_of_end {d : Dec} (h : d.inp.length ≤ d.ipos) : d.remaining = [] := List.drop_eq_nil_of_le h

/-! ### Who moves -/

/-- The agent that moves can move. -/
theorem mover_enabled {s : State} {a : Agent} (h : s.mover = some a) : s.enabled a = true := by
  unfold State.mover at h
  split at h
  · cases h; assumption
  · split at h
    · cases h; assumption
    · split at h
      · cases h; assumption
      · split at h
        · cases h; assumption
        · cases h

/-- When none moves, none can. -/
theorem mover_none {s : State} (h : s.mover = none) (a : Agent) : s.enabled a = false := by
  unfold State.mover at h
  cases a <;> cases h1 : s.enabled .dec <;> cases h2 : s.enabled .enc <;> cases h3 : s.enabled .host <;>
    cases h4 : s.enabled s.turn <;> simp_all

theorem decAt_iff {s : State} {ph : DecPhase} : s.decAt ph = true ↔ s.mover = some .dec ∧ s.dec.phase = ph := by
  simp [State.decAt]

theorem encAt_iff {s : State} {ph : EncPhase} : s.encAt ph = true ↔ s.mover = some .enc ∧ s.enc.phase = ph := by
  simp [State.encAt]

theorem atCommand_iff {s : State} {k : CmdKind} : s.atCommand k = true ↔ s.decAt .cmd = true ∧
    s.params.codeMap.kind? (slotCode s.dec.gbyte s.dec.slot.toNat) = some k := by
  simp [State.atCommand]

theorem step_dec {s : State} (h : s.mover = some .dec) : step s = decStep s.reschedule := by
  simp [step, agentStep, h]

theorem step_enc {s : State} (h : s.mover = some .enc) : step s = encStep s.reschedule := by
  simp [step, agentStep, h]

theorem step_host {s : State} (h : s.mover = some .host) : step s = hostStep s.reschedule := by
  simp [step, agentStep, h]

theorem step_none {s : State} (h : s.mover = none) : step s = .next s := by
  simp [step, agentStep, h]

end Sys2Proof.Machine
end

