-- ==== Sys2Proof/Laws/Memory.lean ====
section
/-! SUPPORT. The four spaces as cells keep the canonical form, and reading after a write (log 1). -/

namespace Sys2Proof.Machine

open Sys2Proof

/-- Every address of the cells from `a` on is at least `a`. -/
theorem cellsFrom_ge (a : Nat) (m : Bytes) : ∀ x ∈ Space.cellsFrom a m, a ≤ x.1 := by
  induction m generalizing a with
  | nil => simp [Space.cellsFrom]
  | cons b m ih =>
    intro x hx
    obtain rfl | hx := List.mem_cons.1 hx
    · exact Nat.le_refl _
    · have := ih (a + 1) x hx; omega

theorem cellsFrom_wf (a : Nat) (m : Bytes) : Memory.wf (Space.cellsFrom a m) := by
  induction m generalizing a with
  | nil => simp [Space.cellsFrom]
  | cons b m ih =>
    exact List.pairwise_cons.2 ⟨fun x hx => cellsFrom_ge (a + 1) m x hx, ih (a + 1)⟩

/-- The cells of every space are in canonical form, whatever operation has been performed on it. -/
theorem cells_wf (m : Bytes) : Memory.wf (Space.cells m) := cellsFrom_wf 0 m

theorem reset_wf : Memory.wf (Space.cells State.reset.dec.dst) := cells_wf _

/-- Two spaces with the same cells are the same data. -/
theorem cellsFrom_injective (a : Nat) (m n : Bytes) (h : Space.cellsFrom a m = Space.cellsFrom a n) : m = n := by
  induction m generalizing a n with
  | nil => cases n <;> simp_all [Space.cellsFrom]
  | cons b m ih =>
    cases n with
    | nil => simp [Space.cellsFrom] at h
    | cons c n =>
      simp only [Space.cellsFrom, List.cons.injEq, Prod.mk.injEq, true_and] at h
      rw [h.1, ih (a + 1) n h.2]

/-- An appended byte is read back at DST.len (20_memory.md R71). -/
theorem dst_read_after_append (m : Bytes) (v : Byte) : (m ++ [v])[m.length]? = some v := by simp

/-- An append leaves every byte below DST.len. -/
theorem dst_read_below_append (m : Bytes) (v : Byte) (a : Nat) (h : a < m.length) : (m ++ [v])[a]? = m[a]? := by
  simp [List.getElem?_append, h]

/-- A patched byte is read back, and a patch leaves every other byte. -/
theorem out_read_after_patch (m : Bytes) (a b : Nat) (v : Byte) (h : a < m.length) :
    (m.set a v)[b]? = if a = b then some v else m[b]? := by
  rw [List.getElem?_set]; split <;> simp_all

end Sys2Proof.Machine
end

