-- ==== Sys2Proof/Laws/PerInstr.lean ====
section
/-! SUPPORT. Statements made for every instruction, one lemma per constructor. -/

namespace Sys2Proof.Laws

open Sys2Proof

/-- 30_encoding.md R94, R98, R101: an instruction's bytes are one first byte and the operand or extra bytes its form
has: END 0, COPY 1, LZ77 2, RLE 2, a varint 0 to 3. -/
def OperandBytes.Statement (i : Instr) : Prop :=
  ∀ m : CodeMap, (encode m i).length = 1 + i.operands.length ∧ i.operands.length ≤ 3 ∧
    (i.kind = some .endBlock → i.operands.length = 0) ∧ (i.kind = some .copy → i.operands.length = 1) ∧
    (i.kind = some .lz77 → i.operands.length = 2) ∧ (i.kind = some .rle → i.operands.length = 2)

theorem OperandBytes.endBlock : OperandBytes.Statement .endBlock := by
  intro m; simp [encode, Instr.operands, Instr.kind]
theorem OperandBytes.copy (v : Byte) : OperandBytes.Statement (.copy v) := by
  intro m; simp [encode, Instr.operands, Instr.kind]
theorem OperandBytes.lz77 (d n : Nat) : OperandBytes.Statement (.lz77 d n) := by
  intro m; simp [encode, Instr.operands, Instr.kind]
theorem OperandBytes.rle (c : Nat) (v : Byte) : OperandBytes.Statement (.rle c v) := by
  intro m; simp [encode, Instr.operands, Instr.kind]
theorem OperandBytes.varint1 (l : BitVec 6) : OperandBytes.Statement (.varint1 l) := by
  intro m; simp [encode, Instr.operands, Instr.kind]
theorem OperandBytes.varint2 (l : BitVec 6) (e1 : Byte) : OperandBytes.Statement (.varint2 l e1) := by
  intro m; simp [encode, Instr.operands, Instr.kind]
theorem OperandBytes.varint3 (l : BitVec 6) (e1 e2 : Byte) : OperandBytes.Statement (.varint3 l e1 e2) := by
  intro m; simp [encode, Instr.operands, Instr.kind]
theorem OperandBytes.varint4 (l : BitVec 6) (e1 e2 e3 : Byte) : OperandBytes.Statement (.varint4 l e1 e2 e3) := by
  intro m; simp [encode, Instr.operands, Instr.kind]

end Sys2Proof.Laws
end

