-- ==== Sys2Proof/Laws/Step.lean ====
section
/-! SUPPORT. What one step can do, said once: every meaning and every step of DEC is a rule of the engine alone, and a
step of the machine is one rule of one engine, one START write, or nothing. -/

namespace Sys2Proof.Machine

open Sys2Proof

/-- The meaning of an instruction as a rule of DEC. -/
def meaning : Instr → Params → Dec → Act Dec Unit
  | .endBlock => fun _ d => .go () { d with phase := .blkCheck }
  | .copy v => fun p d => (dstAppend p v d).bind fun _ d' => .go () (advance d')
  | .lz77 dist n => lz77 dist n
  | .rle n v => fun p d => (dstFill p v n d).bind fun _ d' => .go () (advance d')
  | .varint1 l => fun _ d => takeHeader (varintValue l []) d
  | .varint2 l e1 => fun _ d => takeHeader (varintValue l [e1]) d
  | .varint3 l e1 e2 => fun _ d => takeHeader (varintValue l [e1, e2]) d
  | .varint4 l e1 e2 e3 => fun _ d => takeHeader (varintValue l [e1, e2, e3]) d

theorem exec_eq (i : Instr) (s : State) : exec i s = onDec (meaning i) s := by cases i <;> rfl

/-- A varint's meaning hands its value to the header. -/
theorem meaning_of_headerValue {i : Instr} {v : BitVec 32} (h : i.headerValue = some v) (p : Params) (d : Dec) :
    meaning i p d = takeHeader v d := by
  cases i <;> simp_all [Instr.headerValue, meaning]

/-- A step of DEC as a rule of DEC. -/
def decRule (p : Params) (d : Dec) : Act Dec Unit :=
  match d.phase with
  | .idle => .go () d
  | .hdrSize => (fetch .header p d).bind fun i d' => meaning i p d'
  | .hdrBlocks => (fetch .header p d).bind fun i d' => meaning i p d'
  | .blkPrefix => blkPrefix p d
  | .grpFetch => grpFetch p d
  | .cmd => (fetch .slot p d).bind fun i d' => meaning i p d'
  | .blkCheck => blkCheck p d
  | .streamCheck => streamCheck p d
  | .done => .go () d
  | .fault => .go () d

theorem fetchAndRun_eq (pl : Place) (s : State) :
    fetchAndRun pl s = onDec (fun p d => (fetch pl p d).bind fun i d' => meaning i p d') s := by
  unfold fetchAndRun
  cases h : fetch pl s.params s.dec <;> simp [onDec, h, exec_eq]

theorem decStep_eq (s : State) : decStep s = onDec decRule s := by
  unfold decStep
  cases h : s.dec.phase <;> simp only [fetchAndRun_eq] <;> simp [onDec, decRule, h, State.withDec]

/-- What a step can do. -/
theorem step_cases {s t : State} (h : step s = .next t) :
    (s.mover = none ∧ t = s) ∨
    (s.mover = some .dec ∧ ∃ d, (decRule s.params s.dec = .go () d ∨ decRule s.params s.dec = .raised d) ∧
      t = s.reschedule.withDec d) ∨
    (s.mover = some .enc ∧ ∃ c, (encRule s.params s.enc = .go () c ∨ encRule s.params s.enc = .raised c) ∧
      t = s.reschedule.withEnc c) ∨
    (s.mover = some .host ∧ ∃ w ws, s.pending = w :: ws ∧ startAllowed w s = true ∧
      t = writeStart w { s.reschedule with pending := ws }) := by
  cases hm : s.mover with
  | none => rw [step_none hm] at h; cases h; simp
  | some a =>
    cases a with
    | dec =>
      rw [step_dec hm, decStep_eq] at h
      obtain ⟨d, hd, rfl⟩ := onDec_next.1 h
      exact .inr (.inl ⟨rfl, d, by simpa using hd, rfl⟩)
    | enc =>
      rw [step_enc hm, encStep] at h
      obtain ⟨c, hc, rfl⟩ := onEnc_next.1 h
      exact .inr (.inr (.inl ⟨rfl, c, by simpa using hc, rfl⟩))
    | host =>
      have he := mover_enabled hm
      cases hp : s.pending with
      | nil => simp [State.enabled, hp] at he
      | cons w ws =>
        simp only [State.enabled, hp] at he
        have ha : startAllowed w s.reschedule = true := by simpa [startAllowed] using he
        rw [step_host hm] at h
        simp only [hostStep, State.reschedule_pending, hp, ha, if_true] at h
        cases h
        exact .inr (.inr (.inr ⟨rfl, w, ws, rfl, he, rfl⟩))

/-- An engine that moves is busy. -/
theorem dec_busy_of_mover {s : State} (h : s.mover = some .dec) : s.dec.busy = true := mover_enabled h

theorem enc_busy_of_mover {s : State} (h : s.mover = some .enc) : s.enc.busy = true := mover_enabled h

/-- With DEC alone at work it moves while busy, and nothing but DEC changes. -/
theorem step_decAlone {s : State} (ha : s.decAlone = true) (hb : s.dec.busy = true) :
    step s = onDec decRule s := by
  obtain ⟨he, hp⟩ : s.enc.busy = false ∧ s.pending = [] := by simpa [State.decAlone] using ha
  have hm : s.mover = some .dec := by
    unfold State.mover
    cases ht : s.turn <;> simp [State.enabled, he, hp, hb]
  have hr : s.reschedule = s := by simp [State.reschedule, State.contended, State.enabled, he, hp]
  rw [step_dec hm, hr, decStep_eq]

/-- With ENC alone at work it moves while busy, and nothing but ENC changes. -/
theorem step_encAlone {s : State} (ha : s.encAlone = true) (hb : s.enc.busy = true) :
    step s = onEnc encRule s := by
  obtain ⟨he, hp⟩ : s.dec.busy = false ∧ s.pending = [] := by simpa [State.encAlone] using ha
  have hm : s.mover = some .enc := by
    unfold State.mover
    cases ht : s.turn <;> simp [State.enabled, he, hp, hb]
  have hr : s.reschedule = s := by simp [State.reschedule, State.contended, State.enabled, he, hp]
  rw [step_enc hm, hr, encStep]

theorem runSteps_zero (s : State) : runSteps 0 s = .next s := rfl

theorem runSteps_succ {s t : State} (k : Nat) (h : step s = .next t) : runSteps (k + 1) s = runSteps k t := by
  simp [runSteps, h]

theorem runSteps_add {s t : State} (j k : Nat) (h : runSteps j s = .next t) : runSteps (j + k) s = runSteps k t := by
  induction j generalizing s with
  | zero => simp only [runSteps] at h; cases h; simp
  | succ j ih =>
    rw [Nat.add_right_comm]
    simp only [runSteps] at h ⊢
    cases hs : step s with
    | next u => rw [hs] at h; exact ih h
    | fault f => rw [hs] at h; cases h
    | refused r => rw [hs] at h; cases h

end Sys2Proof.Machine
end

