-- ==== Sys2Proof/Tests/Slice0.lean ====
section
/-! SUPPORT. Tests: expected results are the spec's own words, examples and vectors (named in each comment), and the
witnesses that the hypotheses of the statements can be met together. -/

namespace Sys2Proof.Tests

open Sys2Proof Sys2Proof.Machine

/-! ### Small states -/

/-- DEC in a phase, over an input from a position, with a group byte, a slot and a destination. -/
def decState (ph : DecPhase) (inp : Bytes) (ipos : Nat) (g : Byte) (slot : BitVec 3) (dst : Bytes) : State :=
  { State.reset with dec := { Dec.reset with
      phase := ph, inp := inp, ipos := ipos, gbyte := g, slot := slot, dst := dst, gcnt := 1, nblocks := 1 } }

/-- The same with a destination capacity. -/
def capped (cap : Nat) (s : State) : State := { s with params := { s.params with dstCap := some cap } }

/-- ENC in a phase at a position of a source, in block 0. -/
def encState (ph : EncPhase) (src : Bytes) (p : Nat) (out : Bytes) (slot : BitVec 3) : State :=
  { State.reset with enc := { Enc.reset with
      phase := ph, src := src, n := src.length, p := p, nblocks := 1, be := src.length, out := out,
      ppos := 2, gpos := 4, slot := slot } }

/-- A machine whose host has one START to make. -/
def hostState (w : StartPort) : State := { State.reset with pending := [w] }

/-- A field of the next state. -/
def after {α : Type} (o : Host.Outcome State Fault Refusal) (f : State → α) : Option α :=
  match o with
  | .next t => some (f t)
  | .fault _ => none
  | .refused _ => none

/-! ### WellFormed: an ill-formed term for each check (30_encoding.md R103) -/

theorem test_wf_distance_4096 : (Instr.lz77 4096 2).wf = false := by decide
theorem test_wf_length_1 : (Instr.lz77 2 1).wf = false := by decide
theorem test_wf_length_18 : (Instr.lz77 2 18).wf = false := by decide
theorem test_wf_count_1 : (Instr.rle 1 0).wf = false := by decide
theorem test_wf_count_258 : (Instr.rle 258 0).wf = false := by decide
theorem test_wf_largest : (Instr.lz77 4095 17).wf = true ∧ (Instr.rle 257 0).wf = true := by decide
theorem test_reserved_distance : (Instr.lz77 1 2).reserved = true ∧ (Instr.lz77 2 2).reserved = false := by decide

/-! ### Decoding: words written out from 30_encoding.md R93 to R98 -/

/-- R94: code 00, whatever the other slots hold (vector X9, group byte FC). -/
theorem test_decode_end : decodeSlot CodeMap.spec 0b11111100#8 0 [0x07#8] = .ok (.endBlock, [0x07#8]) := by rfl
/-- R95: group byte 15 (COPY, COPY, COPY, END), slot 2. -/
theorem test_decode_copy : decodeSlot CodeMap.spec 0b00010101#8 2 [0x43#8, 0x99#8] = .ok (.copy 0x43#8, [0x99#8]) := by rfl
/-- Section 3 of the vectors: `1A 0F` is LZ77(26, 17); group byte 95, slot 3. -/
theorem test_decode_lz77 : decodeSlot CodeMap.spec 0b10010101#8 3 [0x1A#8, 0x0F#8] = .ok (.lz77 26 17, []) := by rfl
/-- Section 3: `00 2F` is LZ77(512, 17). -/
theorem test_decode_lz77_high : decodeSlot CodeMap.spec 0b00000010#8 0 [0x00#8, 0x2F#8] = .ok (.lz77 512 17, []) := by rfl
/-- Section 3: `FF 09` is RLE(257, 09); group byte 0F, slot 1. -/
theorem test_decode_rle : decodeSlot CodeMap.spec 0b00001111#8 1 [0xFF#8, 0x09#8] = .ok (.rle 257 0x09#8, []) := by rfl
/-- R98 and VD2. -/
theorem test_decode_varint1 : decodeVarint [0b00111111#8, 0x00#8] = .ok (.varint1 63#6, [0x00#8]) := by rfl
/-- VD3. -/
theorem test_decode_varint2 : decodeVarint [0b01000000#8, 0x01#8] = .ok (.varint2 0#6 0x01#8, []) := by rfl
/-- VD9. -/
theorem test_decode_varint3 : decodeVarint [0b10000000#8, 0xFF#8, 0xFF#8] = .ok (.varint3 0#6 0xFF#8 0xFF#8, []) := by rfl
/-- VD6. -/
theorem test_decode_varint4 :
    decodeVarint [0b11000000#8, 0x00#8, 0x00#8, 0x01#8] = .ok (.varint4 0#6 0x00#8 0x00#8 0x01#8, []) := by rfl
/-- R102, R146: a code assignment that leaves code 1 to no command rejects it by name. -/
theorem test_decode_invalid :
    decodeSlot { copy := 2, lz77 := 2, rle := 3 } 0b00000001#8 0 [] = .error (.invalidCommand 1) := by rfl
/-- VD12: the extra byte is missing. -/
theorem test_decode_missing : decodeVarint [0x40#8] = .error .inputEnd := by rfl
/-- Values VD4, VD8, VD9, VD11. -/
theorem test_varint_values :
    varintValue 0x2C#6 [0x04#8] = 300#32 ∧ varintValue 1#6 [0xFF#8] = 16321#32 ∧
    varintValue 0#6 [0xFF#8, 0xFF#8] = 1048512#32 ∧ varintValue 0x3F#6 [0xFF#8, 0xFF#8, 0xFF#8] = 67108863#32 := by
  decide
/-- VE3, VE8, VE11, VE13. -/
theorem test_varint_encode :
    varintBytes .sixBit 64 = [0x40#8, 0x01#8] ∧ varintBytes .sixBit 4096 = [0x80#8, 0x00#8, 0x01#8] ∧
    varintBytes .sixBit 262143 = [0xBF#8, 0x3F#8, 0x3F#8] ∧
    varintBytes .sixBit 16777215 = [0xFF#8, 0x3F#8, 0x3F#8, 0x3F#8] := by decide
/-- VE8's note: `40 40` under VARINT_ENC_FORM = EIGHT_BIT. -/
theorem test_varint_encode_eight : varintBytes .eightBit 4096 = [0x40#8, 0x40#8] := by decide
/-- The table's words, operand bytes zero; the word 0 reads as END (log 16). -/
theorem test_table_words :
    decodeTableWord 8 0x0 = some .endBlock ∧ decodeTableWord 8 0x1 = some (.copy 0) ∧
    decodeTableWord 8 0x2 = some (.lz77 0 2) ∧ decodeTableWord 8 0x3 = some (.rle 2 0) ∧
    decodeTableWord 8 0x40 = some (.varint2 0 0) ∧ decodeTableWord 8 0x80 = some (.varint3 0 0 0) ∧
    decodeTableWord 8 0xC0 = some (.varint4 0 0 0 0) ∧ decodeTableWord 8 0x3F = some (.varint1 0x3F) := by decide

/-! ### One step of each instruction -/

/-- R142's example: group byte 15, slot 3. -/
theorem test_end_step :
    after (step (decState .cmd [0x15#8, 1, 2, 3] 4 0x15#8 3 [1, 2, 3])) (fun t => (t.dec.phase, t.dec.ipos, t.dec.dst)) =
      some (.blkCheck, 4, [1, 2, 3]) := by rfl
/-- R143's example: operand 41. -/
theorem test_copy_step :
    after (step (decState .cmd [0x01#8, 0x41#8] 1 0x01#8 0 [])) (fun t => (t.dec.dst, t.dec.ipos, t.dec.slot)) =
      some ([0x41#8], 2, 1) := by rfl
/-- F3: the third COPY's operand is missing. -/
theorem test_copy_missing :
    after (step (decState .cmd [0x15#8, 0x41#8] 2 0x15#8 1 [0x41#8])) (fun t => (t.dec.phase, t.dec.fault)) =
      some (.fault, ⟨5, 1, 2, 0⟩) := by rfl
/-- W7: LZ77(3, 10), operands `03 08`, against 01 02 03. -/
theorem test_lz77_overlap :
    after (step (decState .cmd [0x02#8, 0x03#8, 0x08#8] 1 0x02#8 0 [1, 2, 3])) (fun t => (t.dec.dst, t.dec.ipos)) =
      some ([1, 2, 3, 1, 2, 3, 1, 2, 3, 1, 2, 3, 1], 3) := by rfl
/-- X10, X11: a distance above DST.len, and a reserved one. -/
theorem test_lz77_faults :
    after (step (decState .cmd [0x09#8, 0x41#8, 0x03#8, 0x00#8] 2 0x09#8 1 [0x41#8])) (fun t => t.dec.fault) =
      some ⟨5, 2, 1, 3⟩ ∧
    after (step (decState .cmd [0x09#8, 0x41#8, 0x01#8, 0x00#8] 2 0x09#8 1 [0x41#8])) (fun t => t.dec.fault) =
      some ⟨6, 1, 4, 0⟩ := ⟨by rfl, by rfl⟩
/-- W4: count field 0 appends two bytes. -/
theorem test_rle_step :
    after (step (decState .cmd [0xC0#8, 0x00#8, 0x05#8] 1 0xC0#8 3 [])) (fun t => (t.dec.dst, t.dec.phase)) =
      some ([5, 5], .grpFetch) := by rfl
/-- D14, X13: an append at capacity. -/
theorem test_rle_full :
    after (step (capped 1 (decState .cmd [0x03#8, 0x00#8, 0x05#8] 1 0x03#8 0 []))) (fun t => (t.dec.fault, t.dec.dst)) =
      some (⟨5, 3, 1, 0⟩, [5]) := by rfl
/-- R201's example: `00` gives one block. -/
theorem test_varint1_step :
    after (step (decState .hdrBlocks [0x00#8] 0 0 0 [])) (fun t => (t.dec.nblocks, t.dec.blk, t.dec.phase)) =
      some (1, 0, .blkPrefix) := by rfl
/-- R200's example: `6C 04` gives usize 300 at ipos 2. -/
theorem test_varint2_step :
    after (step (decState .hdrSize [0x6C#8, 0x04#8] 0 0 0 [])) (fun t => (t.dec.usize, t.dec.ipos, t.dec.phase)) =
      some (300, 2, .hdrBlocks) := by rfl
/-- R121: `80 FF FF` is 1048512. -/
theorem test_varint3_step :
    after (step (decState .hdrSize [0x80#8, 0xFF#8, 0xFF#8] 0 0 0 [])) (fun t => t.dec.usize) = some 1048512 := by rfl
/-- F12: `FF FF FF FF` is 2^26 − 1. -/
theorem test_varint4_step :
    after (step (decState .hdrSize [0xFF#8, 0xFF#8, 0xFF#8, 0xFF#8] 0 0 0 [])) (fun t => t.dec.usize) =
      some 67108863 := by rfl

/-! ### The framer, the encoder and the assembler -/

/-- R202's example: `0A 00`. -/
theorem test_prefix :
    after (step (decState .blkPrefix [0x0A#8, 0x00#8] 0 0 0 [])) (fun t => (t.dec.bsize, t.dec.bstart, t.dec.gcnt)) =
      some (10, 2, 0) := by rfl
/-- R140's example: group byte 95. -/
theorem test_group_fetch :
    after (step (decState .grpFetch [0x95#8] 0 0 3 [])) (fun t => (t.dec.gbyte, t.dec.gcnt, t.dec.slot, t.dec.phase)) =
      some (0x95, 2, 0, .cmd) := by rfl
/-- The selector's table of section 4. -/
theorem test_selector :
    select 1 0 1 7 = .copy 7 ∧ select 2 3 1 7 = .lz77 3 2 ∧ select 0 0 2 7 = .rle 2 7 ∧ select 2 3 2 7 = .rle 2 7 ∧
    select 3 4 2 7 = .lz77 4 3 ∧ select 17 5 16 7 = .lz77 5 17 ∧ select 17 5 17 7 = .rle 17 7 := by decide
/-- P6: "ABxAByAB" at p = 6 has candidates 6 and 3 of length 2; SMALLEST takes 3, LARGEST 6. -/
theorem test_tie :
    bestLz .smallest [0x41#8, 0x42, 0x78, 0x41, 0x42, 0x79, 0x41, 0x42] 6 6 8 = (2, 3) ∧
    bestLz .largest [0x41#8, 0x42, 0x78, 0x41, 0x42, 0x79, 0x41, 0x42] 6 6 8 = (2, 6) := by decide
/-- E7: "AAB" starts with RLE(2, 41). -/
theorem test_run : runLen [0x41#8, 0x41, 0x42] 0 3 = 2 := by decide
/-- R178's example: RLE(43) has operands `29 00`. -/
theorem test_operands : (Instr.rle 43 0).operands = [0x29#8, 0x00#8] ∧ (Instr.lz77 4095 17).operands = [0xFF#8, 0xFF#8] := by
  decide
/-- P3's listing assembles to its 14 bytes. -/
theorem test_assemble :
    assemble [.stream 13 1, .block [.copy 1, .copy 2, .copy 3, .lz77 3 3, .lz77 6 6, .copy 1, .endBlock]] =
      some [0x0D#8, 0x00, 0x0A, 0x00, 0x95, 0x01, 0x02, 0x03, 0x03, 0x01, 0x06, 0x06, 0x04, 0x01] := by decide
/-- P1's listing: END after a full group is the group byte 00. -/
theorem test_assemble_end_group :
    assemble [.stream 4 1, .block [.copy 0x41, .copy 0x42, .copy 0x43, .copy 0x44, .endBlock]] =
      some [0x04#8, 0x00, 0x06, 0x00, 0x55, 0x41, 0x42, 0x43, 0x44, 0x00] := by decide
/-- P7's note: `.endblock` after a full group adds an END group. -/
theorem test_assemble_endblock :
    assemble [.block [.copy 0x41, .copy 0x42, .copy 0x43, .copy 0x44]] =
      some [0x06#8, 0x00, 0x55, 0x41, 0x42, 0x43, 0x44, 0x00] := by decide
/-- R123: no encoding for a value above 2^24 − 1 (log 30). -/
theorem test_assemble_outside :
    assemble [.stream (2 ^ 24) 1] = none ∧ assemble [.stream 1 0] = none ∧ assemble [.blockSized 65536 []] = none := by decide
/-- R42, R262: START.strict is written with op 1 only. -/
theorem test_start_strict :
    (writeStart ⟨2, true, [5]⟩ State.reset).start = ⟨2, false, [5]⟩ ∧
    (writeStart ⟨1, true, [5]⟩ State.reset).start = ⟨1, true, [5]⟩ := by decide
/-- R42: START is a host write only when the engine is IDLE, DONE or FAULT. -/
theorem test_start_waits :
    startAllowed ⟨0, false, []⟩ (decState .cmd [] 0 0 0 []) = false ∧
    startAllowed ⟨2, false, []⟩ (decState .cmd [] 0 0 0 []) = true := by decide
/-- R217 on X3, and on F1 in strict and non-strict mode. -/
theorem test_reference :
    refDecompress Params.spec [0x06#8, 0, 7, 0, 0x95, 0x41, 0x42, 0x43, 3, 1, 0] true =
      .ok [0x41, 0x42, 0x43, 0x41, 0x42, 0x43] ∧
    refDecompress Params.spec [0x03#8, 0, 5, 0, 0x15, 0x41, 0x42, 0x43] true = .error (.blockSizeMismatch 0 5 4) ∧
    refDecompress Params.spec [0x03#8, 0, 5, 0, 0x15, 0x41, 0x42, 0x43] false = .ok [0x41, 0x42, 0x43] :=
  ⟨by rfl, by rfl, by rfl⟩

/-! ### Witnesses: the hypotheses of each statement, met together, clause by clause -/

/-- DEC in CMD before a slot of the group byte E4 (END, COPY, LZ77, RLE), over the given input from position 1. -/
def cmdState (slot : BitVec 3) (inp dst : Bytes) : State := decState .cmd inp 1 0xE4#8 slot dst

/-- DEC at the block check of a block of `declared` bytes that read four. -/
def checkState (strict : Bool) (declared : BitVec 16) (nblocks : BitVec 32) : State :=
  { State.reset with dec := { Dec.reset with
      phase := .blkCheck, strict := strict, ipos := 6, bstart := 2, bsize := declared, gcnt := 1, nblocks := nblocks } }

/-- DEC at the stream check with one byte produced. -/
def streamState (strict : Bool) (declared : BitVec 32) : State :=
  { State.reset with dec := { Dec.reset with
      phase := .streamCheck, strict := strict, usize := declared, nblocks := 1, blk := 1, dst := [7] } }

/-- DEC at a group fetch. -/
def fetchState (gcnt : BitVec 9) (inp : Bytes) : State :=
  { State.reset with dec := { Dec.reset with phase := .grpFetch, inp := inp, gcnt := gcnt } }

/-- ENC at BLK_CLOSE of the one block of `41`: the header 01 00, the prefix reserved, the group 01 41. -/
def closeState : State :=
  { State.reset with enc := { Enc.reset with
      phase := .blkClose, src := [0x41], n := 1, p := 1, nblocks := 1, be := 1, out := [1, 0, 0, 0, 1, 0x41],
      ppos := 2, gpos := 4, gbyte := 1, slot := 1 } }

/-- ENC at BLK_CLOSE of the first of `nblocks` blocks, after a block of `size` bytes. -/
def closeSized (nblocks size : Nat) : State :=
  { State.reset with enc := { Enc.reset with
      phase := .blkClose, nblocks := nblocks, out := List.replicate (size + 2) 0, slot := 1 } }

theorem witness_command_operands :
    CodeMap.spec.wf = true ∧ (Instr.lz77 4095 17).wf = true ∧ (Instr.lz77 4095 17).kind = some .lz77 ∧
    slotCode 0b10010101#8 3 = CodeMap.spec.code .lz77 := by decide
theorem witness_decode_of_encode :
    CodeMap.spec.wf = true ∧ (Instr.rle 257 0xFF).wf = true ∧ (Instr.varint4 0x3F 0xFF 0xFF 0xFF).wf = true := by decide
theorem witness_encode_of_decode :
    decodeSlot CodeMap.spec 0xE4#8 2 [0xFF, 0xFF, 9] = .ok (.lz77 4095 17, [9]) ∧
    decodeVarint [0x7F, 0xFF, 9] = .ok (.varint2 0x3F 0xFF, [9]) := by decide
theorem witness_no_code_is_invalid : CodeMap.wf { copy := 3, lz77 := 1, rle := 2 } = true := by decide
theorem witness_varint_value :
    (0xC0#8).toNat / 64 ≤ ([1, 2, 3] : Bytes).length ∧ ([1, 2] : Bytes).length < (0xC0#8).toNat / 64 := by decide
theorem witness_varint_range :
    decodeVarint [0xFF, 0xFF, 0xFF, 0xFF] = .ok (.varint4 0x3F 0xFF 0xFF 0xFF, []) ∧
    (Instr.varint4 0x3F 0xFF 0xFF 0xFF).headerValue = some 0x3FFFFFF := by decide
theorem witness_varint_write : 2 ^ 24 - 1 < 2 ^ 24 ∧ 2 ^ 24 - 1 ≤ 2 ^ 24 - 1 := by decide
theorem witness_packed_group :
    CodeMap.spec.wf = true ∧ ([.copy 1, .lz77 2 2, .rle 2 0, .endBlock] : List Instr).length ≤ 4 ∧
    ∀ i ∈ ([.copy 1, .lz77 2 2, .rle 2 0, .endBlock] : List Instr), i.wf = true ∧ i.kind.isSome = true := by decide

theorem witness_end : (cmdState 0 [0xE4] []).atCommand .endBlock = true := by decide
theorem witness_copy_room :
    (cmdState 1 [0xE4] []).params.dstCap ≠ some (cmdState 1 [0xE4] []).dec.dst.length ∧
    (capped 0 (cmdState 1 [0xE4] [])).params.dstCap = some (capped 0 (cmdState 1 [0xE4] [])).dec.dst.length := by decide
theorem witness_copy_step :
    (cmdState 1 [0xE4, 9] []).atCommand .copy = true ∧ (cmdState 1 [0xE4, 9] []).dec.inp[1]? = some 9 := by decide
theorem witness_copy_missing :
    (cmdState 1 [0xE4] []).atCommand .copy = true ∧
    (cmdState 1 [0xE4] []).dec.inp.length ≤ (cmdState 1 [0xE4] []).dec.ipos := by decide
theorem witness_lz77_room :
    2 ≤ (cmdState 2 [0xE4] [1, 2]).dec.dst.length ∧
    (cmdState 2 [0xE4] [1, 2]).dec.roomFor (cmdState 2 [0xE4] [1, 2]).params 17 = true ∧
    (capped 19 (cmdState 2 [0xE4] [1, 2])).dec.roomFor (capped 19 (cmdState 2 [0xE4] [1, 2])).params 17 = true := by decide
theorem witness_lz77_full :
    (capped 18 (cmdState 2 [0xE4] [1, 2])).params.dstCap = some 18 ∧ 2 ≤ 2 ∧
    2 ≤ (capped 18 (cmdState 2 [0xE4] [1, 2])).dec.dst.length ∧
    (capped 18 (cmdState 2 [0xE4] [1, 2])).dec.dst.length ≤ 18 ∧
    18 < (capped 18 (cmdState 2 [0xE4] [1, 2])).dec.dst.length + 17 := by decide
theorem witness_lz77_checks : 1 < 2 ∧ 2 ≤ 2 ∧ (cmdState 2 [0xE4] [1]).dec.dst.length < 2 := by decide
theorem witness_lz77_step :
    (cmdState 2 [0xE4, 2, 0] [1, 2]).atCommand .lz77 = true ∧
    (cmdState 2 [0xE4, 2, 0] [1, 2]).dec.inp[1]? = some 2 ∧ (cmdState 2 [0xE4, 2, 0] [1, 2]).dec.inp[1 + 1]? = some 0 := by
  decide
theorem witness_lz77_missing :
    ((cmdState 2 [0xE4] [1]).atCommand .lz77 = true ∧
      (cmdState 2 [0xE4] [1]).dec.inp.length ≤ (cmdState 2 [0xE4] [1]).dec.ipos) ∧
    ((cmdState 2 [0xE4, 2] [1]).atCommand .lz77 = true ∧
      (cmdState 2 [0xE4, 2] [1]).dec.inp.length = (cmdState 2 [0xE4, 2] [1]).dec.ipos + 1) := by decide
theorem witness_rle_room :
    (cmdState 3 [0xE4] []).dec.roomFor (cmdState 3 [0xE4] []).params 257 = true ∧
    (capped 257 (cmdState 3 [0xE4] [])).dec.roomFor (capped 257 (cmdState 3 [0xE4] [])).params 257 = true := by decide
theorem witness_rle_full :
    (capped 256 (cmdState 3 [0xE4] [])).params.dstCap = some 256 ∧
    (capped 256 (cmdState 3 [0xE4] [])).dec.dst.length ≤ 256 ∧
    256 < (capped 256 (cmdState 3 [0xE4] [])).dec.dst.length + 257 := by decide
theorem witness_rle_step :
    (cmdState 3 [0xE4, 0xFF, 5] []).atCommand .rle = true ∧
    (cmdState 3 [0xE4, 0xFF, 5] []).dec.inp[1]? = some 0xFF ∧ (cmdState 3 [0xE4, 0xFF, 5] []).dec.inp[1 + 1]? = some 5 := by
  decide
theorem witness_rle_missing :
    ((cmdState 3 [0xE4] []).atCommand .rle = true ∧
      (cmdState 3 [0xE4] []).dec.inp.length ≤ (cmdState 3 [0xE4] []).dec.ipos) ∧
    ((cmdState 3 [0xE4, 2] []).atCommand .rle = true ∧
      (cmdState 3 [0xE4, 2] []).dec.inp.length = (cmdState 3 [0xE4, 2] []).dec.ipos + 1) := by decide
theorem witness_advance :
    (∃ t, (Instr.copy 5).kind = some .copy ∧ CmdKind.copy ≠ .endBlock ∧ exec (.copy 5) (cmdState 3 [] []) = .next t ∧
      t.dec.phase ≠ .fault ∧ (cmdState 3 [] []).dec.slot = 3) ∧
    ∃ t, exec (.rle 2 5) (cmdState 2 [] []) = .next t ∧ t.dec.phase ≠ .fault ∧ (cmdState 2 [] []).dec.slot ≠ 3 :=
  ⟨⟨_, rfl, by decide, rfl, by decide, rfl⟩, ⟨_, rfl, by decide, by decide⟩⟩
theorem witness_varints_fill :
    (decState .hdrSize [] 0 0 0 []).dec.phase = .hdrSize ∧ (decState .hdrBlocks [] 0 0 0 []).dec.phase = .hdrBlocks := by decide
theorem witness_varint_elsewhere :
    (Instr.varint1 0).place = .header ∧ (cmdState 0 [] []).dec.phase ≠ .hdrSize ∧
    (cmdState 0 [] []).dec.phase ≠ .hdrBlocks := by decide
theorem witness_command_frame :
    ∃ t, (Instr.rle 2 5).kind = some .rle ∧ exec (.rle 2 5) (cmdState 3 [] []) = .next t := ⟨_, rfl, rfl⟩
theorem witness_command_frame_fault :
    ∃ t, exec (.lz77 1 2) (cmdState 2 [] []) = .next t ∧ t.dec.phase = .fault := ⟨_, rfl, rfl⟩
theorem witness_varint_frame :
    ∃ t, (Instr.varint2 0 1).place = .header ∧ exec (.varint2 0 1) (decState .hdrSize [] 0 0 0 []) = .next t :=
  ⟨_, rfl, rfl⟩
theorem witness_step_runs :
    ((cmdState 2 [0xE4, 2, 0] [1, 2]).decAt .cmd = true ∧
      decodeSlot CodeMap.spec 0xE4#8 2 (cmdState 2 [0xE4, 2, 0] [1, 2]).dec.remaining = .ok (.lz77 2 2, [])) ∧
    ((decState .hdrSize [0x6C, 4, 9] 0 0 0 []).decAt .hdrSize = true ∧
      decodeVarint (decState .hdrSize [0x6C, 4, 9] 0 0 0 []).dec.remaining = .ok (.varint2 0x2C 4, [9])) ∧
    (decState .hdrBlocks [0] 0 0 0 []).decAt .hdrBlocks = true := by decide
theorem witness_header_steps :
    (Instr.varint2 0x2C 4).headerValue = some 300 ∧ (decState .hdrBlocks [0x6C, 4] 0 0 0 []).decAt .hdrBlocks = true ∧
    decodeVarint (decState .hdrBlocks [0x6C, 4] 0 0 0 []).dec.remaining = .ok (.varint2 0x2C 4, []) := by decide
theorem witness_header_missing :
    (decState .hdrBlocks [0x40] 0 0 0 []).decAt .hdrBlocks = true ∧
    decodeVarint (decState .hdrBlocks [0x40] 0 0 0 []).dec.remaining = .error .inputEnd := by decide
theorem witness_group_fetch :
    ((fetchState 256 [5]).decAt .grpFetch = true ∧ (fetchState 256 [5]).dec.gcnt = 256) ∧
    ((fetchState 255 [5]).decAt .grpFetch = true ∧ (fetchState 255 [5]).dec.gcnt ≠ 256 ∧
      (fetchState 255 [5]).dec.inp[(fetchState 255 [5]).dec.ipos]? = some 5) ∧
    ((fetchState 255 []).decAt .grpFetch = true ∧
      (fetchState 255 []).dec.inp.length ≤ (fetchState 255 []).dec.ipos) := by decide
theorem witness_block_prefix :
    ((decState .blkPrefix [7, 8] 0 0 0 []).decAt .blkPrefix = true ∧
      (decState .blkPrefix [7, 8] 0 0 0 []).dec.inp[0]? = some 7 ∧ (decState .blkPrefix [7, 8] 0 0 0 []).dec.inp[0 + 1]? = some 8) ∧
    (decState .blkPrefix [] 0 0 0 []).dec.inp.length ≤ (decState .blkPrefix [] 0 0 0 []).dec.ipos ∧
    (decState .blkPrefix [7] 0 0 0 []).dec.inp.length = (decState .blkPrefix [7] 0 0 0 []).dec.ipos + 1 := by decide
theorem witness_block_check :
    ((checkState true 5 1).decAt .blkCheck = true ∧ (checkState true 5 1).dec.strict = true ∧
      (checkState true 5 1).dec.ipos - (checkState true 5 1).dec.bstart ≠ (checkState true 5 1).dec.bsize.toNat) ∧
    ((checkState true 4 2).params.resync = .stay ∧
      (checkState true 4 2).dec.ipos - (checkState true 4 2).dec.bstart = (checkState true 4 2).dec.bsize.toNat ∧
      (checkState true 4 2).dec.blk + 1 < (checkState true 4 2).dec.nblocks) ∧
    ((checkState false 5 1).decAt .blkCheck = true ∧ (checkState false 5 1).dec.strict = false ∧
      ¬ (checkState false 5 1).dec.blk + 1 < (checkState false 5 1).dec.nblocks) := by decide
theorem witness_stream_check :
    ((streamState true 2).decAt .streamCheck = true ∧ (streamState true 2).dec.strict = true ∧
      (streamState true 2).dec.dst.length ≠ (streamState true 2).dec.usize.toNat) ∧
    ((streamState true 1).decAt .streamCheck = true ∧
      (streamState true 1).dec.dst.length = (streamState true 1).dec.usize.toNat) ∧
    (streamState false 2).dec.strict = false := by decide

theorem witness_engines_change :
    ∃ t, State.reset.mover ≠ some .dec ∧ State.reset.dec.busy = false ∧ State.reset.mover ≠ some .enc ∧
      State.reset.enc.busy = false ∧ step State.reset = .next t := ⟨_, by decide, rfl, by decide, rfl, rfl⟩
theorem witness_start :
    (hostState ⟨1, true, [5]⟩).mover = some .host ∧ (hostState ⟨1, true, [5]⟩).pending = [⟨1, true, [5]⟩] ∧
    (hostState ⟨2, true, [5]⟩).mover = some .host ∧ (hostState ⟨3, false, []⟩).mover = some .host ∧
    (3 : BitVec 2) ≠ 1 ∧ (3 : BitVec 2) ≠ 2 := by decide

theorem witness_best_match :
    (1 < 2) ∧ 2 ≤ 2 ∧ 2 ≤ min 6 4095 ∧
    matchLen [0x41, 0x42, 0x78, 0x41, 0x42, 0x79, 0x41, 0x42] 6 3 8 =
      (bestLz .smallest [0x41, 0x42, 0x78, 0x41, 0x42, 0x79, 0x41, 0x42] 6 6 8).1 ∧
    0 < (bestLz .smallest [0x41, 0x42, 0x78, 0x41, 0x42, 0x79, 0x41, 0x42] 6 6 8).1 := by decide
theorem witness_run : 0 < runLen [5, 5, 6] 0 3 := by decide
theorem witness_selector :
    max 1 1 ≤ 1 ∧ (1 < max 2 1 ∧ 1 < 2) ∧ (1 < max 2 2 ∧ 2 ≤ 2) := by decide
theorem witness_selected :
    (encState .slot [5, 5, 6] 0 [1, 0, 0, 0, 0] 0).enc.src[(encState .slot [5, 5, 6] 0 [1, 0, 0, 0, 0] 0).enc.p]? = some 5 ∧
    (encState .slot [5, 5, 6] 0 [1, 0, 0, 0, 0] 0).enc.p <
      (encState .slot [5, 5, 6] 0 [1, 0, 0, 0, 0] 0).enc.limit Params.spec := by decide
theorem witness_check :
    ((encState .check [] 0 [] 0).encAt .check = true ∧ (encState .check [] 0 [] 0).enc.n = 0) ∧
    ((encState .check [5] 0 [] 0).encAt .check = true ∧ 1 ≤ (encState .check [5] 0 [] 0).enc.n ∧
      (encState .check [5] 0 [] 0).enc.n ≤ 2 ^ 24 - 1) := by decide
theorem witness_check_large :
    State.encAt { State.reset with enc := { Enc.reset with phase := .check, n := 2 ^ 24 } } .check = true ∧
    2 ^ 24 - 1 < 2 ^ 24 := by decide
theorem witness_header :
    (encState .header [5] 0 [] 0).encAt .header = true ∧ 1 ≤ (encState .header [5] 0 [] 0).enc.n ∧
    (encState .header [5] 0 [] 0).enc.n ≤ 2 ^ 24 - 1 := by decide
theorem witness_block_opens : (encState .blkOpen [5] 0 [1, 0] 0).encAt .blkOpen = true := by decide
theorem witness_group_opens :
    ((encState .grpOpen [5] 1 [1, 0, 0, 0, 1, 5] 1).encAt .grpOpen = true ∧
      (encState .grpOpen [5] 1 [1, 0, 0, 0, 1, 5] 1).params.lookahead = .blockEnd ∧
      (encState .grpOpen [5] 1 [1, 0, 0, 0, 1, 5] 1).enc.p = (encState .grpOpen [5] 1 [1, 0, 0, 0, 1, 5] 1).enc.be) ∧
    ((encState .grpOpen [5] 0 [1, 0, 0, 0] 0).encAt .grpOpen = true ∧
      (encState .grpOpen [5] 0 [1, 0, 0, 0] 0).enc.p ≠ (encState .grpOpen [5] 0 [1, 0, 0, 0] 0).enc.be) := by decide
theorem witness_slot_closes :
    ((encState .slot [5] 1 [1, 0, 0, 0, 0, 5] 1).encAt .slot = true ∧
      (encState .slot [5] 1 [1, 0, 0, 0, 0, 5] 1).enc.p = (encState .slot [5] 1 [1, 0, 0, 0, 0, 5] 1).enc.be) ∧
    ((encState .slot [1, 2, 3, 4, 5] 4 [5, 0, 0, 0, 0, 1, 2, 3, 4] 4).encAt .slot = true ∧
      (encState .slot [1, 2, 3, 4, 5] 4 [5, 0, 0, 0, 0, 1, 2, 3, 4] 4).enc.slot = 4) := by decide
theorem witness_slot_emits :
    (encState .slot [5, 5] 0 [2, 0, 0, 0, 0] 0).encAt .slot = true ∧
    (encState .slot [5, 5] 0 [2, 0, 0, 0, 0] 0).params.lookahead = .blockEnd ∧
    (encState .slot [5, 5] 0 [2, 0, 0, 0, 0] 0).enc.slot ≠ 4 ∧
    (encState .slot [5, 5] 0 [2, 0, 0, 0, 0] 0).enc.p ≠ (encState .slot [5, 5] 0 [2, 0, 0, 0, 0] 0).enc.be ∧
    (encState .slot [5, 5] 0 [2, 0, 0, 0, 0] 0).enc.be ≤ (encState .slot [5, 5] 0 [2, 0, 0, 0, 0] 0).enc.src.length ∧
    (encState .slot [5, 5] 0 [2, 0, 0, 0, 0] 0).enc.src[0]? = some 5 ∧
    select (bestLz .smallest [5, 5] 0 0 2).1 (bestLz .smallest [5, 5] 0 0 2).2 (runLen [5, 5] 0 2) 5 = .rle 2 5 ∧
    (Instr.rle 2 5).kind = some .rle := by decide
theorem witness_group_patched :
    (encState .grpClose [5] 1 [1, 0, 0, 0, 0, 5] 1).encAt .grpClose = true ∧
    (encState .grpClose [5] 1 [1, 0, 0, 0, 0, 5] 1).enc.gpos <
      (encState .grpClose [5] 1 [1, 0, 0, 0, 0, 5] 1).enc.out.length := by decide
theorem witness_block_closes :
    (closeSized 1 5).encAt .blkClose = true ∧ (closeSized 1 5).enc.slot ≠ 4 ∧
    (closeSized 1 5).enc.ppos + 2 ≤ (closeSized 1 5).enc.out.length ∧
    (closeSized 1 5).enc.out.length - ((closeSized 1 5).enc.ppos + 2) ≤ 0xFFFF ∧
    (closeSized 1 5).enc.nblocks ≤ (closeSized 1 5).enc.blk + 1 ∧
    (closeSized 2 5).encAt .blkClose = true ∧ (closeSized 2 5).enc.blk + 1 < (closeSized 2 5).enc.nblocks := by decide
theorem witness_block_too_large :
    (closeSized 1 0x10000).encAt .blkClose = true ∧
    0xFFFF < (closeSized 1 0x10000).enc.out.length - ((closeSized 1 0x10000).enc.ppos + 2) :=
  ⟨rfl, by simp only [closeSized, List.length_replicate]; decide⟩
theorem witness_encoder_patches :
    ∃ t, closeState.mover = some .enc ∧ step closeState = .next t ∧ 1 < closeState.enc.out.length ∧
      ¬ (closeState.enc.phase = .grpClose ∧ 1 = closeState.enc.gpos) ∧
      ¬ (closeState.enc.phase = .blkClose ∧ (1 = closeState.enc.ppos ∨ 1 = closeState.enc.ppos + 1)) :=
  ⟨_, rfl, rfl, by decide, by decide, by decide⟩

theorem witness_engines_share_nothing :
    (∃ t, (cmdState 0 [0xE4] []).mover = some .dec ∧ step (cmdState 0 [0xE4] []) = .next t) ∧
    ∃ t, closeState.mover = some .enc ∧ step closeState = .next t := ⟨⟨_, rfl, rfl⟩, ⟨_, rfl, rfl⟩⟩
/-- Two states with the same DEC whose ENC differs. -/
theorem witness_engines_share_nothing_pair :
    ∃ s' t t', (cmdState 0 [0xE4] []).mover = some .dec ∧ s'.mover = some .dec ∧ (cmdState 0 [0xE4] []).enc ≠ s'.enc ∧
      (cmdState 0 [0xE4] []).dec = s'.dec ∧ (cmdState 0 [0xE4] []).params = s'.params ∧
      step (cmdState 0 [0xE4] []) = .next t ∧ step s' = .next t' :=
  ⟨{ cmdState 0 [0xE4] [] with enc := { Enc.reset with n := 1 } }, _, _, rfl, rfl, by decide, rfl, rfl, rfl, rfl⟩
/-- Two states with the same ENC whose DEC differs. -/
theorem witness_engines_share_nothing_pair_enc :
    ∃ s' t t', closeState.mover = some .enc ∧ s'.mover = some .enc ∧ closeState.dec ≠ s'.dec ∧
      closeState.enc = s'.enc ∧ closeState.params = s'.params ∧ step closeState = .next t ∧ step s' = .next t' :=
  ⟨{ closeState with dec := { Dec.reset with ipos := 1 } }, _, _, rfl, rfl, by decide, rfl, rfl, rfl, rfl⟩
theorem witness_inputs_stay :
    ∃ t, step (cmdState 0 [0xE4] []) = .next t ∧ (cmdState 0 [0xE4] []).mover ≠ some .host := ⟨_, rfl, by decide⟩
theorem witness_destination_grows :
    ∃ t, (cmdState 1 [0xE4, 5] []).mover = some .dec ∧ step (cmdState 1 [0xE4, 5] []) = .next t ∧
      (cmdState 1 [0xE4, 5] []).params.resync = .stay ∧
      (cmdState 1 [0xE4, 5] []).dec.ipos ≤ (cmdState 1 [0xE4, 5] []).dec.inp.length := ⟨_, rfl, rfl, rfl, by decide⟩
theorem witness_size_faults :
    (∃ t, step (checkState true 5 1) = .next t ∧ (checkState true 5 1).dec.phase ≠ .fault ∧ t.dec.phase = .fault ∧
      t.dec.fault.code = 2) ∧
    ∃ t, step (streamState true 2) = .next t ∧ (streamState true 2).dec.phase ≠ .fault ∧ t.dec.phase = .fault ∧
      t.dec.fault.code = 3 := ⟨⟨_, rfl, by decide, rfl, rfl⟩, ⟨_, rfl, by decide, rfl, rfl⟩⟩

/-- A state in the middle of a compress that meets the invariant, and takes a step. -/
theorem witness_inv : closeState.Inv where
  dec := {
    clear := by decide, code := by decide, usize := by decide, nblocks := by decide, blk := by decide
    blkEnd := by decide, gcnt := by decide, fetched := by decide, slot := by decide, consumed := by decide
    ipos := by decide, cap := fun _ h => by cases h
    result := by decide, size := by decide }
  enc := {
    clear := by decide, code := by decide, length := by decide, checked := by decide, nblocks := by decide
    blk := by decide, blkEnd := by decide, bounds := by decide, slot := by decide, reservedPrefix := by decide
    reservedGroup := by decide, unused := by decide, result := by decide
    framed := fun _ => {
      opened := by decide, within := by decide, closed := by decide, ended := by decide, nonempty := by decide
      full := by decide, groupSize := by decide, openSize := by decide, closeSize := by decide } }
/-- The block check, at the largest block: 256 groups of nine bytes. -/
theorem witness_inv_block_check :
    State.Inv { closeState with dec := { Dec.reset with
      phase := .blkCheck, inp := List.replicate 2306 0, ipos := 2306, bstart := 2, gcnt := 256, nblocks := 1 } } where
  dec := {
    clear := by decide, code := by decide, usize := by decide, nblocks := by decide, blk := by decide
    blkEnd := by decide, gcnt := by decide, fetched := by decide, slot := by decide, consumed := by decide
    ipos := fun _ => by simp only [List.length_replicate]; decide
    cap := fun _ h => by cases h
    result := by decide, size := by decide }
  enc := witness_inv.enc
/-- BLK_OPEN of the second and last block of 513 bytes. -/
theorem witness_inv_block_open :
    State.Inv { State.reset with enc := { Enc.reset with
      phase := .blkOpen, src := List.replicate 513 0, n := 513, p := 512, nblocks := 2, blk := 1, slot := 1 } } where
  dec := witness_inv.dec
  enc := {
    clear := by decide, code := by decide, length := by simp only [List.length_replicate], checked := by decide
    nblocks := by decide, blk := by decide, blkEnd := by decide, bounds := by decide, slot := by decide
    reservedPrefix := by decide, reservedGroup := by decide, unused := by decide, result := by decide
    framed := fun _ => {
      opened := by decide, within := by decide, closed := by decide, ended := by decide, nonempty := by decide
      full := by decide, groupSize := by decide, openSize := by decide, closeSize := by decide } }
/-- GRP_CLOSE with one slot filled. -/
theorem witness_inv_group_close :
    State.Inv (encState .grpClose [5] 1 [1, 0, 0, 0, 0, 5] 1) where
  dec := witness_inv.dec
  enc := {
    clear := by decide, code := by decide, length := by decide, checked := by decide, nblocks := by decide
    blk := by decide, blkEnd := by decide, bounds := by decide, slot := by decide, reservedPrefix := by decide
    reservedGroup := by decide, unused := by decide, result := by decide
    framed := fun _ => {
      opened := by decide, within := by decide, closed := by decide, ended := by decide, nonempty := by decide
      full := by decide, groupSize := by decide, openSize := by decide, closeSize := by decide } }
theorem witness_inv_step :
    ∃ t, closeState.params.lookahead = .blockEnd ∧ closeState.encAt .blkClose = true ∧ step closeState = .next t :=
  ⟨_, rfl, by decide, rfl⟩
theorem witness_alone :
    (decState .cmd [] 0 0 0 []).encAlone = false ∧ State.reset.decAlone = true ∧ State.reset.encAlone = true ∧
    State.reset.params.resync = .stay ∧ State.reset.params.lookahead = .blockEnd ∧
    State.reset.params.codeMap.wf = true ∧ 1 ≤ ([5] : Bytes).length ∧ ([5] : Bytes).length ≤ 2 ^ 24 - 1 := by decide
theorem witness_round_trip_capped :
    (capped 1 State.reset).params.dstCap = some 1 ∧ ∀ c, (capped 1 State.reset).params.dstCap = some c → ([5] : Bytes).length ≤ c :=
  ⟨rfl, fun c h => by cases h; decide⟩
theorem witness_window :
    (List.replicate 4096 (0 : Byte)).length = windowSize ∧ 1 ≤ 1 ∧ 1 ≤ 4095 ∧ 1 ≤ ([5] : Bytes).length :=
  ⟨by rw [List.length_replicate]; decide, by decide, by decide, by decide⟩
/-- The stream of one empty block decodes strictly in seven steps. -/
theorem witness_strict_done :
    ∃ t, State.reset.decAlone = true ∧ runSteps 7 (State.reset.startDec true [0, 0, 1, 0, 0]) = .next t ∧
      t.dec.phase = .done := ⟨_, rfl, rfl, rfl⟩

end Sys2Proof.Tests
end

section
/-! PROOFS. The two engines share nothing (00_scope.md R3, 10_state.md R20, 20_memory.md R75): a step of an engine is a
rule of that engine and the parameters alone, and a rule leaves at most one state behind. -/

namespace Sys2Proof.Machine

open Sys2Proof

/-- A rule that goes on or raises leaves one state behind. -/
theorem Act.left_unique {σ : Type} {m : Act σ Unit} {a b : σ}
    (ha : m = .go () a ∨ m = .raised a) (hb : m = .go () b ∨ m = .raised b) : a = b := by
  obtain rfl | rfl := ha
  · simpa using hb
  · simpa using hb

/-- A step of DEC is one of `decRule`, and replaces DEC only. -/
theorem step_next_of_mover_dec {s t : State} (hm : s.mover = some .dec) (h : step s = .next t) :
    ∃ d, (decRule s.params s.dec = .go () d ∨ decRule s.params s.dec = .raised d) ∧ t = s.reschedule.withDec d := by
  rw [step_dec hm, decStep_eq] at h
  simpa using onDec_next.1 h

/-- A step of ENC is one of `encRule`, and replaces ENC only. -/
theorem step_next_of_mover_enc {s t : State} (hm : s.mover = some .enc) (h : step s = .next t) :
    ∃ c, (encRule s.params s.enc = .go () c ∨ encRule s.params s.enc = .raised c) ∧ t = s.reschedule.withEnc c := by
  rw [step_enc hm, encStep] at h
  simpa using onEnc_next.1 h

/-- A step of DEC leaves ENC as it is. -/
theorem step_enc_eq_of_mover_dec {s t : State} (hm : s.mover = some .dec) (h : step s = .next t) : t.enc = s.enc := by
  obtain ⟨d, -, rfl⟩ := step_next_of_mover_dec hm h
  simp

/-- A step of ENC leaves DEC as it is. -/
theorem step_dec_eq_of_mover_enc {s t : State} (hm : s.mover = some .enc) (h : step s = .next t) : t.dec = s.dec := by
  obtain ⟨c, -, rfl⟩ := step_next_of_mover_enc hm h
  simp

/-- What a step of DEC makes of DEC depends on DEC and the parameters alone. -/
theorem step_dec_congr {s s' t t' : State} (hm : s.mover = some .dec) (hm' : s'.mover = some .dec)
    (hdec : s.dec = s'.dec) (hparams : s.params = s'.params) (h : step s = .next t) (h' : step s' = .next t') :
    t.dec = t'.dec := by
  obtain ⟨d, hd, rfl⟩ := step_next_of_mover_dec hm h
  obtain ⟨d', hd', rfl⟩ := step_next_of_mover_dec hm' h'
  rw [hdec, hparams] at hd
  exact Act.left_unique hd hd'

/-- What a step of ENC makes of ENC depends on ENC and the parameters alone. -/
theorem step_enc_congr {s s' t t' : State} (hm : s.mover = some .enc) (hm' : s'.mover = some .enc)
    (henc : s.enc = s'.enc) (hparams : s.params = s'.params) (h : step s = .next t) (h' : step s' = .next t') :
    t.enc = t'.enc := by
  obtain ⟨c, hc, rfl⟩ := step_next_of_mover_enc hm h
  obtain ⟨c', hc', rfl⟩ := step_next_of_mover_enc hm' h'
  rw [henc, hparams] at hc
  exact Act.left_unique hc hc'

/-- Settles O46: the frame and the two-run comparison of each engine, from the rule its step applies. -/
theorem enginesShareNothing : Obligations.EnginesShareNothing :=
  ⟨fun _ _ => step_enc_eq_of_mover_dec, fun _ _ => step_dec_eq_of_mover_enc,
    fun _ _ _ _ => step_dec_congr, fun _ _ _ _ => step_enc_congr⟩

end Sys2Proof.Machine
end

section
/-! PROOFS. What a step of DEC can leave behind, said once for every statement about DEC: a rule that does not stop the
model, and every outcome of the decoder's rule, phase by phase (10_state.md R21 to R33, 43_block_framer.md R200 to
R205, 41_command_decoder.md R140 to R147). -/

namespace Sys2Proof.Machine

open Sys2Proof

/-! ### Rules that do not stop the model -/

/-- The rule does not stop the model; `Q` holds of what it leaves where it goes on, `R` where it has raised. -/
def Act.Yields {σ α : Type} (Q : α → σ → Prop) (R : σ → Prop) : Act σ α → Prop
  | .go a s => Q a s
  | .raised s => R s
  | .stop _ => False

section
variable {σ α β : Type} {Q : α → σ → Prop} {R : σ → Prop}

@[simp] theorem Act.yields_go (a : α) (s : σ) : (Act.go a s).Yields Q R ↔ Q a s := Iff.rfl
@[simp] theorem Act.yields_raised (s : σ) : (Act.raised s).Yields Q R ↔ R s := Iff.rfl

theorem Act.Yields.bind {m : Act σ α} {f : α → σ → Act σ β} {Q' : β → σ → Prop} (h : m.Yields Q R)
    (hf : ∀ a s, Q a s → (f a s).Yields Q' R) : (m.bind f).Yields Q' R := by
  cases m with
  | go a s => exact hf a s h
  | raised s => exact h
  | stop r => exact h.elim

theorem Act.Yields.mono {m : Act σ α} {Q' : α → σ → Prop} {R' : σ → Prop} (h : m.Yields Q R)
    (hQ : ∀ a s, Q a s → Q' a s) (hR : ∀ s, R s → R' s) : m.Yields Q' R' := by
  cases m with
  | go a s => exact hQ a s h
  | raised s => exact hR s h
  | stop r => exact h

/-- Whatever a rule leaves behind meets what holds on both of its ways. -/
theorem Act.Yields.of_left {m : Act σ Unit} {P : σ → Prop} {s : σ} (h : m.Yields (fun _ => P) P)
    (hm : m = .go () s ∨ m = .raised s) : P s := by
  obtain rfl | rfl := hm
  · exact h
  · exact h

end

/-- A rule of DEC that does not stop the model answers a next state. -/
theorem Act.Yields.onDec_next {f : Params → Dec → Act Dec Unit} {s : State} {Q : Unit → Dec → Prop}
    {R : Dec → Prop} (h : (f s.params s.dec).Yields Q R) : ∃ t, onDec f s = .next t := by
  cases hf : f s.params s.dec with
  | go _ d => exact ⟨_, onDec_go hf⟩
  | raised d => exact ⟨_, onDec_raised hf⟩
  | stop r => rw [hf] at h; exact h.elim

/-- A rule of ENC that does not stop the model answers a next state. -/
theorem Act.Yields.onEnc_next {f : Params → Enc → Act Enc Unit} {s : State} {Q : Unit → Enc → Prop}
    {R : Enc → Prop} (h : (f s.params s.enc).Yields Q R) : ∃ t, onEnc f s = .next t := by
  cases hf : f s.params s.enc with
  | go _ c => exact ⟨_, onEnc_go hf⟩
  | raised c => exact ⟨_, onEnc_raised hf⟩
  | stop r => rw [hf] at h; exact h.elim

/-! ### What the decoder's places decode to -/

/-- R121: an or of chunks up to the one at shift 18 stays below 2^26. -/
theorem orExtra_lt (es : Bytes) (k : Nat) (v : BitVec 32) (hk : k + es.length ≤ 4) (hv : v.toNat < 2 ^ 26) :
    (orExtra k es v).toNat < 2 ^ 26 := by
  induction es generalizing k v with
  | nil => exact hv
  | cons e es ih =>
    rw [List.length_cons] at hk
    refine ih (k + 1) _ (by omega) ?_
    rw [BitVec.toNat_or]
    refine Nat.or_lt_two_pow hv ?_
    have hpow : 2 ^ (6 * k) ≤ 2 ^ 18 := Nat.pow_le_pow_right (by omega) (by omega)
    have he : e.toNat * 2 ^ (6 * k) ≤ 255 * 2 ^ 18 := Nat.mul_le_mul (by have := e.isLt; omega) hpow
    have : e.toNat % 2 ^ 32 = e.toNat := Nat.mod_eq_of_lt (by have := e.isLt; omega)
    simp only [BitVec.toNat_shiftLeft, BitVec.toNat_setWidth, Config.format_varintChunk, Nat.shiftLeft_eq, this]
    exact lt_of_le_of_lt (Nat.mod_le _ _) (by omega)

theorem varintValue_lt (low6 : BitVec 6) (es : Bytes) (h : es.length ≤ 3) : (varintValue low6 es).toNat < 2 ^ 26 := by
  refine orExtra_lt es 1 _ (by omega) ?_
  have := low6.isLt
  simp only [BitVec.toNat_setWidth]
  omega

/-- What a header field decodes to is a varint with a value in the range of R121. -/
theorem decodeVarint_ok {bs rest : Bytes} {i : Instr} (h : decodeVarint bs = .ok (i, rest)) :
    ∃ v : BitVec 32, i.headerValue = some v ∧ v.toNat < 2 ^ 26 := by
  unfold decodeVarint at h
  split at h
  · cases h
  · split at h
    · cases h; exact ⟨_, rfl, varintValue_lt _ _ (by simp)⟩
    · split at h
      · split at h <;> cases h
        exact ⟨_, rfl, varintValue_lt _ _ (by simp)⟩
      · split at h
        · split at h <;> cases h
          exact ⟨_, rfl, varintValue_lt _ _ (by simp)⟩
        · split at h <;> cases h
          exact ⟨_, rfl, varintValue_lt _ _ (by simp)⟩

/-- What a slot decodes to is a command, of at most two operand bytes. -/
theorem decodeSlot_ok {m : CodeMap} {g : Byte} {slot : Nat} {bs rest : Bytes} {i : Instr}
    (h : decodeSlot m g slot bs = .ok (i, rest)) : (∃ k, i.kind = some k) ∧ bs.length ≤ rest.length + 2 := by
  unfold decodeSlot at h
  split at h
  · unfold decodeOperands at h
    split at h <;> cases h <;> exact ⟨⟨_, rfl⟩, by simp⟩
  · cases h

/-! ### Reading and appending -/

/-- DEC with more bytes in the destination. -/
def Dec.produce (d : Dec) (bs : Bytes) : Dec := { d with dst := d.dst ++ bs }

/-- The bytes fit the destination, if what it holds does (20_memory.md R62). -/
def Dec.Fits (p : Params) (d : Dec) (bs : Bytes) : Prop :=
  ∀ c, p.dstCap = some c → d.dst.length ≤ c → d.dst.length + bs.length ≤ c

/-- What a raise leaves of DEC: some bytes of IN read, some bytes appended that fitted, then the fault, which is one a
decoder raises (60_exceptions.md R231). -/
def Dec.FaultsTo (p : Params) (d d' : Dec) : Prop :=
  ∃ n bs e, n ≤ d.remaining.length ∧ d.Fits p bs ∧ e.record.code ∈ [1, 2, 3, 5, 6] ∧
    d' = ((d.past n).produce bs).raise e

/-- What a command leaves of DEC where it raises nothing: the block has ended (END), or bytes that fitted are appended
and the slot advances. -/
def Dec.RunsTo (p : Params) (d d' : Dec) : Prop :=
  d' = { d with phase := .blkCheck } ∨ ∃ bs, d.Fits p bs ∧ d' = advance (d.produce bs)

theorem Dec.fits_nil (p : Params) (d : Dec) : d.Fits p [] := fun _ _ h => h

/-- Bytes fit when no append of them finds the destination full. -/
theorem Dec.fits_of_never_full {p : Params} {d : Dec} {bs : Bytes}
    (h : ∀ k < bs.length, p.dstCap ≠ some (d.dst.length + k)) : d.Fits p bs := by
  intro c hc hle
  by_contra hgt
  exact h (c - d.dst.length) (by omega) (by rw [hc]; congr 1; omega)

/-- Bytes that fill the destination fit. -/
theorem Dec.fits_of_full {p : Params} {d : Dec} {bs : Bytes} (h : p.dstCap = some (d.dst.length + bs.length)) :
    d.Fits p bs := by
  intro c hc _
  rw [h] at hc
  cases hc
  exact le_refl _

/-- A raise that has neither read nor appended. -/
theorem Dec.faultsTo_raise (p : Params) (d : Dec) {e : Exn} (he : e.record.code ∈ [1, 2, 3, 5, 6]) :
    d.FaultsTo p (d.raise e) :=
  ⟨0, [], e, Nat.zero_le _, d.fits_nil p, he, by simp [Dec.produce, Dec.past]⟩

/-- A raise after appending. -/
theorem Dec.faultsTo_produce {p : Params} {d : Dec} {bs : Bytes} {e : Exn} (hb : d.Fits p bs)
    (he : e.record.code ∈ [1, 2, 3, 5, 6]) : d.FaultsTo p ((d.produce bs).raise e) :=
  ⟨0, bs, e, Nat.zero_le _, hb, he, rfl⟩

/-- A raise after reading. -/
theorem Dec.FaultsTo.of_past {p : Params} {d d' : Dec} {m : Nat} (hm : m ≤ d.remaining.length)
    (h : (d.past m).FaultsTo p d') : d.FaultsTo p d' := by
  obtain ⟨n, bs, e, hn, hb, he, rfl⟩ := h
  rw [remaining_past, List.length_drop] at hn
  exact ⟨m + n, bs, e, by omega, hb, he, by simp [Dec.past, Nat.add_assoc]⟩

/-- `InByte()` reads one byte, or raises. -/
theorem inByte_yields (p : Params) (d : Dec) :
    (inByte d).Yields (fun _ d' => 1 ≤ d.remaining.length ∧ d' = d.past 1) (d.FaultsTo p) := by
  obtain ⟨b, hb, h⟩ | ⟨-, h⟩ := inByte_cases d
  · rw [h]
    exact ⟨by simp [remaining_of_get hb], rfl⟩
  · rw [h]
    exact d.faultsTo_raise p (by simp [Exn.record])

/-- A fetch reads an instruction, of which it passes what it decoded, or raises. -/
theorem fetch_yields (pl : Place) (p : Params) (d : Dec) :
    (fetch pl p d).Yields (fun i d' => ∃ rest, d.decodeHere p pl = .ok (i, rest) ∧
      d' = d.past (d.remaining.length - rest.length)) (d.FaultsTo p) := by
  obtain ⟨i, rest, hd, h⟩ | ⟨-, h⟩ | ⟨code, -, h⟩ := fetch_cases pl p d
  · rw [h]
    exact ⟨rest, hd, rfl⟩
  · rw [h]
    exact .of_past (le_refl _) (Dec.faultsTo_raise p _ (by simp [Exn.record]))
  · rw [h]
    exact d.faultsTo_raise p (by simp [Exn.record])

/-- A command runs or raises; it never stops the model. -/
theorem meaning_yields_of_command {i : Instr} {k : CmdKind} (hk : i.kind = some k) (p : Params) (d : Dec) :
    (meaning i p d).Yields (fun _ => d.RunsTo p) (d.FaultsTo p) := by
  cases i with
  | endBlock => exact .inl rfl
  | copy v =>
    by_cases h : p.dstCap = some d.dst.length
    · simp only [meaning, dstAppend_full v h]
      exact d.faultsTo_raise p (by simp [Exn.record])
    · simp only [meaning, dstAppend_go v h]
      exact .inr ⟨[v], Dec.fits_of_never_full (by simpa using h), rfl⟩
  | lz77 dist n =>
    obtain ⟨-, h⟩ | ⟨-, -, h⟩ | ⟨-, -, bs, ⟨hl, hn, h⟩ | ⟨-, hc, h⟩⟩ := lz77_cases dist n p d
    · simp only [meaning, h]
      exact d.faultsTo_raise p (by simp [Exn.record])
    · simp only [meaning, h]
      exact d.faultsTo_raise p (by simp [Exn.record])
    · simp only [meaning, h]
      exact .inr ⟨bs, Dec.fits_of_never_full (hl ▸ hn), rfl⟩
    · simp only [meaning, h]
      exact Dec.faultsTo_produce (Dec.fits_of_full hc) (by simp [Exn.record])
  | rle n v =>
    obtain ⟨hn, h⟩ | ⟨k, -, hc, h⟩ := dstFill_cases p v n d
    · simp only [meaning, h]
      exact .inr ⟨_, Dec.fits_of_never_full (by simpa using hn), rfl⟩
    · simp only [meaning, h]
      exact Dec.faultsTo_produce (Dec.fits_of_full (by simpa using hc)) (by simp [Exn.record])
  | varint1 | varint2 | varint3 | varint4 => cases hk

/-! ### Every outcome of the decoder's rule -/

/-- What one step of DEC can make of it. -/
inductive Dec.MovesTo (p : Params) (d : Dec) : Dec → Prop where
  | rests (hb : d.busy = false) : d.MovesTo p d
  | takesSize {n : Nat} {v : BitVec 32} (hph : d.phase = .hdrSize) (hn : n ≤ d.remaining.length)
      (hv : v.toNat < 2 ^ 26) : d.MovesTo p { d.past n with usize := v, phase := .hdrBlocks }
  | takesBlocks {n : Nat} {v : BitVec 32} (hph : d.phase = .hdrBlocks) (hn : n ≤ d.remaining.length)
      (hv : v.toNat < 2 ^ 26) : d.MovesTo p { d.past n with nblocks := v + 1, blk := 0, phase := .blkPrefix }
  | opensBlock {v : BitVec 16} (hph : d.phase = .blkPrefix) (hn : 2 ≤ d.remaining.length) :
      d.MovesTo p { d.past 2 with bsize := v, bstart := d.ipos + 2, gcnt := 0, phase := .grpFetch }
  | meetsBound (hph : d.phase = .grpFetch) (hg : d.gcnt.toNat = 256) : d.MovesTo p { d with phase := .blkCheck }
  | opensGroup {g : Byte} (hph : d.phase = .grpFetch) (hg : d.gcnt.toNat ≠ 256) (hn : 1 ≤ d.remaining.length) :
      d.MovesTo p { d.past 1 with gbyte := g, gcnt := d.gcnt + 1, slot := 0, phase := .cmd }
  | endsBlock {n : Nat} (hph : d.phase = .cmd) (hn2 : n ≤ 2) (hn : n ≤ d.remaining.length) :
      d.MovesTo p { d.past n with phase := .blkCheck }
  | appends {n : Nat} {bs : Bytes} (hph : d.phase = .cmd) (hn2 : n ≤ 2) (hn : n ≤ d.remaining.length)
      (hb : d.Fits p bs) : d.MovesTo p (advance ((d.past n).produce bs))
  | nextBlock (hph : d.phase = .blkCheck) (hb : d.blk + 1 < d.nblocks) :
      d.MovesTo p { d with blk := d.blk + 1, ipos := d.nextPrefix p, phase := .blkPrefix }
  | lastBlock (hph : d.phase = .blkCheck) (hb : ¬ d.blk + 1 < d.nblocks) :
      d.MovesTo p { d with blk := d.blk + 1, phase := .streamCheck }
  | finishes (hph : d.phase = .streamCheck) (hs : d.sizeMismatch = false) :
      d.MovesTo p { d with phase := .done, result := d.dst }
  | faults {d' : Dec} (h : d.FaultsTo p d') : d.MovesTo p d'

/-- A header field is fetched and its value taken. -/
theorem headerStep_yields {p : Params} {d : Dec} (hph : d.phase = .hdrSize ∨ d.phase = .hdrBlocks) :
    ((fetch .header p d).bind fun i d' => meaning i p d').Yields (fun _ => d.MovesTo p) (d.FaultsTo p) := by
  refine (fetch_yields .header p d).bind ?_
  rintro i _ ⟨rest, hdec, rfl⟩
  obtain ⟨v, hv, hlt⟩ := decodeVarint_ok hdec
  rw [meaning_of_headerValue hv]
  obtain ⟨h, hgo⟩ | ⟨h, hgo⟩ | ⟨h1, h2, -⟩ := takeHeader_cases v (d.past (d.remaining.length - rest.length))
  · rw [hgo]
    exact .takesSize h (Nat.sub_le _ _) hlt
  · rw [hgo]
    exact .takesBlocks h (Nat.sub_le _ _) hlt
  · exact (hph.elim h1 h2).elim

/-- The slot's command is fetched and run. -/
theorem slotStep_yields {p : Params} {d : Dec} (hph : d.phase = .cmd) :
    ((fetch .slot p d).bind fun i d' => meaning i p d').Yields (fun _ => d.MovesTo p) (d.FaultsTo p) := by
  refine (fetch_yields .slot p d).bind ?_
  rintro i _ ⟨rest, hdec, rfl⟩
  obtain ⟨⟨k, hk⟩, hn2⟩ := decodeSlot_ok hdec
  refine (meaning_yields_of_command hk p _).mono ?_ fun _ => .of_past (Nat.sub_le _ _)
  rintro - _ (rfl | ⟨bs, hb, rfl⟩)
  · exact .endsBlock hph (Nat.sub_le_iff_le_add'.2 hn2) (Nat.sub_le _ _)
  · exact .appends hph (Nat.sub_le_iff_le_add'.2 hn2) (Nat.sub_le _ _) hb

theorem blkPrefix_yields {p : Params} {d : Dec} (hph : d.phase = .blkPrefix) :
    (blkPrefix p d).Yields (fun _ => d.MovesTo p) (d.FaultsTo p) := by
  refine (inByte_yields p d).bind ?_
  rintro b0 _ ⟨hn, rfl⟩
  refine ((inByte_yields p _).mono (fun _ _ h => h) fun _ => .of_past hn).bind ?_
  rintro b1 _ ⟨hn', rfl⟩
  rw [remaining_past, List.length_drop] at hn'
  exact .opensBlock hph (by omega)

theorem grpFetch_yields {p : Params} {d : Dec} (hph : d.phase = .grpFetch) :
    (grpFetch p d).Yields (fun _ => d.MovesTo p) (d.FaultsTo p) := by
  unfold grpFetch
  split
  · exact .meetsBound hph ‹_›
  · refine (inByte_yields p d).bind ?_
    rintro g _ ⟨hn, rfl⟩
    exact .opensGroup hph ‹_› hn

theorem blkCheck_yields {p : Params} {d : Dec} (hph : d.phase = .blkCheck) :
    (blkCheck p d).Yields (fun _ => d.MovesTo p) (d.FaultsTo p) := by
  unfold blkCheck
  split
  · exact d.faultsTo_raise p (by simp [Exn.record])
  · split
    · exact .nextBlock hph ‹_›
    · exact .lastBlock hph ‹_›

theorem streamCheck_yields {p : Params} {d : Dec} (hph : d.phase = .streamCheck) :
    (streamCheck p d).Yields (fun _ => d.MovesTo p) (d.FaultsTo p) := by
  unfold streamCheck
  cases hs : d.sizeMismatch with
  | true => exact d.faultsTo_raise p (by simp [Exn.record])
  | false => exact .finishes hph hs

/-- From any state a step of DEC makes one of these moves; it never stops the model. -/
theorem decRule_yields (p : Params) (d : Dec) : (decRule p d).Yields (fun _ => d.MovesTo p) (d.MovesTo p) := by
  unfold decRule
  split
  case h_1 hph => exact .rests (by simp [Dec.busy, hph])
  case h_2 hph => exact (headerStep_yields (.inl hph)).mono (fun _ _ h => h) fun _ => .faults
  case h_3 hph => exact (headerStep_yields (.inr hph)).mono (fun _ _ h => h) fun _ => .faults
  case h_4 hph => exact (blkPrefix_yields hph).mono (fun _ _ h => h) fun _ => .faults
  case h_5 hph => exact (grpFetch_yields hph).mono (fun _ _ h => h) fun _ => .faults
  case h_6 hph => exact (slotStep_yields hph).mono (fun _ _ h => h) fun _ => .faults
  case h_7 hph => exact (blkCheck_yields hph).mono (fun _ _ h => h) fun _ => .faults
  case h_8 hph => exact (streamCheck_yields hph).mono (fun _ _ h => h) fun _ => .faults
  case h_9 hph => exact .rests (by simp [Dec.busy, hph])
  case h_10 hph => exact .rests (by simp [Dec.busy, hph])

end Sys2Proof.Machine
end

section
/-! PROOFS. The invariant of DEC (Safety.lean) is kept by every move of the decoder's rule and by a START. -/

namespace Sys2Proof.Machine

open Sys2Proof

/-- The clauses of `Dec.Inv` that speak of no phase: the ranges of the registers. -/
structure Dec.Ranges (p : Params) (d : Dec) : Prop where
  usize : d.usize.toNat < 2 ^ 26
  nblocks : d.nblocks.toNat ≤ 2 ^ 26
  gcnt : d.gcnt.toNat ≤ 256
  slot : d.slot.toNat ≤ 3
  ipos : p.resync = .stay ∨ d.strict = true → d.ipos ≤ d.inp.length
  cap : ∀ c, p.dstCap = some c → d.dst.length ≤ c

section
variable {p : Params} {d d' : Dec}

theorem Dec.Inv.ranges (h : d.Inv p) : d.Ranges p :=
  ⟨h.usize, h.nblocks, h.gcnt, h.slot, h.ipos, h.cap⟩

theorem Dec.Ranges.past (h : d.Ranges p) {n : Nat} (hn : n ≤ d.remaining.length) : (d.past n).Ranges p where
  __ := h
  ipos hs := by
    have := h.ipos hs
    simp only [Dec.remaining, List.length_drop] at hn
    simp only [Dec.past_ipos, Dec.past_inp]
    omega

theorem Dec.Ranges.produce (h : d.Ranges p) {bs : Bytes} (hb : d.Fits p bs) : (d.produce bs).Ranges p where
  __ := h
  cap c hc := by simpa [Dec.produce] using hb c hc (h.cap c hc)

/-- A DEC in FAULT meets the invariant when its registers are in range and the code is a decoder's. -/
theorem Dec.Ranges.inv_raise (h : d.Ranges p) {e : Exn} (he : e.record.code ∈ [1, 2, 3, 5, 6]) :
    (d.raise e).Inv p where
  __ := h
  clear hph := (hph rfl).elim
  code _ := he
  blk := nofun
  blkEnd := nofun
  fetched := nofun
  consumed := nofun
  result := nofun
  size := nofun

/-- A DEC between the size bytes of a block and its check meets the invariant when the block is one of the stream's and
the bytes consumed are within R151's bounds. -/
theorem Dec.Ranges.inv_of_inBlock (h : d.Ranges p) (hph : d.phase.inBlock = true) (hf : d.fault = FaultRecord.clear)
    (hblk : d.blk.toNat < d.nblocks.toNat) (hfetched : d.phase ≠ .grpFetch → 1 ≤ d.gcnt.toNat)
    (hread : d.bstart + d.gcnt.toNat ≤ d.ipos) (hbound : d.ipos ≤ d.bstart + d.consumedBound) : d.Inv p where
  __ := h
  clear _ := hf
  code hp := by simp [hp, DecPhase.inBlock] at hph
  blk _ := hblk
  blkEnd hp := by rcases hp with hp | hp <;> simp [hp, DecPhase.inBlock] at hph
  fetched hp := hfetched (by rcases hp with hp | hp <;> simp [hp])
  consumed _ := ⟨hread, hbound⟩
  result hp := by simp [hp, DecPhase.inBlock] at hph
  size hp := by simp [hp, DecPhase.inBlock] at hph

/-- Outside a block the invariant asks for a clear FAULT, that a block about to be read is one of the stream's, that
after the last block all have been read, and that DONE has the result. -/
theorem Dec.Ranges.inv_of_outside (h : d.Ranges p) (hout : d.phase.inBlock = false) (hne : d.phase ≠ .fault)
    (hf : d.fault = FaultRecord.clear) (hblk : d.phase = .blkPrefix → d.blk.toNat < d.nblocks.toNat)
    (hend : d.phase = .streamCheck ∨ d.phase = .done → d.blk = d.nblocks)
    (hdone : d.phase = .done → d.result = d.dst ∧ (d.strict = true → d.dst.length = d.usize.toNat)) : d.Inv p where
  __ := h
  clear _ := hf
  code hp := absurd hp hne
  blk hp := hblk (by simpa [DecPhase.inBlocks, hout] using hp)
  blkEnd := hend
  fetched hp := by rcases hp with hp | hp <;> simp [hp, DecPhase.inBlock] at hout
  consumed hp := by simp [hout] at hp
  result hp := (hdone hp).1
  size hp := (hdone hp).2

theorem Dec.Inv.fault_clear_of_phase (h : d.Inv p) {ph : DecPhase} (hph : d.phase = ph) (hne : ph ≠ .fault) :
    d.fault = FaultRecord.clear := h.clear (hph ▸ hne)

/-- R151: in CMD, a group byte and two bytes for each slot passed, after whole groups. -/
theorem Dec.consumedBound_of_cmd (h : d.phase = .cmd) :
    d.consumedBound = 9 * (d.gcnt.toNat - 1) + 1 + 2 * d.slot.toNat := if_pos h

/-- R151: between groups, nine bytes for each. -/
theorem Dec.consumedBound_of_ne_cmd (h : d.phase ≠ .cmd) : d.consumedBound = 9 * d.gcnt.toNat := if_neg h

/-- R25, R26: no block number wraps. -/
theorem Dec.Inv.toNat_succ_blk (h : d.Inv p) (hb : d.blk.toNat < d.nblocks.toNat) :
    (d.blk + 1).toNat = d.blk.toNat + 1 := by
  have hle := h.nblocks
  exact BitVec.toNat_add_of_lt (show d.blk.toNat + 1 < 2 ^ 32 by omega)

theorem Dec.FaultsTo.inv (hm : d.FaultsTo p d') (h : d.Ranges p) : d'.Inv p := by
  obtain ⟨n, bs, e, hn, hb, he, rfl⟩ := hm
  exact ((h.past hn).produce hb).inv_raise he

/-- R200: usize is in the range of R121. -/
theorem Dec.Inv.takesSize (h : d.Inv p) {n : Nat} {v : BitVec 32} (hph : d.phase = .hdrSize)
    (hn : n ≤ d.remaining.length) (hv : v.toNat < 2 ^ 26) :
    ({ d.past n with usize := v, phase := .hdrBlocks } : Dec).Inv p :=
  Dec.Ranges.inv_of_outside { h.ranges.past hn with usize := hv } rfl nofun (h.fault_clear_of_phase hph nofun)
    nofun (fun hp => hp.elim nofun nofun) nofun

/-- R201: the block count is 1 to 2^26, so block 0 is one of the stream's. -/
theorem Dec.Inv.takesBlocks (h : d.Inv p) {n : Nat} {v : BitVec 32} (hph : d.phase = .hdrBlocks)
    (hn : n ≤ d.remaining.length) (hv : v.toNat < 2 ^ 26) :
    ({ d.past n with nblocks := v + 1, blk := 0, phase := .blkPrefix } : Dec).Inv p := by
  have hsucc : (v + 1).toNat = v.toNat + 1 := BitVec.toNat_add_of_lt (show v.toNat + 1 < 2 ^ 32 by omega)
  exact Dec.Ranges.inv_of_outside
    { h.ranges.past hn with nblocks := show (v + 1).toNat ≤ 2 ^ 26 by omega } rfl nofun
    (h.fault_clear_of_phase hph nofun) (fun _ => show 0 < (v + 1).toNat by omega)
    (fun hp => hp.elim nofun nofun) nofun

/-- R202: the block opens at ipos, with no group fetched. -/
theorem Dec.Inv.opensBlock (h : d.Inv p) (v : BitVec 16) (hph : d.phase = .blkPrefix)
    (hn : 2 ≤ d.remaining.length) :
    ({ d.past 2 with bsize := v, bstart := d.ipos + 2, gcnt := 0, phase := .grpFetch } : Dec).Inv p :=
  Dec.Ranges.inv_of_inBlock { h.ranges.past hn with gcnt := Nat.zero_le _ } rfl
    (h.fault_clear_of_phase hph nofun) (h.blk (by rw [hph]; rfl)) nofun (le_refl _) (le_refl _)

/-- R148: at the bound all 256 groups have been read. -/
theorem Dec.Inv.meetsBound (h : d.Inv p) (hph : d.phase = .grpFetch) (hg : d.gcnt.toNat = 256) :
    ({ d with phase := .blkCheck } : Dec).Inv p := by
  obtain ⟨hread, hbound⟩ := h.consumed (by rw [hph]; rfl)
  rw [Dec.consumedBound_of_ne_cmd (by simp [hph])] at hbound
  exact Dec.Ranges.inv_of_inBlock { h.ranges with } rfl (h.fault_clear_of_phase hph nofun)
    (h.blk (by rw [hph]; rfl)) (fun _ => by simp [hg]) hread hbound

/-- R140: a group fetched is one more group and one more byte. -/
theorem Dec.Inv.opensGroup (h : d.Inv p) (g : Byte) (hph : d.phase = .grpFetch) (hg : d.gcnt.toNat ≠ 256)
    (hn : 1 ≤ d.remaining.length) :
    ({ d.past 1 with gbyte := g, gcnt := d.gcnt + 1, slot := 0, phase := .cmd } : Dec).Inv p := by
  have hle := h.gcnt
  have hsucc : (d.gcnt + 1).toNat = d.gcnt.toNat + 1 :=
    BitVec.toNat_add_of_lt (show d.gcnt.toNat + 1 < 2 ^ 9 by omega)
  obtain ⟨hread, hbound⟩ := h.consumed (by rw [hph]; rfl)
  rw [Dec.consumedBound_of_ne_cmd (by simp [hph])] at hbound
  exact Dec.Ranges.inv_of_inBlock
    { h.ranges.past hn with
      gcnt := show (d.gcnt + 1).toNat ≤ 256 by omega
      slot := Nat.zero_le _ } rfl
    (h.fault_clear_of_phase hph nofun) (h.blk (by rw [hph]; rfl)) (fun _ => show 1 ≤ (d.gcnt + 1).toNat by omega)
    (show d.bstart + (d.gcnt + 1).toNat ≤ d.ipos + 1 by omega)
    (show d.ipos + 1 ≤ d.bstart + (9 * ((d.gcnt + 1).toNat - 1) + 1 + 0) by omega)

/-- R151: a command has read at most two bytes, so an END leaves at most 9 for each group. -/
theorem Dec.Inv.endsBlock (h : d.Inv p) {n : Nat} (hph : d.phase = .cmd) (hn2 : n ≤ 2)
    (hn : n ≤ d.remaining.length) : ({ d.past n with phase := .blkCheck } : Dec).Inv p := by
  have hslot := h.slot
  have hfetched := h.fetched (.inl hph)
  obtain ⟨hread, hbound⟩ := h.consumed (by rw [hph]; rfl)
  rw [Dec.consumedBound_of_cmd hph] at hbound
  exact Dec.Ranges.inv_of_inBlock { h.ranges.past hn with } rfl (h.fault_clear_of_phase hph nofun)
    (h.blk (by rw [hph]; rfl)) (fun _ => hfetched) (show d.bstart + d.gcnt.toNat ≤ d.ipos + n by omega)
    (show d.ipos + n ≤ d.bstart + 9 * d.gcnt.toNat by omega)

/-- R147, R151: two bytes at most for the slot passed, and the group is whole after slot 3. -/
theorem Dec.Inv.appends (h : d.Inv p) {n : Nat} {bs : Bytes} (hph : d.phase = .cmd) (hn2 : n ≤ 2)
    (hn : n ≤ d.remaining.length) (hb : d.Fits p bs) : (advance ((d.past n).produce bs)).Inv p := by
  have hslot := h.slot
  have hfetched := h.fetched (.inl hph)
  have hclear := h.fault_clear_of_phase hph nofun
  have hblk := h.blk (by rw [hph]; rfl)
  obtain ⟨hread, hbound⟩ := h.consumed (by rw [hph]; rfl)
  rw [Dec.consumedBound_of_cmd hph] at hbound
  have hranges := (h.ranges.past hn).produce (bs := bs) hb
  by_cases h3 : d.slot = 3
  · have hadv : advance ((d.past n).produce bs) = { (d.past n).produce bs with phase := .grpFetch } := if_pos h3
    have h3n : d.slot.toNat = 3 := by simp [h3]
    rw [hadv]
    exact Dec.Ranges.inv_of_inBlock { hranges with } rfl hclear hblk nofun
      (show d.bstart + d.gcnt.toNat ≤ d.ipos + n by omega)
      (show d.ipos + n ≤ d.bstart + 9 * d.gcnt.toNat by omega)
  · have hadv : advance ((d.past n).produce bs) =
        { (d.past n).produce bs with slot := d.slot + 1, phase := .cmd } := if_neg h3
    have h3n : d.slot.toNat ≠ 3 := fun hs => h3 (BitVec.eq_of_toNat_eq hs)
    have hsucc : (d.slot + 1).toNat = d.slot.toNat + 1 :=
      BitVec.toNat_add_of_lt (show d.slot.toNat + 1 < 2 ^ 3 by omega)
    rw [hadv]
    exact Dec.Ranges.inv_of_inBlock { hranges with slot := show (d.slot + 1).toNat ≤ 3 by omega } rfl hclear hblk
      (fun _ => hfetched) (show d.bstart + d.gcnt.toNat ≤ d.ipos + n by omega)
      (show d.ipos + n ≤ d.bstart + (9 * (d.gcnt.toNat - 1) + 1 + 2 * (d.slot + 1).toNat) by omega)

/-- The next block is read from ipos, but under the alternative NONSTRICT_RESYNC (R204). -/
theorem Dec.nextPrefix_eq_ipos (h : p.resync = .stay ∨ d.strict = true) : d.nextPrefix p = d.ipos := by
  unfold Dec.nextPrefix
  split
  · rfl
  · exact if_pos (by simpa [*] using h)

/-- R203: another block follows. -/
theorem Dec.Inv.nextBlock (h : d.Inv p) (hph : d.phase = .blkCheck) (hb : d.blk + 1 < d.nblocks) :
    ({ d with blk := d.blk + 1, ipos := d.nextPrefix p, phase := .blkPrefix } : Dec).Inv p :=
  Dec.Ranges.inv_of_outside
    { h.ranges with ipos := fun hs => (Dec.nextPrefix_eq_ipos (d := d) hs).trans_le (h.ipos hs) } rfl nofun
    (h.fault_clear_of_phase hph nofun) (fun _ => hb) (fun hp => hp.elim nofun nofun) nofun

/-- R203: the block checked was the last. -/
theorem Dec.Inv.lastBlock (h : d.Inv p) (hph : d.phase = .blkCheck) (hb : ¬ d.blk + 1 < d.nblocks) :
    ({ d with blk := d.blk + 1, phase := .streamCheck } : Dec).Inv p := by
  have hblk := h.blk (by rw [hph]; rfl)
  have hsucc := h.toNat_succ_blk hblk
  rw [BitVec.lt_def] at hb
  exact Dec.Ranges.inv_of_outside { h.ranges with } rfl nofun (h.fault_clear_of_phase hph nofun) nofun
    (fun _ => BitVec.eq_of_toNat_eq (show (d.blk + 1).toNat = d.nblocks.toNat by omega)) nofun

/-- R205: DONE, with RESULT and, if strict, the declared size. -/
theorem Dec.Inv.finishes (h : d.Inv p) (hph : d.phase = .streamCheck) (hs : d.sizeMismatch = false) :
    ({ d with phase := .done, result := d.dst } : Dec).Inv p :=
  Dec.Ranges.inv_of_outside { h.ranges with } rfl nofun (h.fault_clear_of_phase hph nofun) nofun
    (fun _ => h.blkEnd (.inl hph))
    fun _ => ⟨rfl, fun (hstrict : d.strict = true) => by simpa [Dec.sizeMismatch, hstrict] using hs⟩

/-- Every move of DEC keeps its invariant. -/
theorem Dec.MovesTo.inv (hm : d.MovesTo p d') (h : d.Inv p) : d'.Inv p := by
  cases hm with
  | rests => exact h
  | takesSize hph hn hv => exact h.takesSize hph hn hv
  | takesBlocks hph hn hv => exact h.takesBlocks hph hn hv
  | opensBlock hph hn => exact h.opensBlock _ hph hn
  | meetsBound hph hg => exact h.meetsBound hph hg
  | opensGroup hph hg hn => exact h.opensGroup _ hph hg hn
  | endsBlock hph hn2 hn => exact h.endsBlock hph hn2 hn
  | appends hph hn2 hn hb => exact h.appends hph hn2 hn hb
  | nextBlock hph hb => exact h.nextBlock hph hb
  | lastBlock hph hb => exact h.lastBlock hph hb
  | finishes hph hs => exact h.finishes hph hs
  | faults hf => exact hf.inv h.ranges

/-- R261: a START of DEC meets the invariant, whatever ended before it. -/
theorem Dec.Inv.begin (h : d.Inv p) (strict : Bool) (input : Bytes) : (d.begin strict input).Inv p :=
  Dec.Ranges.inv_of_outside { h.ranges with ipos := fun _ => Nat.zero_le _, cap := fun _ _ => Nat.zero_le _ }
    rfl nofun rfl nofun (fun hp => hp.elim nofun nofun) nofun

end

end Sys2Proof.Machine
end

section
/-! PROOFS. DEC appends only and reads forward (10_state.md R32, R33). -/

namespace Sys2Proof.Machine

open Sys2Proof

section
variable {p : Params} {d d' : Dec}

theorem Dec.MovesTo.inp_eq (hm : d.MovesTo p d') : d'.inp = d.inp := by
  cases hm with
  | faults hf => obtain ⟨n, bs, e, -, -, -, rfl⟩ := hf; rfl
  | appends => rw [advance_inp]; rfl
  | _ => rfl

/-- Every move of DEC leaves the bytes of the destination in place. -/
theorem Dec.MovesTo.dst_prefix (hm : d.MovesTo p d') : d.dst <+: d'.dst := by
  cases hm with
  | faults hf => obtain ⟨n, bs, e, -, -, -, rfl⟩ := hf; exact List.prefix_append _ _
  | appends => rw [advance_dst]; exact List.prefix_append _ _
  | _ => exact List.prefix_refl _

/-- Under NONSTRICT_RESYNC = NONE every move of DEC passes some of the bytes left, so it reads forward only. -/
theorem Dec.MovesTo.ipos_eq_add (hm : d.MovesTo p d') (hs : p.resync = .stay) :
    ∃ n ≤ d.remaining.length, d'.ipos = d.ipos + n := by
  cases hm with
  | takesSize _ hn | takesBlocks _ hn | endsBlock _ _ hn | opensBlock _ hn | opensGroup _ _ hn => exact ⟨_, hn, rfl⟩
  | appends _ _ hn => exact ⟨_, hn, by rw [advance_ipos]; rfl⟩
  | nextBlock => exact ⟨0, Nat.zero_le _, Dec.nextPrefix_eq_ipos (.inl hs)⟩
  | faults hf => obtain ⟨n, bs, e, hn, -, -, rfl⟩ := hf; exact ⟨n, hn, rfl⟩
  | _ => exact ⟨0, Nat.zero_le _, rfl⟩

end

/-- A step of DEC makes one of its moves. -/
theorem movesTo_of_step {s t : State} (hm : s.mover = some .dec) (h : step s = .next t) :
    s.dec.MovesTo s.params t.dec := by
  obtain ⟨d, hd, rfl⟩ := step_next_of_mover_dec hm h
  exact (decRule_yields s.params s.dec).of_left hd

/-- Settles O48: from the moves of DEC, each of which appends to DST and passes bytes that are left of IN. -/
theorem destinationOnlyGrows : Obligations.DestinationOnlyGrows := by
  intro s t hm h
  have hmove := movesTo_of_step hm h
  refine ⟨hmove.dst_prefix, fun hs => ?_⟩
  obtain ⟨n, hn, hipos⟩ := hmove.ipos_eq_add hs
  rw [hipos, hmove.inp_eq]
  simp only [Dec.remaining, List.length_drop] at hn
  exact ⟨Nat.le_add_right _ _, fun _ => by omega⟩

end Sys2Proof.Machine
end

section
/-! PROOFS. The command the encoder selects stays inside the limit and never costs more than R214 allows (42_encoder.md
R172 to R178). -/

namespace Sys2Proof.Machine

open Sys2Proof

theorem matchFrom_le_limit (src : Bytes) (p d be fuel l : Nat) (h : p + l ≤ be) :
    p + matchFrom src p d be fuel l ≤ be := by
  induction fuel generalizing l with
  | zero => exact h
  | succ fuel ih =>
    unfold matchFrom
    split
    case isTrue hc => exact ih (l + 1) hc.2.1
    case isFalse => exact h

theorem bestScan_le_limit (t : LzTie) (src : Bytes) (p be d : Nat) (best : Nat × Nat) (h : p + best.1 ≤ be) :
    p + (bestScan t src p be d best).1 ≤ be := by
  induction d generalizing best with
  | zero => exact h
  | succ d ih =>
    unfold bestScan
    split
    · exact h
    · apply ih
      split
      · exact matchFrom_le_limit src p (d + 1) be _ 0 (by omega)
      · exact h

theorem runFrom_le_limit (src : Bytes) (p be fuel r : Nat) (h : p + r ≤ be) : p + runFrom src p be fuel r ≤ be := by
  induction fuel generalizing r with
  | zero => exact h
  | succ fuel ih =>
    unfold runFrom
    split
    case isTrue hc => exact ih (r + 1) hc.1
    case isFalse => exact h

/-- The three commands the selector answers (R175). -/
theorem select_cases (lzLen lzDist rleCnt : Nat) (v : Byte) :
    select lzLen lzDist rleCnt v = .copy v ∨
    (2 ≤ lzLen ∧ select lzLen lzDist rleCnt v = .lz77 lzDist lzLen) ∨
    (2 ≤ rleCnt ∧ select lzLen lzDist rleCnt v = .rle rleCnt v) := by
  unfold select
  split
  · exact .inl rfl
  · split
    · exact .inr (.inl ⟨by omega, rfl⟩)
    · exact .inr (.inr ⟨by omega, rfl⟩)

/-- R180: below the limit the selected command covers no byte past it. -/
theorem covered_choose_le_limit (p : Params) (v : Byte) (c : Enc) (h : c.p < c.limit p) :
    c.p + covered (choose p v c) ≤ c.limit p := by
  have hlz := bestScan_le_limit p.lzTie c.src c.p (c.limit p) (min (c.reach p) Config.format.window) (0, 0)
    (Nat.le_of_lt h)
  have hrun := runFrom_le_limit c.src c.p (c.limit p) (Config.format.rleMax - 1) 1 h
  unfold choose
  obtain hs | ⟨-, hs⟩ | ⟨-, hs⟩ := select_cases (bestLz p.lzTie c.src c.p (c.reach p) (c.limit p)).1
    (bestLz p.lzTie c.src c.p (c.reach p) (c.limit p)).2 (runLen c.src c.p (c.limit p)) v
  · simp only [hs]; exact h
  · simp only [hs]; exact hlz
  · simp only [hs]; exact hrun

/-- R214: a command's operands and its quarter of the group byte take at most 5/4 bytes for each byte it covers. -/
theorem operands_choose_le (p : Params) (v : Byte) (c : Enc) :
    4 * (choose p v c).operands.length + 1 ≤ 5 * covered (choose p v c) := by
  unfold choose
  obtain hs | ⟨h2, hs⟩ | ⟨h2, hs⟩ := select_cases (bestLz p.lzTie c.src c.p (c.reach p) (c.limit p)).1
    (bestLz p.lzTie c.src c.p (c.reach p) (c.limit p)).2 (runLen c.src c.p (c.limit p)) v
  all_goals simp only [hs, Instr.operands, covered, List.length_cons, List.length_nil]; omega

/-- R179: a code in slot `slot` leaves the slots above it 0. -/
theorem placeCode_lt (g : Byte) (slot : Nat) (code : BitVec 2) (hg : g.toNat < 4 ^ slot) :
    (placeCode g slot code).toNat < 4 ^ (slot + 1) := by
  have hpow (k : Nat) : 4 ^ k = 2 ^ (2 * k) := (Nat.pow_mul 2 2 k).symm
  unfold placeCode
  rw [BitVec.toNat_or, hpow]
  refine Nat.or_lt_two_pow (lt_trans hg ?_) ?_
  · rw [← hpow]; exact Nat.pow_lt_pow_right (by omega) (by omega)
  · rw [BitVec.toNat_shiftLeft, Nat.shiftLeft_eq, Nat.mul_add, Nat.pow_add, Nat.mul_comm]
    refine lt_of_le_of_lt (Nat.mod_le _ _) (Nat.mul_lt_mul_of_pos_left ?_ (Nat.two_pow_pos _))
    rw [BitVec.toNat_setWidth]
    have := code.isLt
    omega

end Sys2Proof.Machine
end

section
/-! PROOFS. The invariant of ENC (Safety.lean) is kept by every step of the encoder, none of which stops the model from
a state that meets it. -/

namespace Sys2Proof.Machine

open Sys2Proof

/-- The clauses of `Enc.Inv` that hold all through a block. -/
structure Enc.InBlock (c : Enc) : Prop where
  clear : c.fault = FaultRecord.clear
  length : c.n = c.src.length
  checked : 1 ≤ c.n ∧ c.n ≤ 2 ^ 24 - 1
  nblocks : c.nblocks = ceilDiv c.n 512
  blk : c.blk < c.nblocks
  bounds : c.bs = 512 * c.blk ∧ c.be = min (c.bs + 512) c.n
  slot : c.slot.toNat ≤ 4
  reservedPrefix : c.out[c.ppos]? = some 0 ∧ c.out[c.ppos + 1]? = some 0

/-- The clauses of `Enc.Inv` that hold while a group is open. -/
structure Enc.InGroup (c : Enc) : Prop extends c.InBlock where
  reservedGroup : c.ppos + 2 ≤ c.gpos ∧ c.out[c.gpos]? = some 0
  unused : c.gbyte.toNat < 4 ^ c.slot.toNat

/-- The rule does not stop the model, and what it leaves meets ENC's invariant. -/
def Enc.Keeps (p : Params) (m : Act Enc Unit) : Prop := m.Yields (fun _ => Enc.Inv p) (Enc.Inv p)

section
variable {p : Params} {c : Enc}

theorem EncPhase.afterHeader_of_inBlock {ph : EncPhase} (h : ph.inBlock = true) : ph.afterHeader = true := by
  simp [EncPhase.afterHeader, h]

theorem EncPhase.inBlock_of_inGroup {ph : EncPhase} (h : ph.inGroup = true) : ph.inBlock = true := by
  simp only [EncPhase.inGroup, Bool.or_eq_true, beq_iff_eq] at h
  obtain rfl | rfl := h
  · rfl
  · rfl

theorem Enc.Inv.inBlock (h : c.Inv p) (hph : c.phase.inBlock = true) : c.InBlock where
  clear := h.clear fun hf => by simp [hf, EncPhase.inBlock] at hph
  length := h.length
  checked := h.checked (.inr (EncPhase.afterHeader_of_inBlock hph))
  nblocks := h.nblocks (EncPhase.afterHeader_of_inBlock hph)
  blk := h.blk (.inl hph)
  bounds := h.bounds hph
  slot := h.slot
  reservedPrefix := h.reservedPrefix hph

theorem Enc.Inv.inGroup (h : c.Inv p) (hph : c.phase.inGroup = true) : c.InGroup where
  __ := h.inBlock (EncPhase.inBlock_of_inGroup hph)
  reservedGroup := h.reservedGroup hph
  unused := h.unused hph

/-- An ENC inside a block meets the invariant when it is in order, its group if one is open, and its sizes. -/
theorem Enc.InBlock.inv (h : c.InBlock) (hph : c.phase.inBlock = true)
    (hgroup : c.phase.inGroup = true → c.InGroup) (hframed : p.lookahead = .blockEnd → c.Framed) : c.Inv p where
  __ := h
  clear _ := h.clear
  code hp := by simp [hp, EncPhase.inBlock] at hph
  checked _ := h.checked
  nblocks _ := h.nblocks
  blk _ := h.blk
  blkEnd hp := by simp [hp, EncPhase.inBlock] at hph
  bounds _ := h.bounds
  reservedPrefix _ := h.reservedPrefix
  reservedGroup hp := (hgroup hp).reservedGroup
  unused hp := (hgroup hp).unused
  result hp := by simp [hp, EncPhase.inBlock] at hph
  framed := hframed

/-- An ENC in FAULT meets the invariant when its code is NUMERIC_RANGE. -/
theorem Enc.inv_raise {e : Exn} (hlength : c.n = c.src.length) (hslot : c.slot.toNat ≤ 4)
    (he : e.record.code = 4) : (c.raise e).Inv p where
  clear hp := (hp rfl).elim
  code _ := he
  length := hlength
  checked hp := hp.elim nofun nofun
  nblocks := nofun
  blk hp := hp.elim nofun nofun
  blkEnd := nofun
  bounds := nofun
  slot := hslot
  reservedPrefix := nofun
  reservedGroup := nofun
  unused := nofun
  result := nofun
  framed _ := ⟨nofun, nofun, nofun, nofun, nofun, nofun, nofun, nofun, fun hp => hp.elim nofun nofun⟩

/-- Outside a block the invariant asks for N's range after CHECK, the block count after HEADER, that a block to be
opened is the next one, and that DONE has taken every block. -/
theorem Enc.inv_of_outside (hout : c.phase.inBlock = false) (hne : c.phase ≠ .fault)
    (hclear : c.fault = FaultRecord.clear) (hlength : c.n = c.src.length) (hslot : c.slot.toNat ≤ 4)
    (hchecked : c.phase = .header ∨ c.phase.afterHeader = true → 1 ≤ c.n ∧ c.n ≤ 2 ^ 24 - 1)
    (hnblocks : c.phase.afterHeader = true → c.nblocks = ceilDiv c.n 512)
    (hopens : c.phase = .blkOpen → c.blk < c.nblocks ∧ (p.lookahead = .blockEnd → c.p = 512 * c.blk))
    (hdone : c.phase = .done → c.blk = c.nblocks ∧ c.result = c.out ∧ (p.lookahead = .blockEnd → c.p = c.n)) :
    c.Inv p := by
  have hin : ¬ c.phase.inBlock = true := by simp [hout]
  have hgroup : ¬ c.phase.inGroup = true := fun h => hin (EncPhase.inBlock_of_inGroup h)
  have hne_of {ph : EncPhase} (hph : ph.inBlock = true) : c.phase ≠ ph := fun h => hin (h ▸ hph)
  exact {
    clear := fun _ => hclear
    code := fun h => absurd h hne
    length := hlength
    checked := hchecked
    nblocks := hnblocks
    blk := fun h => h.elim (fun h => absurd h hin) fun h => (hopens h).1
    blkEnd := fun h => (hdone h).1
    bounds := fun h => absurd h hin
    slot := hslot
    reservedPrefix := fun h => absurd h hin
    reservedGroup := fun h => absurd h hgroup
    unused := fun h => absurd h hgroup
    result := fun h => (hdone h).2.1
    framed := fun hla => {
      opened := fun h => (hopens h).2 hla
      within := fun h => absurd h hin
      closed := fun h => absurd h (hne_of rfl)
      ended := fun h => (hdone h).2.2 hla
      nonempty := fun h => absurd h (hne_of rfl)
      full := fun h => absurd h (hne_of rfl)
      groupSize := fun h => absurd h hgroup
      openSize := fun h => absurd h (hne_of rfl)
      closeSize := fun h => h.elim (fun h => absurd h (hne_of rfl)) fun h => absurd h (hne_of rfl) } }

/-! ### OUT inside a block -/

/-- The block's size bytes lie in OUT. -/
theorem Enc.InBlock.ppos_lt (h : c.InBlock) : c.ppos + 1 < c.out.length :=
  (List.getElem?_eq_some_iff.1 h.reservedPrefix.2).1

theorem Enc.InGroup.gpos_lt (h : c.InGroup) : c.gpos < c.out.length :=
  (List.getElem?_eq_some_iff.1 h.reservedGroup.2).1

/-- An append leaves the byte reserved at a position as it is. -/
theorem getElem?_append_of_some {out bs : Bytes} {a : Nat} {v : Byte} (h : out[a]? = some v) :
    (out ++ bs)[a]? = some v := by
  rw [List.getElem?_append_left (List.getElem?_eq_some_iff.1 h).1, h]

theorem Enc.InBlock.append (h : c.InBlock) (bs : Bytes) : (outAppend bs c).InBlock :=
  { h with reservedPrefix := h.reservedPrefix.imp getElem?_append_of_some getElem?_append_of_some }

theorem Enc.InBlock.endMark (h : c.InBlock) : (endMark c).InBlock := by
  unfold Machine.endMark
  split
  · exact h.append [0]
  · exact h

/-- Bytes appended inside a block are that many bytes more of it. -/
theorem Enc.InBlock.blockBytes_append (h : c.InBlock) {bs : Bytes} {c' : Enc} (hout : c'.out = c.out ++ bs)
    (hppos : c'.ppos = c.ppos) : c'.blockBytes = c.blockBytes + bs.length := by
  have := h.ppos_lt
  simp only [Enc.blockBytes, hout, hppos, List.length_append, Config.format_prefixBytes]
  omega

/-! ### The steps -/

/-- R209: CHECK refuses N or leaves it in the header's range. -/
theorem Enc.Inv.keeps_check (h : c.Inv p) (hph : c.phase = .check) : Enc.Keeps p (encCheck p c) := by
  unfold encCheck
  split
  case isTrue => exact Enc.inv_raise h.length h.slot rfl
  case isFalse hempty =>
    split
    case isTrue => exact Enc.inv_raise h.length h.slot rfl
    case isFalse hrange =>
      exact Enc.inv_of_outside rfl nofun (h.clear (by simp [hph])) h.length h.slot
        (fun _ => ⟨Nat.pos_of_ne_zero hempty, Nat.le_of_not_lt hrange⟩) nofun nofun nofun

/-- VARINT.ENC appends its bytes, or raises NUMERIC_RANGE. -/
theorem varintWrite_yields (hlength : c.n = c.src.length) (hslot : c.slot.toNat ≤ 4) (v : Nat) :
    (varintWrite p v c).Yields (fun _ c' => c' = outAppend (varintBytes p.varintForm v) c) (Enc.Inv p) := by
  obtain ⟨-, hw⟩ | ⟨-, hw⟩ := varintWrite_cases p v c
  · rw [hw]; rfl
  · rw [hw]; exact Enc.inv_raise hlength hslot rfl

/-- R210: HEADER has at least one block to announce, and block 0 opens first. -/
theorem Enc.Inv.keeps_header (h : c.Inv p) (hph : c.phase = .header) : Enc.Keeps p (encHeader p c) := by
  have hn := h.checked (.inl hph)
  have hpos : 0 < ceilDiv c.n 512 := Nat.div_pos (by omega) (by omega)
  refine (varintWrite_yields (c := { c with nblocks := ceilDiv c.n 512 }) h.length h.slot _).bind ?_
  rintro - _ rfl
  split
  case isTrue h0 => exact absurd h0 hpos.ne'
  case isFalse =>
    refine (varintWrite_yields ?_ ?_ _).bind ?_
    · exact h.length
    · exact h.slot
    rintro - _ rfl
    exact Enc.inv_of_outside rfl nofun (h.clear (by simp [hph])) h.length h.slot (fun _ => hn) (fun _ => rfl)
      (fun _ => ⟨hpos, fun _ => rfl⟩) nofun

/-- R37, R211: a block that is one of the source's starts inside it. -/
theorem lt_of_lt_ceilDiv {n k : Nat} (h : k < ceilDiv n 512) : 512 * k < n := by
  rw [ceilDiv] at h
  omega

/-- R211: the block opened is in order, empty, and starts where the one before it ended. -/
theorem Enc.Inv.keeps_blkOpen (h : c.Inv p) (hph : c.phase = .blkOpen) : Enc.Keeps p (encBlkOpen p c) := by
  have hafter : c.phase.afterHeader = true := by rw [hph]; rfl
  have hnblocks := h.nblocks hafter
  have hblk := h.blk (.inr hph)
  have hlt : 512 * c.blk < c.n := lt_of_lt_ceilDiv (hnblocks ▸ hblk)
  refine Enc.InBlock.inv {
    clear := h.clear (by simp [hph])
    length := h.length
    checked := h.checked (.inr hafter)
    nblocks := hnblocks
    blk := hblk
    bounds := ⟨rfl, rfl⟩
    slot := h.slot
    reservedPrefix := by simp } rfl nofun fun hla => ?_
  have hopened := (h.framed hla).opened hph
  exact {
    opened := nofun
    within := fun _ => show 512 * c.blk ≤ c.p ∧ c.p ≤ min (512 * c.blk + 512) c.n by omega
    closed := nofun
    ended := nofun
    nonempty := nofun
    full := nofun
    groupSize := nofun
    openSize := fun _ _ => show 4 * ((c.out ++ [0, 0]).length - (c.out.length + 2)) ≤ _ by simp
    closeSize := fun _ => show 4 * ((c.out ++ [0, 0]).length - (c.out.length + 2)) ≤ _ by simp }

/-- R170, R171: whether the block is exhausted, where no command has passed its end. -/
theorem Enc.exhausted_iff (hla : p.lookahead = .blockEnd) : c.exhausted p = true ↔ c.p = c.be := by
  simp [Enc.exhausted, hla]

/-- R170: a block that is not exhausted has bytes before its end. -/
theorem Enc.Inv.lt_be (h : c.Inv p) (hph : c.phase.inBlock = true) (hx : ¬ c.exhausted p = true) : c.p < c.be := by
  cases hla : p.lookahead with
  | blockEnd =>
    rw [Enc.exhausted_iff hla] at hx
    have := ((h.framed hla).within hph).2
    omega
  | inputEnd => simpa [Enc.exhausted, hla] using hx

/-- R36, R63: the block end and the limit lie in SRC. -/
theorem Enc.InBlock.limit_le (h : c.InBlock) : c.be ≤ c.src.length ∧ c.limit p ≤ c.src.length := by
  obtain ⟨-, hbe⟩ := h.bounds
  have := h.length
  unfold Enc.limit
  split <;> omega

/-- R170: GRP_OPEN closes an exhausted block, or opens an empty group. -/
theorem Enc.Inv.keeps_grpOpen (h : c.Inv p) (hph : c.phase = .grpOpen) : Enc.Keeps p (encGrpOpen p c) := by
  have hin : c.phase.inBlock = true := by rw [hph]; rfl
  have hb := h.inBlock hin
  unfold encGrpOpen
  split
  case isTrue hx =>
    refine Enc.InBlock.inv { hb with } rfl nofun fun hla => ?_
    have hf := h.framed hla
    exact {
      opened := nofun
      within := fun _ => hf.within hin
      closed := fun _ => (Enc.exhausted_iff hla).1 hx
      ended := nofun
      nonempty := nofun
      full := nofun
      groupSize := nofun
      openSize := nofun
      closeSize := fun _ => hf.closeSize (.inl hph) }
  case isFalse hx =>
    have hg : Enc.InGroup { outAppend [0] c with gpos := c.out.length, gbyte := 0, slot := 0, phase := .slot } := {
      hb.append [0] with
      slot := Nat.zero_le _
      reservedGroup := ⟨hb.ppos_lt, by simp⟩
      unused := Nat.one_pos }
    refine hg.toInBlock.inv rfl (fun _ => hg) fun hla => ?_
    have hf := h.framed hla
    have hlt := h.lt_be hin hx
    have hsize := hf.openSize hph hlt
    have hbytes := hb.blockBytes_append (bs := [0])
      (c' := { outAppend [0] c with gpos := c.out.length, gbyte := 0, slot := 0, phase := .slot }) rfl rfl
    exact {
      opened := nofun
      within := fun _ => hf.within hin
      closed := nofun
      ended := nofun
      nonempty := fun _ _ => hlt
      full := nofun
      groupSize := fun _ => by
        rw [hbytes]
        exact (by omega : 4 * (c.blockBytes + 1) + 0 ≤ 5 * c.taken + 4)
      openSize := nofun
      closeSize := fun hp => hp.elim nofun nofun }

/-- R38: a slot that is not past the last is followed by the next. -/
theorem Enc.InBlock.toNat_succ_slot (h : c.InBlock) (hslot : c.slot.toNat ≠ 4) :
    (c.slot + 1).toNat = c.slot.toNat + 1 := by
  have hlt : c.slot.toNat < 4 := lt_of_le_of_ne h.slot hslot
  exact BitVec.toNat_add_of_lt (show c.slot.toNat + 1 < 2 ^ 3 by omega)

/-- R171: a command emitted keeps the group in order. -/
theorem Enc.InGroup.emit (h : c.InGroup) (hslot : c.slot.toNat ≠ 4) (i : Instr) : (emit p i c).InGroup := by
  have h4 := h.slot
  have hsucc := h.toNat_succ_slot hslot
  exact {
    h.append i.operands with
    slot := show (c.slot + 1).toNat ≤ 4 by omega
    reservedGroup := h.reservedGroup.imp id getElem?_append_of_some
    unused := by
      simp only [emit_gbyte, emit_slot, hsucc]
      exact placeCode_lt _ _ _ h.unused }

/-- R171, R214: the command selected stays in the block and in R214's size. -/
theorem Enc.Framed.emit_choose (hf : c.Framed) (hg : c.InGroup) (hla : p.lookahead = .blockEnd)
    (hph : c.phase = .slot) (hslot : c.slot.toNat ≠ 4) (hlt : c.p < c.be) (v : Byte) :
    (emit p (choose p v c) c).Framed := by
  obtain ⟨hbs, -⟩ := hf.within (by rw [hph]; rfl)
  have hsize := hf.groupSize (by rw [hph]; rfl)
  have hsucc := hg.toNat_succ_slot hslot
  have hlimit : c.limit p = c.be := by simp [Enc.limit, hla]
  have hcovered := covered_choose_le_limit p v c (hlimit ▸ hlt)
  have hoperands := operands_choose_le p v c
  have hbytes := hg.blockBytes_append (bs := (choose p v c).operands) (c' := emit p (choose p v c) c) rfl rfl
  rw [hlimit] at hcovered
  unfold Enc.taken at hsize
  exact {
    opened := nofun
    within := fun _ => show c.bs ≤ c.p + covered (choose p v c) ∧ c.p + covered (choose p v c) ≤ c.be by omega
    closed := nofun
    ended := nofun
    nonempty := fun _ h0 => absurd (congrArg BitVec.toNat h0) (hsucc ▸ Nat.succ_ne_zero _)
    full := nofun
    groupSize := fun _ => by
      rw [hbytes, emit_slot, hsucc]
      exact (by omega : 4 * (c.blockBytes + (choose p v c).operands.length) + (c.slot.toNat + 1) ≤
        5 * (c.p + covered (choose p v c) - c.bs) + 4)
    openSize := nofun
    closeSize := fun hp => hp.elim nofun nofun }

/-- R170, R171: no group closes empty. -/
theorem Enc.Framed.slot_pos (hf : c.Framed) (hph : c.phase = .slot) (hclose : c.slot.toNat = 4 ∨ c.p = c.be) :
    1 ≤ c.slot.toNat := by
  by_contra h0
  have hlt := hf.nonempty hph (BitVec.eq_of_toNat_eq (show c.slot.toNat = 0 by omega))
  omega

/-- R171: SLOT closes a group that is full or whose block is exhausted, or emits one command, its reads all in SRC. -/
theorem Enc.Inv.keeps_slot (h : c.Inv p) (hph : c.phase = .slot) : Enc.Keeps p (encSlot p c) := by
  have hin : c.phase.inBlock = true := by rw [hph]; rfl
  have hgroup : c.phase.inGroup = true := by rw [hph]; rfl
  have hg := h.inGroup hgroup
  unfold encSlot
  split
  case isTrue hclose =>
    have hg' : Enc.InGroup { c with phase := .grpClose } := { hg with }
    refine hg'.toInBlock.inv rfl (fun _ => hg') fun hla => ?_
    have hf := h.framed hla
    rw [Enc.exhausted_iff hla] at hclose
    exact {
      opened := nofun
      within := fun _ => hf.within hin
      closed := nofun
      ended := nofun
      nonempty := nofun
      full := fun _ => ⟨hf.slot_pos hph hclose, hclose⟩
      groupSize := fun _ => hf.groupSize hgroup
      openSize := nofun
      closeSize := fun hp => hp.elim nofun nofun }
  case isFalse hopen =>
    obtain ⟨hslot, hx⟩ := not_or.1 hopen
    obtain ⟨hbe, hlimit⟩ := hg.toInBlock.limit_le (p := p)
    have hlt := h.lt_be hin hx
    rw [if_neg (by omega), srcRead_go (List.getElem?_eq_getElem (lt_of_lt_of_le hlt hbe))]
    have hg' := hg.emit (p := p) hslot (choose p c.src[c.p] c)
    exact hg'.toInBlock.inv rfl (fun _ => hg') fun hla => (h.framed hla).emit_choose hg hla hph hslot hlt _

/-- R179: the group byte lies behind the block's size bytes, so its patch leaves those reserved. -/
theorem Enc.InGroup.patch (h : c.InGroup) : ({ c with out := c.out.set c.gpos c.gbyte } : Enc).InBlock := by
  obtain ⟨hgpos, -⟩ := h.reservedGroup
  have hkept (a : Nat) (ha : a < c.gpos) (h0 : c.out[a]? = some 0) : (c.out.set c.gpos c.gbyte)[a]? = some 0 := by
    rw [List.getElem?_set_ne (by omega), h0]
  exact { h.toInBlock with
    reservedPrefix := h.reservedPrefix.imp (hkept c.ppos (by omega)) (hkept (c.ppos + 1) (by omega)) }

/-- R179: GRP_CLOSE patches the group byte; a full group has spent its quarter bytes. -/
theorem Enc.Inv.keeps_grpClose (h : c.Inv p) (hph : c.phase = .grpClose) : Enc.Keeps p (encGrpClose p c) := by
  have hin : c.phase.inBlock = true := by rw [hph]; rfl
  have hgroup : c.phase.inGroup = true := by rw [hph]; rfl
  have hg := h.inGroup hgroup
  unfold encGrpClose
  rw [outPatch_go _ hg.gpos_lt]
  refine Enc.InBlock.inv { hg.patch with } rfl nofun fun hla => ?_
  have hf := h.framed hla
  obtain ⟨hpos, hfull⟩ := hf.full hph
  have hsize := hf.groupSize hgroup
  have hbytes : Enc.blockBytes { c with out := c.out.set c.gpos c.gbyte, phase := .grpOpen } = c.blockBytes := by
    simp [Enc.blockBytes]
  exact {
    opened := nofun
    within := fun _ => hf.within hin
    closed := nofun
    ended := nofun
    nonempty := nofun
    full := nofun
    groupSize := nofun
    openSize := fun _ (hlt : c.p < c.be) => by
      rw [hbytes]
      exact (by omega : 4 * c.blockBytes ≤ 5 * c.taken)
    closeSize := fun _ => by
      rw [hbytes]
      exact (by omega : 4 * c.blockBytes ≤ 5 * c.taken + 3) }

/-- R211, R212: a block whose bytes are exhausted ends where the next begins, the last at N. -/
theorem Enc.InBlock.be_eq (h : c.InBlock) :
    (c.blk + 1 < c.nblocks → c.be = 512 * (c.blk + 1)) ∧ (¬ c.blk + 1 < c.nblocks → c.be = c.n) := by
  obtain ⟨hbs, hbe⟩ := h.bounds
  have hn := h.nblocks
  rw [ceilDiv] at hn
  exact ⟨fun _ => by omega, fun _ => by omega⟩

/-- R212: BLK_CLOSE patches the block's size and goes to the next block, which begins where this one ends, or to
DONE. -/
theorem Enc.Inv.keeps_blkClose (h : c.Inv p) (hph : c.phase = .blkClose) : Enc.Keeps p (encBlkClose p c) := by
  have hb := (h.inBlock (by rw [hph]; rfl)).endMark
  have hclosed (hla : p.lookahead = .blockEnd) : (endMark c).p = (endMark c).be := by
    simpa using (h.framed hla).closed hph
  obtain ⟨hnext, hlast⟩ := hb.be_eq
  unfold encBlkClose
  dsimp only
  split
  · exact Enc.inv_raise hb.length hb.slot rfl
  · rw [outPatch_go _ (Nat.lt_of_succ_lt hb.ppos_lt), Act.bind_go, outPatch_go _ (by simpa using hb.ppos_lt),
      Act.bind_go]
    split
    case isTrue hblk =>
      exact Enc.inv_of_outside rfl nofun hb.clear hb.length hb.slot (fun _ => hb.checked) (fun _ => hb.nblocks)
        (fun _ => ⟨hblk, fun hla => (hclosed hla).trans (hnext hblk)⟩) nofun
    case isFalse hblk =>
      exact Enc.inv_of_outside rfl nofun hb.clear hb.length hb.slot (fun _ => hb.checked) (fun _ => hb.nblocks) nofun
        fun _ => ⟨Nat.le_antisymm hb.blk (Nat.le_of_not_lt hblk), rfl, fun hla => (hclosed hla).trans (hlast hblk)⟩

/-- From a state that meets ENC's invariant a step of ENC does not stop the model and keeps it. -/
theorem Enc.Inv.keeps_encRule (h : c.Inv p) : Enc.Keeps p (encRule p c) := by
  unfold encRule
  split
  case h_1 => exact h
  case h_2 hph => exact h.keeps_check hph
  case h_3 hph => exact h.keeps_header hph
  case h_4 hph => exact h.keeps_blkOpen hph
  case h_5 hph => exact h.keeps_grpOpen hph
  case h_6 hph => exact h.keeps_slot hph
  case h_7 hph => exact h.keeps_grpClose hph
  case h_8 hph => exact h.keeps_blkClose hph
  case h_9 => exact h
  case h_10 => exact h

/-- R262: a START of ENC meets the invariant, whatever ended before it. -/
theorem Enc.Inv.begin (h : c.Inv p) (input : Bytes) : (c.begin input).Inv p :=
  Enc.inv_of_outside rfl nofun rfl rfl h.slot (fun hp => hp.elim nofun nofun) nofun nofun nofun

end

end Sys2Proof.Machine
end

section
/-! PROOFS. The invariant of the machine: every step keeps it, and from a state that meets it there is a step. -/

namespace Sys2Proof.Machine

open Sys2Proof

/-- A START keeps the invariant of the engine it starts and leaves the other. -/
theorem State.Inv.writeStart {s : State} (h : s.Inv) (w : StartPort) : (writeStart w s).Inv where
  dec := by
    rw [writeStart_params, writeStart_dec]
    split
    · exact h.dec.begin _ _
    · exact h.dec
  enc := by
    rw [writeStart_params, writeStart_enc]
    split
    · exact h.enc.begin _
    · exact h.enc

/-- Settles O51: each agent's move keeps the invariant of the engine it changes. -/
theorem stepKeepsInv : Obligations.StepKeepsInv := by
  intro s t h hstep
  have hr : s.reschedule.Inv := ⟨by simpa using h.dec, by simpa using h.enc⟩
  obtain ⟨-, rfl⟩ | ⟨-, d, hd, rfl⟩ | ⟨-, c, hc, rfl⟩ | ⟨-, w, ws, -, -, rfl⟩ := step_cases hstep
  · exact h
  · have hmove := (decRule_yields s.params s.dec).of_left hd
    exact ⟨by simpa using hmove.inv h.dec, hr.enc⟩
  · exact ⟨hr.dec, by simpa using h.enc.keeps_encRule.of_left hc⟩
  · exact State.Inv.writeStart (s := { s.reschedule with pending := ws }) ⟨hr.dec, hr.enc⟩ w

/-- The host never stops the model. -/
theorem hostStep_next (s : State) : ∃ t, hostStep s = .next t := by
  unfold hostStep
  split
  · exact ⟨_, rfl⟩
  · split
    · exact ⟨_, rfl⟩
    · exact ⟨_, rfl⟩

/-- Settles O52: DEC's rule stops in no state and ENC's in none that meets the invariant. -/
theorem invStatesStepSafely : Obligations.InvStatesStepSafely := by
  intro s h
  unfold State.safeStep
  cases hm : s.mover with
  | none => exact ⟨s, step_none hm⟩
  | some a =>
    cases a with
    | dec =>
      rw [step_dec hm, decStep_eq]
      exact (decRule_yields _ _).onDec_next
    | enc =>
      rw [step_enc hm]
      exact Act.Yields.onEnc_next (by simpa [Enc.Keeps] using h.enc.keeps_encRule)
    | host =>
      rw [step_host hm]
      exact hostStep_next _

/-- Settles O30: an agent other than the engine leaves it, or is the host and performs the START it may make, which is
allowed while the engine is not busy only. -/
theorem enginesChangeOnlyByStepOrStart : Obligations.EnginesChangeOnlyByStepOrStart := by
  constructor
  · intro s t hidle h
    obtain ⟨-, rfl⟩ | ⟨hm, -⟩ | ⟨-, c, -, rfl⟩ | ⟨-, w, ws, hp, ha, rfl⟩ := step_cases h
    · exact .inl rfl
    · have hb := dec_busy_of_mover hm
      exact (hidle.elim (fun hne => hne hm) fun hb' => by simp [hb'] at hb).elim
    · exact .inl (by simp)
    · by_cases hop : w.op = 1
      · exact .inr ⟨by simpa [startAllowed, hop] using ha, w, ws, hp, hop,
          by rw [writeStart_dec, if_pos hop, State.reschedule_dec]⟩
      · exact .inl (by rw [writeStart_dec, if_neg hop, State.reschedule_dec])
  · intro s t hidle h
    obtain ⟨-, rfl⟩ | ⟨-, d, -, rfl⟩ | ⟨hm, -⟩ | ⟨-, w, ws, hp, ha, rfl⟩ := step_cases h
    · exact .inl rfl
    · exact .inl (by simp)
    · have hb := enc_busy_of_mover hm
      exact (hidle.elim (fun hne => hne hm) fun hb' => by simp [hb'] at hb).elim
    · by_cases hop : w.op = 2
      · exact .inr ⟨by simpa [startAllowed, hop] using ha, w, ws, hp, hop,
          by rw [writeStart_enc, if_pos hop, State.reschedule_enc]⟩
      · exact .inl (by rw [writeStart_enc, if_neg hop, State.reschedule_enc])

end Sys2Proof.Machine
end

section
/-! PROOFS. The circular window of 10_state.md R34 against the whole destination. -/

namespace Sys2Proof.Machine

open Sys2Proof

@[simp] theorem windowWrite_length (w : Bytes) (len : Nat) (v : Byte) : (windowWrite w len v).length = w.length :=
  List.length_set

/-- Appends leave the window's entry of a position they do not come round to. -/
theorem getElem?_windowAppend_of_lt (w bs : Bytes) (len a : Nat) (ha : a < len)
    (hround : len + bs.length ≤ a + windowSize) :
    (windowAppend w len bs)[a % windowSize]? = w[a % windowSize]? := by
  induction bs generalizing w len with
  | nil => rfl
  | cons v bs ih =>
    rw [List.length_cons] at hround
    have hne : len % windowSize ≠ a % windowSize := by
      intro he
      have hdvd := (Nat.modEq_iff_dvd' (Nat.le_of_lt ha)).1 he.symm
      exact absurd (Nat.le_of_dvd (by omega) hdvd) (by omega)
    rw [windowAppend, ih _ (len + 1) (by omega) (by omega), windowWrite, List.getElem?_set_ne hne]

/-- The window holds, of the bytes appended, the last `windowSize`, each at its position's remainder. -/
theorem getElem?_windowAppend (w bs : Bytes) (len k : Nat) (hw : w.length = windowSize) (hk : k < bs.length)
    (hround : bs.length ≤ k + windowSize) :
    (windowAppend w len bs)[(len + k) % windowSize]? = bs[k]? := by
  induction bs generalizing w len k with
  | nil => cases hk
  | cons v bs ih =>
    rw [List.length_cons] at hk hround
    rw [windowAppend]
    cases k with
    | zero =>
      have hlt : len % windowSize < w.length := by
        rw [hw]
        exact Nat.mod_lt _ (Nat.succ_pos _)
      calc (windowAppend (windowWrite w len v) (len + 1) bs)[len % windowSize]?
        _ = (windowWrite w len v)[len % windowSize]? :=
          getElem?_windowAppend_of_lt _ bs (len + 1) len (Nat.lt_add_one len) (by omega)
        _ = some v := List.getElem?_set_self hlt
    | succ k =>
      rw [show len + (k + 1) = len + 1 + k by omega, ih _ (len + 1) k (by simpa using hw) (by omega) (by omega)]
      rfl

/-- Settles O56: the position read is among the last 4096 appended. -/
theorem circularWindowSuffices : Obligations.CircularWindowSuffices := by
  intro w dst d hw hd1 hd hlen
  have hround : dst.length ≤ dst.length - d + windowSize := by
    rw [windowSize, Config.format_window]
    omega
  have h := getElem?_windowAppend w dst 0 (dst.length - d) hw (by omega) hround
  rwa [Nat.zero_add] at h

end Sys2Proof.Machine
end

section
/-! PROOFS. What a step of ENC leaves unchanged (20_memory.md R63, R64, 10_state.md R36, R39), and what no step changes
(R74, 00_scope.md R9). The statements are about every state, so a rule may stop the model; what counts is the state it
leaves behind otherwise. -/

namespace Sys2Proof.Machine

open Sys2Proof

/-! ### Rules that may stop the model -/

/-- `P` holds of the state the rule leaves behind, if it does not stop the model. -/
def Act.Leaves {σ α : Type} (P : σ → Prop) : Act σ α → Prop
  | .go _ s => P s
  | .raised s => P s
  | .stop _ => True

theorem Act.Leaves.bind {σ α β : Type} {P : σ → Prop} {m : Act σ α} {f : α → σ → Act σ β} (h : m.Leaves P)
    (hf : ∀ a s, P s → (f a s).Leaves P) : (m.bind f).Leaves P := by
  cases m with
  | go a s => exact hf a s h
  | raised s => exact h
  | stop r => trivial

theorem Act.Leaves.of_left {σ : Type} {P : σ → Prop} {m : Act σ Unit} {s : σ} (h : m.Leaves P)
    (hm : m = .go () s ∨ m = .raised s) : P s := by
  obtain rfl | rfl := hm
  · exact h
  · exact h

/-- After a patch that does not stop, one byte of OUT has been set. -/
theorem outPatch_bind_leaves {P : Enc → Prop} {a : Nat} {v : Byte} {c : Enc} {f : Unit → Enc → Act Enc Unit}
    (h : (f () { c with out := c.out.set a v }).Leaves P) : ((outPatch a v c).bind f).Leaves P := by
  obtain ⟨-, hgo⟩ | ⟨-, hstop⟩ := outPatch_cases a v c
  · rwa [hgo]
  · rw [hstop]; trivial

/-- A read of SRC leaves ENC as it is. -/
theorem srcRead_leaves {P : Enc → Prop} {c : Enc} (a : Nat) (h : P c) : (srcRead a c).Leaves P := by
  unfold srcRead
  split
  · exact h
  · trivial

/-! ### What ENC keeps and how it moves on -/

/-- `c'` has the source of `c`, a position not before that of `c` unless `rewound`, and after at most some patches at
`patched` positions the bytes of `c` at the front of OUT. -/
structure Enc.MovesOn (patched : Nat → Prop) (rewound : Prop) (c c' : Enc) : Prop where
  src : c'.src = c.src
  n : c'.n = c.n
  forward : ¬ rewound → c.p ≤ c'.p
  grows : c.out.length ≤ c'.out.length
  kept : ∀ a < c.out.length, ¬ patched a → c'.out[a]? = c.out[a]?

/-- The positions of OUT that a step overwrites: the reserved group byte in GRP_CLOSE (R179), the reserved size bytes
in BLK_CLOSE (R212). -/
def Enc.Patches (c : Enc) (a : Nat) : Prop :=
  (c.phase = .grpClose ∧ a = c.gpos) ∨ (c.phase = .blkClose ∧ (a = c.ppos ∨ a = c.ppos + 1))

section
variable {patched : Nat → Prop} {rewound : Prop} {c c' : Enc} {p : Params}

theorem Enc.MovesOn.refl (c : Enc) : c.MovesOn patched rewound c :=
  ⟨rfl, rfl, fun _ => Nat.le_refl _, Nat.le_refl _, fun _ _ _ => rfl⟩

theorem Enc.MovesOn.raise (h : c.MovesOn patched rewound c') (e : Exn) : c.MovesOn patched rewound (c'.raise e) :=
  { h with }

theorem Enc.MovesOn.append (h : c.MovesOn patched rewound c') (bs : Bytes) :
    c.MovesOn patched rewound (outAppend bs c') :=
  { h with
    grows := by simpa using Nat.le_add_right_of_le h.grows
    kept := fun a ha hp => by
      rw [outAppend_out, List.getElem?_append_left (Nat.lt_of_lt_of_le ha h.grows), h.kept a ha hp] }

theorem Enc.MovesOn.patch (h : c.MovesOn patched rewound c') {a : Nat} (v : Byte) (ha : patched a) :
    c.MovesOn patched rewound { c' with out := c'.out.set a v } :=
  { h with
    grows := by simpa using h.grows
    kept := fun b hb hp => by
      have hne : a ≠ b := fun he => hp (he ▸ ha)
      rw [List.getElem?_set_ne hne, h.kept b hb hp] }

theorem Enc.MovesOn.emit (h : c.MovesOn patched rewound c') (i : Instr) :
    c.MovesOn patched rewound (emit p i c') :=
  { h.append i.operands with forward := fun hr => Nat.le_add_right_of_le (h.forward hr) }

theorem Enc.MovesOn.endMark (h : c.MovesOn patched rewound c') : c.MovesOn patched rewound (endMark c') := by
  unfold Machine.endMark
  split
  · exact h.append [0]
  · exact h

theorem Enc.MovesOn.varintWrite (h : c.MovesOn patched rewound c') (v : Nat) :
    (varintWrite p v c').Leaves (c.MovesOn patched rewound) := by
  obtain ⟨-, hw⟩ | ⟨-, hw⟩ := varintWrite_cases p v c'
  · rw [hw]; exact h.append _
  · rw [hw]; exact h.raise _

/-! ### The steps -/

theorem encCheck_movesOn : (encCheck p c).Leaves (c.MovesOn patched rewound) := by
  unfold encCheck
  split
  case isTrue => exact (Enc.MovesOn.refl c).raise _
  case isFalse =>
    split
    case isTrue => exact (Enc.MovesOn.refl c).raise _
    case isFalse => exact { Enc.MovesOn.refl c with }

/-- R210: HEADER appends its two varints, and is the one step that sets p back. -/
theorem encHeader_movesOn (hr : rewound) : (encHeader p c).Leaves (c.MovesOn patched rewound) := by
  have hcount : c.MovesOn patched rewound { c with nblocks := ceilDiv c.n Config.format.blockSize } :=
    { Enc.MovesOn.refl c with }
  refine (hcount.varintWrite _).bind fun _ c2 hsize => ?_
  split
  case isTrue => trivial
  case isFalse =>
    exact (hsize.varintWrite _).bind fun _ c3 hblocks => { hblocks with forward := fun hn => absurd hr hn }

theorem encBlkOpen_movesOn : (encBlkOpen p c).Leaves (c.MovesOn patched rewound) :=
  { (Enc.MovesOn.refl c).append [0, 0] with }

theorem encGrpOpen_movesOn : (encGrpOpen p c).Leaves (c.MovesOn patched rewound) := by
  unfold encGrpOpen
  split
  case isTrue => exact { Enc.MovesOn.refl c with }
  case isFalse => exact { (Enc.MovesOn.refl c).append [0] with }

/-- R171: SLOT appends the operands of its command and moves p past the bytes covered. -/
theorem encSlot_movesOn : (encSlot p c).Leaves (c.MovesOn patched rewound) := by
  unfold encSlot
  split
  case isTrue => exact { Enc.MovesOn.refl c with }
  case isFalse =>
    split
    case isTrue => trivial
    case isFalse => exact (srcRead_leaves c.p (Enc.MovesOn.refl c)).bind fun _ _ h => h.emit _

theorem encGrpClose_movesOn (hg : patched c.gpos) : (encGrpClose p c).Leaves (c.MovesOn patched rewound) :=
  outPatch_bind_leaves { (Enc.MovesOn.refl c).patch c.gbyte hg with }

/-- R212: the end mark is appended before the two size bytes are patched. -/
theorem encBlkClose_movesOn (hlow : patched c.ppos) (hhigh : patched (c.ppos + 1)) :
    (encBlkClose p c).Leaves (c.MovesOn patched rewound) := by
  have hmark : c.MovesOn patched rewound (endMark c) := (Enc.MovesOn.refl c).endMark
  rw [← endMark_ppos c] at hlow hhigh
  unfold encBlkClose
  dsimp only
  split
  case isTrue => exact hmark.raise _
  case isFalse =>
    refine outPatch_bind_leaves (outPatch_bind_leaves ?_)
    have hsize := (hmark.patch (prefixLow (endMark c).blockBytes) hlow).patch (prefixHigh (endMark c).blockBytes) hhigh
    split
    case isTrue => exact { hsize with }
    case isFalse => exact { hsize with }

/-- Every step of ENC patches the bytes reserved for its phase only, and only HEADER sets p back. -/
theorem encRule_movesOn (p : Params) (c : Enc) : (encRule p c).Leaves (c.MovesOn c.Patches (c.phase = .header)) := by
  unfold encRule
  split
  case h_1 => exact Enc.MovesOn.refl c
  case h_2 => exact encCheck_movesOn
  case h_3 hph => exact encHeader_movesOn hph
  case h_4 => exact encBlkOpen_movesOn
  case h_5 => exact encGrpOpen_movesOn
  case h_6 => exact encSlot_movesOn
  case h_7 hph => exact encGrpClose_movesOn (.inl ⟨hph, rfl⟩)
  case h_8 hph => exact encBlkClose_movesOn (.inr ⟨hph, .inl rfl⟩) (.inr ⟨hph, .inr rfl⟩)
  case h_9 => exact Enc.MovesOn.refl c
  case h_10 => exact Enc.MovesOn.refl c

end

/-- Settles O45: ENC's rule appends, patches what its phase has reserved, and moves p on. -/
theorem encoderPatchesOnlyReservedBytes : Obligations.EncoderPatchesOnlyReservedBytes := by
  intro s t hm h
  obtain ⟨c, hc, rfl⟩ := step_next_of_mover_enc hm h
  have hmoves := (encRule_movesOn s.params s.enc).of_left hc
  exact ⟨hmoves.src, hmoves.n, hmoves.forward, hmoves.grows,
    fun a ha hgroup hprefix => hmoves.kept a ha (not_or.2 ⟨hgroup, hprefix⟩)⟩

/-- Settles O47: a step of an engine replaces that engine, and neither engine's rule writes its input. -/
theorem inputsAndParametersStay : Obligations.InputsAndParametersStay := by
  intro s t h
  obtain ⟨-, rfl⟩ | ⟨-, d, hd, rfl⟩ | ⟨-, c, hc, rfl⟩ | ⟨hm, w, ws, -, -, rfl⟩ := step_cases h
  · exact ⟨rfl, fun _ => ⟨rfl, rfl, rfl, rfl⟩⟩
  · have hinp := ((decRule_yields s.params s.dec).of_left hd).inp_eq
    exact ⟨by simp, fun _ => ⟨hinp, by simp, by simp, by simp⟩⟩
  · have hsrc := ((encRule_movesOn s.params s.enc).of_left hc).src
    exact ⟨by simp, fun _ => ⟨by simp, hsrc, by simp, by simp⟩⟩
  · exact ⟨by simp, fun hne => absurd hm hne⟩

end Sys2Proof.Machine
end

section
/-! PROOFS. The group byte and its four slot codes (30_encoding.md R93, R94), and which code is which command under an
assignment. -/

namespace Sys2Proof

/-! ### Slot codes -/

/-- R93: a slot's code is a digit of the group byte at base 4. -/
theorem toNat_slotCode (g : Byte) (slot : Nat) : (slotCode g slot).toNat = g.toNat / 4 ^ slot % 4 := by
  rw [slotCode, BitVec.extractLsb'_toNat, Nat.shiftRight_eq_div_pow, Nat.pow_mul]

theorem slotCode_zero (slot : Nat) : slotCode 0 slot = 0 := BitVec.extractLsb'_zero

/-- A code placed in an unused slot is the slot's code. -/
theorem slotCode_placeCode_self {g : Byte} {slot : Nat} (code : BitVec 2) (hslot : slot < 4)
    (hunused : slotCode g slot = 0) : slotCode (placeCode g slot code) slot = code := by
  have hor : slotCode (placeCode g slot code) slot = slotCode g slot ||| code := by
    ext b hb
    have hin : 2 * slot + b < 8 := by omega
    simp [slotCode, placeCode, hin, hb]
  rw [hor, hunused]
  exact BitVec.zero_or

/-- A code placed in one slot leaves the others. -/
theorem slotCode_placeCode_of_ne (g : Byte) {slot other : Nat} (code : BitVec 2) (hne : other ≠ slot) :
    slotCode (placeCode g slot code) other = slotCode g other := by
  ext b hb
  simp only [slotCode, placeCode, BitVec.getElem_extractLsb', BitVec.getLsbD_or, BitVec.getLsbD_shiftLeft,
    BitVec.getLsbD_setWidth, Bool.or_eq_left_iff_imp, Bool.and_eq_true, decide_eq_true_eq, Bool.not_eq_true',
    decide_eq_false_iff_not]
  intro ⟨⟨_, hge⟩, _, hbit⟩
  have := BitVec.lt_of_getLsbD hbit
  omega

/-- Settles O2: the four digits of the group byte at base 4. -/
theorem groupByteIsItsSlotCodes : Obligations.GroupByteIsItsSlotCodes := by
  intro g
  simp only [toNat_slotCode]
  have := g.isLt
  omega

/-! ### Codes and commands -/

namespace CodeMap

variable {m : CodeMap}

theorem wf_iff : m.wf = true ↔
    m.copy ≠ 0#2 ∧ m.lz77 ≠ 0#2 ∧ m.rle ≠ 0#2 ∧ m.copy ≠ m.lz77 ∧ m.copy ≠ m.rle ∧ m.lz77 ≠ m.rle := by
  simp [wf, and_assoc]

/-- Under a legal assignment a command's code selects the command. -/
theorem kind?_code (h : m.wf = true) (k : CmdKind) : m.kind? (m.code k) = some k := by
  obtain ⟨hc, hl, hr, hcl, hcr, hlr⟩ := wf_iff.1 h
  cases k with
  | endBlock => simp [kind?, code]
  | copy => simp [kind?, code, hc]
  | lz77 => simp [kind?, code, hl, hcl.symm]
  | rle => simp [kind?, code, hr, hcr.symm, hlr.symm]

/-- A code that selects a command is the command's. -/
theorem code_of_kind? {code : BitVec 2} {k : CmdKind} (h : m.kind? code = some k) : m.code k = code := by
  unfold kind? at h
  split_ifs at h with hend hcopy hlz77 hrle
  all_goals cases h
  exacts [hend.symm, hcopy.symm, hlz77.symm, hrle.symm]

/-- R102: under a legal assignment four commands share the four codes, so every code selects one. -/
theorem kind?_isSome (h : m.wf = true) (code : BitVec 2) : (m.kind? code).isSome = true := by
  obtain ⟨hc, hl, hr, hcl, hcr, hlr⟩ := wf_iff.1 h
  have hone : code = 0 ∨ code = m.copy ∨ code = m.lz77 ∨ code = m.rle := by bv_omega
  obtain rfl | rfl | rfl | rfl := hone
  · exact Option.isSome_of_eq_some (kind?_code h .endBlock)
  · exact Option.isSome_of_eq_some (kind?_code h .copy)
  · exact Option.isSome_of_eq_some (kind?_code h .lz77)
  · exact Option.isSome_of_eq_some (kind?_code h .rle)

end CodeMap

end Sys2Proof
end

section
/-! PROOFS. A command and its operand bytes, in both directions (30_encoding.md R95 to R97, R104). -/

namespace Sys2Proof

/-! ### Operand fields -/

/-- The distance's mask keeps the upper half of a byte. -/
theorem toNat_and_distHighMask (b : Byte) : (b &&& 0xF0#8).toNat = 16 * (b.toNat / 16) := by
  have hmask : b &&& 0xF0#8 = b >>> 4 <<< 4 := by
    ext k hk
    have hbit : (0xF0#8)[k] = decide (4 ≤ k) := by
      revert k
      decide
    rw [BitVec.getElem_and, hbit]
    by_cases hlow : k < 4
    · simp [hlow]
    · simp [hlow, Nat.add_sub_of_le (Nat.le_of_not_lt hlow), hk, Nat.le_of_not_lt hlow]
  rw [hmask, BitVec.toNat_shiftLeft, BitVec.toNat_ushiftRight, Nat.shiftRight_eq_div_pow, Nat.shiftLeft_eq]
  have := b.isLt
  omega

/-- R96: distance = b1[7:4] ++ b0. -/
theorem lzDistance_eq (b0 b1 : Byte) : lzDistance b0 b1 = b0.toNat + 256 * (b1.toNat / 16) := by
  have h0 := b0.isLt
  have h1 := b1.isLt
  have hhigh : ((b1 &&& 0xF0#8).setWidth 12 <<< 4).toNat = (b1.toNat / 16) <<< 8 := by
    rw [BitVec.toNat_shiftLeft, BitVec.toNat_setWidth, toNat_and_distHighMask, Nat.shiftLeft_eq, Nat.shiftLeft_eq]
    omega
  rw [lzDistance, Config.format_distHighMask, BitVec.toNat_or, hhigh, Nat.or_comm, BitVec.toNat_setWidth,
    Nat.mod_eq_of_lt (by omega), ← Nat.shiftLeft_add_eq_or_of_lt h0, Nat.shiftLeft_eq]
  omega

/-- R96: length = b1[3:0] + 2. -/
theorem lzLength_eq (b1 : Byte) : lzLength b1 = b1.toNat % 16 + 2 := by
  rw [lzLength, Config.format_lenMask, Config.format_lzMin, BitVec.toNat_and]
  exact congrArg (· + 2) (Nat.and_two_pow_sub_one_eq_mod b1.toNat 4)

/-- R104: the second operand byte of LZ77 holds the distance's upper four bits above the length's four. -/
theorem toNat_lzHighByte {d l : Nat} (hd : d ≤ 4095) (hl : l < 16) :
    ((BitVec.ofNat 8 (d / 256) <<< 4) ||| BitVec.ofNat 8 l).toNat = 16 * (d / 256) + l := by
  have hhigh : (BitVec.ofNat 8 (d / 256) <<< 4).toNat = (d / 256) <<< 4 := by
    rw [BitVec.toNat_shiftLeft, BitVec.toNat_ofNat, Nat.shiftLeft_eq, Nat.shiftLeft_eq]
    omega
  rw [BitVec.toNat_or, hhigh, BitVec.toNat_ofNat, Nat.mod_eq_of_lt (by omega),
    ← Nat.shiftLeft_add_eq_or_of_lt hl, Nat.shiftLeft_eq, Nat.mul_comm]

/-- Settles O3: the ranges follow from the two fields. -/
theorem lz77OperandFields : Obligations.Lz77OperandFields := by
  intro b0 b1 rest
  have hdist := lzDistance_eq b0 b1
  have hlen := lzLength_eq b1
  have h0 := b0.isLt
  have h1 := b1.isLt
  refine ⟨rfl, ?_, hdist, hlen, by omega, by omega, by omega⟩
  rw [Instr.reserved, hdist, Config.format_minDist, decide_eq_decide]
  omega

/-! ### Operands and commands -/

theorem wf_lz77_iff {d l : Nat} : (Instr.lz77 d l).wf = true ↔ d ≤ 4095 ∧ 2 ≤ l ∧ l ≤ 17 := by
  simp only [Instr.wf, Bool.and_eq_true, decide_eq_true_eq, and_assoc]
  rfl

theorem wf_rle_iff {c : Nat} {v : Byte} : (Instr.rle c v).wf = true ↔ 2 ≤ c ∧ c ≤ 257 := by
  simp only [Instr.wf, Bool.and_eq_true, decide_eq_true_eq]
  rfl

/-- R104: the operand bytes of a well-formed command decode to it and leave the rest. -/
theorem decodeOperands_operands {i : Instr} {k : CmdKind} (rest : Bytes) (hwf : i.wf = true)
    (hk : i.kind = some k) : decodeOperands k (i.operands ++ rest) = .ok (i, rest) := by
  cases i with
  | endBlock => cases hk; rfl
  | copy v => cases hk; rfl
  | lz77 d l =>
    cases hk
    obtain ⟨hd, hl2, hl⟩ := wf_lz77_iff.1 hwf
    have hhigh := toNat_lzHighByte (d := d) (l := l - 2) hd (by omega)
    simp only [Instr.operands, List.cons_append, List.nil_append, decodeOperands, lzDistance_eq, lzLength_eq,
      Config.format_lzMin, hhigh, BitVec.toNat_ofNat, Except.ok.injEq, Prod.mk.injEq, Instr.lz77.injEq, and_true]
    omega
  | rle c v =>
    cases hk
    obtain ⟨hc2, hc⟩ := wf_rle_iff.1 hwf
    simp only [Instr.operands, List.cons_append, List.nil_append, decodeOperands, rleCount, Config.format_rleMin,
      BitVec.toNat_ofNat, Except.ok.injEq, Prod.mk.injEq, Instr.rle.injEq, and_true]
    omega
  | varint1 | varint2 | varint3 | varint4 => cases hk

/-- The operand bytes of LZ77 are those its fields were read from. -/
theorem operands_lz77 (b0 b1 : Byte) : (Instr.lz77 (lzDistance b0 b1) (lzLength b1)).operands = [b0, b1] := by
  have h0 := b0.isLt
  have h1 := b1.isLt
  have hhigh := toNat_lzHighByte (d := lzDistance b0 b1) (l := b1.toNat % 16) (by rw [lzDistance_eq]; omega) (by omega)
  simp only [Instr.operands, Config.format_lzMin, lzLength_eq, Nat.add_sub_cancel, List.cons.injEq, and_true,
    ← BitVec.toNat_inj, hhigh]
  rw [lzDistance_eq, BitVec.toNat_ofNat]
  omega

theorem operands_rle (b0 b1 : Byte) : (Instr.rle (rleCount b0) b1).operands = [b0, b1] := by
  simp [Instr.operands, rleCount]

/-- What operand bytes decode to is a well-formed command of the kind asked for, and its operands are those bytes. -/
theorem decodeOperands_ok {k : CmdKind} {bs rest : Bytes} {i : Instr} (h : decodeOperands k bs = .ok (i, rest)) :
    i.wf = true ∧ i.kind = some k ∧ bs = i.operands ++ rest := by
  unfold decodeOperands at h
  split at h
  case h_1 => cases h; exact ⟨rfl, rfl, rfl⟩
  case h_2 => cases h; exact ⟨rfl, rfl, rfl⟩
  case h_3 b0 b1 rest =>
    cases h
    obtain ⟨-, -, -, -, hd, hl2, hl⟩ := lz77OperandFields b0 b1 rest
    exact ⟨wf_lz77_iff.2 ⟨hd, hl2, hl⟩, rfl, by rw [operands_lz77]; rfl⟩
  case h_4 b0 b1 rest =>
    cases h
    have := b0.isLt
    have hcount : rleCount b0 = b0.toNat + 2 := rfl
    exact ⟨wf_rle_iff.2 (by omega), rfl, by rw [operands_rle]; rfl⟩
  all_goals cases h

/-! ### Slots -/

/-- A slot that holds a command's code decodes the command's operands. -/
theorem decodeSlot_of_kind? {m : CodeMap} {g : Byte} {slot : Nat} {k : CmdKind} (bs : Bytes)
    (hk : m.kind? (slotCode g slot) = some k) : decodeSlot m g slot bs = decodeOperands k bs := by
  rw [decodeSlot, hk]

theorem decodeSlot_eq_ok_iff {m : CodeMap} {g : Byte} {slot : Nat} {bs rest : Bytes} {i : Instr} :
    decodeSlot m g slot bs = .ok (i, rest) ↔
      ∃ k, m.kind? (slotCode g slot) = some k ∧ decodeOperands k bs = .ok (i, rest) := by
  cases hk : m.kind? (slotCode g slot) with
  | none => simp [decodeSlot, hk]
  | some k => simp [decodeSlot_of_kind? bs hk]

/-- Settles O4: the slot's code selects the command, and its operands decode to it. -/
theorem commandOperandsDecodeInEverySlot : Obligations.CommandOperandsDecodeInEverySlot := by
  intro m i k g s rest hm hwf hk hcode
  rw [decodeSlot_of_kind? _ (hcode ▸ CodeMap.kind?_code hm k)]
  exact decodeOperands_operands rest hwf hk

/-- Settles O7: every code selects a command, and a command's operands fail for want of bytes only. -/
theorem noCodeIsInvalid : Obligations.NoCodeIsInvalid := by
  intro m g s bs code hm
  obtain ⟨k, hk⟩ := Option.isSome_iff_exists.1 (CodeMap.kind?_isSome hm (slotCode g s))
  rw [decodeSlot_of_kind? bs hk]
  unfold decodeOperands
  split <;> simp

end Sys2Proof
end

section
/-! PROOFS. A varint and its bytes, in both directions, and the value it carries (30_encoding.md R98, R100, R104,
40_varint.md R120). -/

namespace Sys2Proof

/-! ### The first byte -/

@[simp] theorem varintExtra_varintFirst (n : BitVec 2) (low6 : BitVec 6) : varintExtra (varintFirst n low6) = n :=
  BitVec.extractLsb'_append_eq_left

@[simp] theorem varintLow_varintFirst (n : BitVec 2) (low6 : BitVec 6) : varintLow (varintFirst n low6) = low6 :=
  BitVec.extractLsb'_append_eq_right

/-- R98: a first byte is its two fields. -/
theorem varintFirst_extra_low (f : Byte) : varintFirst (varintExtra f) (varintLow f) = f :=
  (BitVec.extractLsb'_append_extractLsb'_eq_extractLsb' rfl).trans BitVec.extractLsb'_eq_self

theorem toNat_varintFirst (n : BitVec 2) (low6 : BitVec 6) :
    (varintFirst n low6).toNat = 64 * n.toNat + low6.toNat := by
  rw [varintFirst, BitVec.toNat_append, ← Nat.shiftLeft_add_eq_or_of_lt low6.isLt, Nat.shiftLeft_eq, Nat.mul_comm]

theorem toNat_eq_extra_low (f : Byte) : f.toNat = 64 * (varintExtra f).toNat + (varintLow f).toNat := by
  rw [← toNat_varintFirst, varintFirst_extra_low]

theorem toNat_varintExtra (f : Byte) : (varintExtra f).toNat = f.toNat / 64 := by
  have := toNat_eq_extra_low f
  have := (varintLow f).isLt
  omega

theorem toNat_varintLow (f : Byte) : (varintLow f).toNat = f.toNat % 64 := by
  have := toNat_eq_extra_low f
  have := (varintLow f).isLt
  omega

/-! ### Varints by their extra bytes -/

/-- The varint of a low field and at most three extra bytes. -/
def varintOf (low6 : BitVec 6) : Bytes → Instr
  | [] => .varint1 low6
  | [e1] => .varint2 low6 e1
  | [e1, e2] => .varint3 low6 e1 e2
  | e1 :: e2 :: e3 :: _ => .varint4 low6 e1 e2 e3

/-- An instruction that is no command is a varint of at most three extra bytes. -/
theorem exists_varintOf {i : Instr} (h : i.kind = none) :
    ∃ low6, ∃ es : Bytes, es.length ≤ 3 ∧ i = varintOf low6 es := by
  cases i with
  | endBlock | copy | lz77 | rle => cases h
  | varint1 low6 => exact ⟨low6, [], by simp, rfl⟩
  | varint2 low6 e1 => exact ⟨low6, [e1], by simp, rfl⟩
  | varint3 low6 e1 e2 => exact ⟨low6, [e1, e2], by simp, rfl⟩
  | varint4 low6 e1 e2 e3 => exact ⟨low6, [e1, e2, e3], by simp, rfl⟩

@[simp] theorem kind_varintOf (low6 : BitVec 6) (es : Bytes) : (varintOf low6 es).kind = none := by
  unfold varintOf
  split <;> rfl

@[simp] theorem wf_varintOf (low6 : BitVec 6) (es : Bytes) : (varintOf low6 es).wf = true := by
  unfold varintOf
  split <;> rfl

section
variable {es : Bytes} (low6 : BitVec 6) (h : es.length ≤ 3)
include h

theorem headerValue_varintOf : (varintOf low6 es).headerValue = some (varintValue low6 es) := by
  match es, h with
  | [], _ | [_], _ | [_, _], _ | [_, _, _], _ => rfl

/-- R98: N in bits 7:6 counts the extra bytes, which follow. -/
theorem encode_varintOf (m : CodeMap) :
    encode m (varintOf low6 es) = varintFirst (BitVec.ofNat 2 es.length) low6 :: es := by
  match es, h with
  | [], _ | [_], _ | [_, _], _ | [_, _, _], _ => rfl

end

/-! ### Decoding -/

/-- R98, R100: a varint takes the extra bytes its first byte counts, or meets the end of the input. -/
theorem decodeVarint_cons (f : Byte) (rest : Bytes) :
    decodeVarint (f :: rest) =
      if rest.length < (varintExtra f).toNat then .error .inputEnd
      else .ok (varintOf (varintLow f) (rest.take (varintExtra f).toNat), rest.drop (varintExtra f).toNat) := by
  have hcount : varintExtra f = 0#2 ∨ varintExtra f = 1#2 ∨ varintExtra f = 2#2 ∨ varintExtra f = 3#2 := by bv_omega
  obtain h | h | h | h := hcount
  · simp [decodeVarint, h, varintOf]
  · match rest with
    | [] | _ :: _ => simp [decodeVarint, h, varintOf]
  · match rest with
    | [] | [_] | _ :: _ :: _ => simp [decodeVarint, h, varintOf]
  · match rest with
    | [] | [_] | [_, _] | _ :: _ :: _ :: _ => simp [decodeVarint, h, varintOf]

/-- R104: the bytes of a varint decode to it and leave the rest. -/
theorem decodeVarint_encode {i : Instr} (m : CodeMap) (rest : Bytes) (h : i.kind = none) :
    decodeVarint (encode m i ++ rest) = .ok (i, rest) := by
  obtain ⟨low6, es, hes, rfl⟩ := exists_varintOf h
  have hcount : es.length % 4 = es.length := Nat.mod_eq_of_lt (by omega)
  simp [encode_varintOf low6 hes, decodeVarint_cons, hcount]

/-- What bytes decode to as a varint is one, and its bytes are those that were read. -/
theorem encode_of_decodeVarint {bs rest : Bytes} {i : Instr} (m : CodeMap) (h : decodeVarint bs = .ok (i, rest)) :
    i.wf = true ∧ i.kind = none ∧ bs = encode m i ++ rest := by
  cases bs with
  | nil => cases h
  | cons f es =>
    rw [decodeVarint_cons] at h
    split at h
    case isTrue => cases h
    case isFalse hlen =>
      cases h
      have htake : (es.take (varintExtra f).toNat).length = (varintExtra f).toNat :=
        List.length_take_of_le (Nat.le_of_not_lt hlen)
      refine ⟨wf_varintOf _ _, kind_varintOf _ _, ?_⟩
      rw [encode_varintOf _ (by have := (varintExtra f).isLt; omega), htake, BitVec.ofNat_toNat, BitVec.setWidth_eq,
        varintFirst_extra_low, List.cons_append, List.take_append_drop]

/-- Settles O6: of a slot by its command's operands, of a varint by its first byte's count. -/
theorem encodeOfDecodeIsTheBytes : Obligations.EncodeOfDecodeIsTheBytes := by
  constructor
  · intro m g s bs rest i h
    obtain ⟨k, hk, hdec⟩ := decodeSlot_eq_ok_iff.1 h
    obtain ⟨hwf, hkind, hbs⟩ := decodeOperands_ok hdec
    exact ⟨hwf, hbs, k, hkind, CodeMap.code_of_kind? hk⟩
  · intro m bs rest i h
    exact encode_of_decodeVarint m h

/-! ### Encoded instructions -/

/-- The first byte of a command is the group byte with its code in slot 0. -/
theorem encode_of_kind {i : Instr} {k : CmdKind} (m : CodeMap) (h : i.kind = some k) :
    encode m i = placeCode 0 0 (m.code k) :: i.operands := by
  cases i with
  | endBlock | copy | lz77 | rle => cases h; rfl
  | varint1 | varint2 | varint3 | varint4 => cases h

/-- Settles O5: a command in slot 0 decodes from its operands, a varint from its bytes. -/
theorem decodeOfEncodeIsTheInstruction : Obligations.DecodeOfEncodeIsTheInstruction := by
  intro m i rest hm hwf
  cases hk : i.kind with
  | none =>
    have hplace : i.place = .header := by simp [Instr.place, hk]
    rw [hplace]
    exact decodeVarint_encode m rest hk
  | some k =>
    have hplace : i.place = .slot := by simp [Instr.place, hk]
    rw [hplace, encode_of_kind m hk]
    exact commandOperandsDecodeInEverySlot m i k _ 0 rest hm hwf hk
      (slotCode_placeCode_self _ (by decide) (slotCode_zero 0))

/-! ### The value -/

/-- R120: the or of the extra bytes, each whole at its shift, loses no bit of the 32. -/
theorem toNat_orExtra (es : Bytes) (k : Nat) (v : BitVec 32) (hk : k + es.length ≤ 4) :
    (orExtra k es v).toNat = (es.zipIdx k).foldl (fun acc ek => acc ||| (ek.1.toNat <<< (6 * ek.2))) v.toNat := by
  induction es generalizing k v with
  | nil => rfl
  | cons e es ih =>
    rw [List.length_cons] at hk
    have hshift : (e.setWidth 32 <<< (6 * k)).toNat = e.toNat <<< (6 * k) := by
      have he := e.isLt
      have hpow : 2 ^ (6 * k) ≤ 2 ^ 18 := Nat.pow_le_pow_right (by omega) (by omega)
      have hprod : e.toNat * 2 ^ (6 * k) ≤ 255 * 2 ^ 18 := Nat.mul_le_mul (by omega) hpow
      rw [BitVec.toNat_shiftLeft, BitVec.toNat_setWidth, Nat.mod_eq_of_lt (a := e.toNat) (by omega),
        Nat.shiftLeft_eq, Nat.mod_eq_of_lt (by omega)]
    rw [orExtra, ih (k + 1) _ (by omega), BitVec.toNat_or, Config.format_varintChunk, hshift, List.zipIdx_cons,
      List.foldl_cons]

/-- Settles O8: by the first byte's count, and the value of the varint of the bytes taken. -/
theorem varintValueIsTheOrOfItsChunks : Obligations.VarintValueIsTheOrOfItsChunks := by
  refine ⟨rfl, fun f rest => ⟨fun hlen => ?_, fun hlen => ?_⟩⟩
  · have htake : (rest.take (f.toNat / 64)).length ≤ 3 := by
      rw [List.length_take_of_le hlen]
      have := f.isLt
      omega
    refine ⟨_, _, ?_, headerValue_varintOf (varintLow f) htake, ?_⟩
    · rw [decodeVarint_cons, toNat_varintExtra, if_neg (Nat.not_lt.2 hlen)]
    · rw [varintValue, toNat_orExtra _ 1 _ (by omega), BitVec.toNat_setWidth, toNat_varintLow,
        Nat.mod_eq_of_lt (by omega)]
  · rw [decodeVarint_cons, toNat_varintExtra, if_pos hlen]

end Sys2Proof
end

section
/-! PROOFS. What VARINT.ENC writes (30_encoding.md R99, 40_varint.md R122, R123, D16). -/

namespace Sys2Proof.Machine

open Sys2Proof

/-- The extra bytes of the canonical form: chunks 1 to `n` of the value. -/
def canonicalExtra (n v : Nat) : Bytes := (List.range' 1 n).map (varintExtraByte .sixBit v)

@[simp] theorem canonicalExtra_length (n v : Nat) : (canonicalExtra n v).length = n := by simp [canonicalExtra]

/-- Behind the first byte, byte `k` of a canonical varint is chunk `k` of the value. -/
theorem getElem?_canonicalExtra {n v k : Nat} {f : Byte} (hk1 : 1 ≤ k) (hkn : k ≤ n) :
    (f :: canonicalExtra n v)[k]? = some (varintExtraByte .sixBit v k) := by
  obtain ⟨j, rfl⟩ : ∃ j, k = 1 + j := Nat.exists_eq_add_of_le hk1
  have hj : j < n := by omega
  rw [Nat.add_comm 1 j, List.getElem?_cons_succ, canonicalExtra, List.getElem?_map, List.getElem?_range' hj,
    Nat.one_mul, Nat.add_comm]
  rfl

/-- `n` extra bytes are the fewest that hold the value. -/
def FewestExtra (n v : Nat) : Prop := v < 2 ^ (6 * (n + 1)) ∧ (n = 0 ∨ 2 ^ (6 * n) ≤ v)

/-- R122: a value the encoder takes is held by at most three extra bytes. -/
theorem exists_fewestExtra {v : Nat} (h : v ≤ 2 ^ 24 - 1) : ∃ n ≤ 3, FewestExtra n v := by
  by_cases h0 : v < 2 ^ 6
  · exact ⟨0, by omega, h0, .inl rfl⟩
  by_cases h1 : v < 2 ^ 12
  · exact ⟨1, by omega, h1, .inr (Nat.le_of_not_lt h0)⟩
  by_cases h2 : v < 2 ^ 18
  · exact ⟨2, by omega, h2, .inr (Nat.le_of_not_lt h1)⟩
  exact ⟨3, by omega, Nat.lt_of_le_pred (Nat.two_pow_pos _) h, .inr (Nat.le_of_not_lt h2)⟩

/-- Fewer extra bytes than the fewest do not hold the value. -/
theorem FewestExtra.not_lt_bound {n v : Nat} (h : FewestExtra n v) {k : Nat} (hk : k < n) :
    ¬ v < varintBound .sixBit k := by
  obtain ⟨-, h0 | hmin⟩ := h
  · omega
  · have hpow : 2 ^ (6 * (k + 1)) ≤ 2 ^ (6 * n) := Nat.pow_le_pow_right (by omega) (by omega)
    exact Nat.not_lt.2 (Nat.le_trans hpow hmin)

/-- R99: the varint written has the fewest extra bytes, each a chunk of the value. -/
theorem varintInstr_sixBit {n v : Nat} (hn : n ≤ 3) (h : FewestExtra n v) :
    varintInstr .sixBit v = varintOf (BitVec.ofNat 6 v) (canonicalExtra n v) := by
  have hlt : v < varintBound .sixBit n := h.1
  have hge : ∀ k < n, ¬ v < varintBound .sixBit k := fun _ => h.not_lt_bound
  have hn : n = 0 ∨ n = 1 ∨ n = 2 ∨ n = 3 := by omega
  unfold varintInstr
  obtain rfl | rfl | rfl | rfl := hn
  · rw [if_pos hlt]; rfl
  · rw [if_neg (hge 0 (by decide)), if_pos hlt]; rfl
  · rw [if_neg (hge 0 (by decide)), if_neg (hge 1 (by decide)), if_pos hlt]; rfl
  · rw [if_neg (hge 0 (by decide)), if_neg (hge 1 (by decide)), if_neg (hge 2 (by decide))]; rfl

theorem varintBytes_sixBit {n v : Nat} (hn : n ≤ 3) (h : FewestExtra n v) :
    varintBytes .sixBit v = varintFirst (BitVec.ofNat 2 n) (BitVec.ofNat 6 v) :: canonicalExtra n v := by
  rw [varintBytes, varintInstr_sixBit hn h, encode_varintOf _ (by simpa using hn), canonicalExtra_length]

/-- Settles O11: the two outcomes of the write, and the fields of the bytes in the canonical form. -/
theorem varintWritesCanonicalBytes : Obligations.VarintWritesCanonicalBytes := by
  refine ⟨fun p v c hv => ?_, fun p v c hv => ?_, fun v hv => ?_⟩
  · obtain ⟨hle, -⟩ | ⟨-, hw⟩ := varintWrite_cases p v c
    · omega
    · exact hw
  · obtain ⟨-, hw⟩ | ⟨hlt, -⟩ := varintWrite_cases p v c
    · exact hw
    · omega
  · obtain ⟨n, hn, hfew⟩ := exists_fewestExtra hv
    have hbytes := varintBytes_sixBit hn hfew
    refine ⟨n, hn, by simp [hbytes], hfew.1, hfew.2, ?_, fun k hk1 hkn => ?_⟩
    · rw [hbytes, List.getElem?_cons_zero, Option.map_some, toNat_varintFirst, BitVec.toNat_ofNat,
        BitVec.toNat_ofNat, Nat.mod_eq_of_lt (a := n) (by omega)]
    · rw [hbytes, getElem?_canonicalExtra hk1 hkn, Option.map_some, varintExtraByte, BitVec.toNat_ofNat]
      congr 1
      omega

end Sys2Proof.Machine
end

section
/-! PROOFS. A packed group (30_encoding.md R92, R93, R105): its slots hold the codes of its commands in order. -/

namespace Sys2Proof.Machine

open Sys2Proof

/-- Packing codes from a slot on leaves the slots before it. -/
theorem slotCode_packCodes_of_lt (m : CodeMap) (is : List Instr) {slot j : Nat} (g : Byte) (hj : j < slot) :
    slotCode (packCodes m slot is g) j = slotCode g j := by
  induction is generalizing slot g with
  | nil => rfl
  | cons i is ih => rw [packCodes, ih _ (by omega), slotCode_placeCode_of_ne g _ (by omega)]

/-- Packing codes from a slot on, where the slots are unused, places one code after another. -/
theorem slotCode_packCodes_add (m : CodeMap) (is : List Instr) {slot : Nat} (g : Byte) (j : Nat)
    (hfit : slot + is.length ≤ 4) (hunused : ∀ t, slot ≤ t → slotCode g t = 0) :
    slotCode (packCodes m slot is g) (slot + j) = (is[j]?.map (emitCode m)).getD 0 := by
  induction is generalizing slot g j with
  | nil => exact hunused _ (by omega)
  | cons i is ih =>
    rw [List.length_cons] at hfit
    rw [packCodes]
    cases j with
    | zero =>
      simp only [Nat.add_zero]
      rw [slotCode_packCodes_of_lt m is _ (by omega),
        slotCode_placeCode_self _ (by omega) (hunused slot (le_refl _))]
      rfl
    | succ j =>
      have hrest : ∀ t, slot + 1 ≤ t → slotCode (placeCode g slot (emitCode m i)) t = 0 := fun t ht => by
        rw [slotCode_placeCode_of_ne g _ (by omega), hunused t (by omega)]
      rw [show slot + (j + 1) = slot + 1 + j by omega, ih _ j (by omega) hrest, List.getElem?_cons_succ]

/-- A group byte's slot holds the code of the command packed there, or 0. -/
theorem slotCode_packCodes (m : CodeMap) {is : List Instr} (j : Nat) (hfit : is.length ≤ 4) :
    slotCode (packCodes m 0 is 0) j = (is[j]?.map (emitCode m)).getD 0 := by
  simpa using slotCode_packCodes_add m is (slot := 0) 0 j (by omega) (fun t _ => slotCode_zero t)

theorem emitCode_of_kind {i : Instr} {k : CmdKind} (m : CodeMap) (h : i.kind = some k) : emitCode m i = m.code k := by
  rw [emitCode, h]

/-- Settles O12: each slot holds its command's code, and the command's operands decode to it. -/
theorem packedGroupDecodesInOrder : Obligations.PackedGroupDecodesInOrder := by
  intro m is rest hm hfit hcmds
  refine ⟨fun j i hj => ?_, fun j hj => ?_⟩
  · obtain ⟨hlt, hi⟩ := List.getElem?_eq_some_iff.1 hj
    obtain ⟨hwf, hsome⟩ := hcmds i (List.mem_of_getElem? hj)
    obtain ⟨k, hk⟩ := Option.isSome_iff_exists.1 hsome
    have hcode : slotCode (packCodes m 0 is 0) j = m.code k := by
      rw [slotCode_packCodes m j hfit, hj, ← emitCode_of_kind m hk]
      rfl
    rw [List.drop_eq_getElem_cons hlt, hi, List.map_cons, List.flatten_cons, List.append_assoc]
    exact commandOperandsDecodeInEverySlot m i k _ j _ hm hwf hk hcode
  · rw [slotCode_packCodes m j hfit, List.getElem?_eq_none hj]
    rfl

end Sys2Proof.Machine
end

section
/-! PROOFS. Words written out from 30_encoding.md R93 to R98. -/

namespace Sys2Proof

/-- Settles O1: the decoder computes each word's fields. -/
theorem writtenOutWordsDecode : Obligations.WrittenOutWordsDecode :=
  ⟨rfl, rfl, rfl, rfl, rfl, rfl, rfl, rfl, rfl⟩

end Sys2Proof
end

section
/-! PROOFS. The value a varint is decoded to (40_varint.md R121), and reading back what VARINT.ENC wrote (R124). -/

namespace Sys2Proof.Machine

open Sys2Proof

/-- Settles O9: what decodes as a varint carries a value below 2^26, and the bytes FF are computed. -/
theorem varintValueRange : Obligations.VarintValueRange := by
  refine ⟨fun bs rest i v hdec hv => ?_, rfl⟩
  obtain ⟨w, hw, hlt⟩ := decodeVarint_ok hdec
  obtain rfl : w = v := Option.some.inj (hw.symm.trans hv)
  exact Nat.le_pred_of_lt hlt

/-- Or-ing chunk `k` of a value to the chunks below it gives one chunk more of the value. -/
theorem or_chunk (v k : Nat) :
    BitVec.ofNat 32 (v % 2 ^ (6 * k)) ||| (varintExtraByte .sixBit v k).setWidth 32 <<< (6 * k) =
      BitVec.ofNat 32 (v % 2 ^ (6 * (k + 1))) := by
  have hshift : (varintExtraByte .sixBit v k).setWidth 32 <<< (6 * k) =
      BitVec.ofNat 32 ((v / 2 ^ (6 * k) % 64) <<< (6 * k)) := by
    have hchunk : v / 2 ^ (6 * k) % 64 < 64 := Nat.mod_lt _ (by decide)
    refine BitVec.eq_of_toNat_eq ?_
    rw [BitVec.toNat_shiftLeft, BitVec.toNat_setWidth, varintExtraByte, BitVec.toNat_ofNat, BitVec.toNat_ofNat,
      Nat.mod_eq_of_lt (b := 2 ^ 8) (by omega), Nat.mod_eq_of_lt (a := _ % 64) (by omega)]
  have hsplit : v % 2 ^ (6 * (k + 1)) = v / 2 ^ (6 * k) % 64 * 2 ^ (6 * k) + v % 2 ^ (6 * k) := by
    rw [Nat.mul_succ, Nat.pow_add, Nat.mod_mul, Nat.add_comm, Nat.mul_comm (2 ^ (6 * k))]
  rw [hshift, ← BitVec.ofNat_or, Nat.or_comm, ← Nat.shiftLeft_add_eq_or_of_lt (Nat.mod_lt _ (Nat.two_pow_pos _)),
    Nat.shiftLeft_eq, hsplit]

/-- The loop of R120 over chunks `k` to `k + n - 1` of a value, from the chunks below them. -/
theorem orExtra_chunks (v n k : Nat) :
    orExtra k ((List.range' k n).map (varintExtraByte .sixBit v)) (BitVec.ofNat 32 (v % 2 ^ (6 * k))) =
      BitVec.ofNat 32 (v % 2 ^ (6 * (k + n))) := by
  induction n generalizing k with
  | zero => rfl
  | succ n ih =>
    rw [List.range'_succ, List.map_cons, orExtra, Config.format_varintChunk, or_chunk, ih, Nat.add_assoc,
      Nat.add_comm 1 n]

/-- The canonical form of a value that its chunks hold has that value. -/
theorem varintValue_canonicalExtra {n v : Nat} (h : v < 2 ^ (6 * (n + 1))) :
    varintValue (BitVec.ofNat 6 v) (canonicalExtra n v) = BitVec.ofNat 32 v := by
  have hlow : (BitVec.ofNat 6 v).setWidth 32 = BitVec.ofNat 32 (v % 2 ^ (6 * 1)) :=
    BitVec.eq_of_toNat_eq (by rw [BitVec.toNat_setWidth, BitVec.toNat_ofNat, BitVec.toNat_ofNat])
  rw [varintValue, hlow, canonicalExtra, orExtra_chunks, Nat.add_comm 1 n, Nat.mod_eq_of_lt h]

/-- Settles O10: the bytes written are those of a varint, whose chunks make up the value. -/
theorem varintRoundTrip : Obligations.VarintRoundTrip := by
  intro v rest hv
  obtain ⟨n, hn, hfew⟩ := exists_fewestExtra hv
  rw [varintBytes, varintInstr_sixBit hn hfew]
  refine ⟨decodeVarint_encode _ rest (kind_varintOf _ _), ?_⟩
  rw [headerValue_varintOf _ (by simpa using hn), varintValue_canonicalExtra hfew.1]

end Sys2Proof.Machine
end

section
/-! PROOFS. A varint's meaning in the header phases and outside them (43_block_framer.md R200, R201, log 20). -/

namespace Sys2Proof.Machine

open Sys2Proof

/-- An instruction that is no command carries a header value. -/
theorem exists_headerValue {i : Instr} (h : i.kind = none) : ∃ v, i.headerValue = some v := by
  obtain ⟨low6, es, hes, rfl⟩ := exists_varintOf h
  exact ⟨_, headerValue_varintOf low6 hes⟩

theorem kind_of_place_header {i : Instr} (h : i.place = .header) : i.kind = none := by
  unfold Instr.place at h
  split at h
  · cases h
  · assumption

/-- What an instruction that carries a header value does: it fills the field of its phase, or stops by name. -/
theorem exec_cases_of_headerValue {i : Instr} {v : BitVec 32} (hv : i.headerValue = some v) (s : State) :
    (s.dec.phase = .hdrSize ∧ exec i s = .next (s.withDec { s.dec with usize := v, phase := .hdrBlocks })) ∨
    (s.dec.phase = .hdrBlocks ∧
      exec i s = .next (s.withDec { s.dec with nblocks := v + 1, blk := 0, phase := .blkPrefix })) ∨
    (s.dec.phase ≠ .hdrSize ∧ s.dec.phase ≠ .hdrBlocks ∧ exec i s = .fault .headerValueNotTaken) := by
  have hmeaning := meaning_of_headerValue hv s.params s.dec
  rw [exec_eq]
  obtain ⟨h, htake⟩ | ⟨h, htake⟩ | ⟨h1, h2, htake⟩ := takeHeader_cases v s.dec
  · exact .inl ⟨h, onDec_go (hmeaning.trans htake)⟩
  · exact .inr (.inl ⟨h, onDec_go (hmeaning.trans htake)⟩)
  · exact .inr (.inr ⟨h1, h2, by rw [onDec, hmeaning, htake]⟩)

/-- R200: in HDR_SIZE the value is the uncompressed size. -/
theorem exec_in_hdrSize {i : Instr} {v : BitVec 32} {s : State} (hv : i.headerValue = some v)
    (hphase : s.dec.phase = .hdrSize) :
    exec i s = .next (s.withDec { s.dec with usize := v, phase := .hdrBlocks }) := by
  obtain ⟨-, h⟩ | ⟨h, -⟩ | ⟨h, -, -⟩ := exec_cases_of_headerValue hv s
  · exact h
  · rw [hphase] at h; cases h
  · exact (h hphase).elim

/-- R201: in HDR_BLOCKS the value is one less than the count of blocks. -/
theorem exec_in_hdrBlocks {i : Instr} {v : BitVec 32} {s : State} (hv : i.headerValue = some v)
    (hphase : s.dec.phase = .hdrBlocks) :
    exec i s = .next (s.withDec { s.dec with nblocks := v + 1, blk := 0, phase := .blkPrefix }) := by
  obtain ⟨h, -⟩ | ⟨-, h⟩ | ⟨-, h, -⟩ := exec_cases_of_headerValue hv s
  · rw [hphase] at h; cases h
  · exact h
  · exact (h hphase).elim

/-- Settles O19: in either header phase each form hands over the value that R120 computes from its fields. -/
theorem varintsFillTheHeader : Obligations.VarintsFillTheHeader := by
  intro s low6 e1 e2 e3
  have h1 : (Instr.varint1 low6).headerValue = some (low6.setWidth 32) := rfl
  have h2 : (Instr.varint2 low6 e1).headerValue = some (low6.setWidth 32 ||| e1.setWidth 32 <<< 6) := rfl
  have h3 : (Instr.varint3 low6 e1 e2).headerValue =
      some (low6.setWidth 32 ||| e1.setWidth 32 <<< 6 ||| e2.setWidth 32 <<< 12) := rfl
  have h4 : (Instr.varint4 low6 e1 e2 e3).headerValue =
      some (low6.setWidth 32 ||| e1.setWidth 32 <<< 6 ||| e2.setWidth 32 <<< 12 ||| e3.setWidth 32 <<< 18) := rfl
  constructor
  · intro h
    exact ⟨exec_in_hdrSize h1 h, exec_in_hdrSize h2 h, exec_in_hdrSize h3 h, exec_in_hdrSize h4 h⟩
  · intro h
    exact ⟨exec_in_hdrBlocks h1 h, exec_in_hdrBlocks h2 h, exec_in_hdrBlocks h3 h, exec_in_hdrBlocks h4 h⟩

/-- Settles O20: an instruction of the header carries a value, which no other phase takes. -/
theorem varintElsewhereStopsByName : Obligations.VarintElsewhereStopsByName := by
  intro i s hplace hsize hblocks
  obtain ⟨v, hv⟩ := exists_headerValue (kind_of_place_header hplace)
  obtain ⟨h, -⟩ | ⟨h, -⟩ | ⟨-, -, h⟩ := exec_cases_of_headerValue hv s
  · exact (hsize h).elim
  · exact (hblocks h).elim
  · exact h

/-- Settles O22: a next state comes from one of the two header phases, with the field of that phase filled. -/
theorem varintFrame : Obligations.VarintFrame := by
  intro i s t hk hexec
  obtain ⟨v, hv⟩ := exists_headerValue hk
  obtain ⟨h, hnext⟩ | ⟨h, hnext⟩ | ⟨-, -, hstop⟩ := exec_cases_of_headerValue hv s
  · cases hnext.symm.trans hexec
    exact .inl ⟨h, rfl⟩
  · cases hnext.symm.trans hexec
    exact .inr ⟨h, rfl⟩
  · cases hstop.symm.trans hexec

end Sys2Proof.Machine
end

section
/-! PROOFS. What END, COPY, LZ77 and RLE leave of DEC (41_command_decoder.md R142 to R147): each of the last three appends
a list of bytes one by one, as far as the destination has room, and takes the next slot. -/

namespace Sys2Proof.Machine

open Sys2Proof

/-! ### Appending a list of bytes -/

/-- The bytes appended one after another (20_memory.md R62), stopping at the first that finds the destination full. -/
def dstAppendAll (p : Params) : Bytes → Dec → Act Dec Unit
  | [], d => .go () d
  | v :: bs, d => (dstAppend p v d).bind fun _ d' => dstAppendAll p bs d'

/-- Bytes are appended up to the first that finds the destination full. -/
theorem dstAppendAll_cases (p : Params) (bs : Bytes) (d : Dec) :
    ((∀ k < bs.length, p.dstCap ≠ some (d.dst.length + k)) ∧ dstAppendAll p bs d = .go () (d.produce bs)) ∨
    ∃ k < bs.length, p.dstCap = some (d.dst.length + k) ∧
      dstAppendAll p bs d = .raised ((d.produce (bs.take k)).raise (.dstFull (d.dst.length + k))) := by
  induction bs generalizing d with
  | nil => exact .inl ⟨nofun, by simp [dstAppendAll, Dec.produce]⟩
  | cons v bs ih =>
    by_cases hfull : p.dstCap = some d.dst.length
    · exact .inr ⟨0, by simp, hfull, by simp [dstAppendAll, dstAppend_full v hfull, Dec.produce]⟩
    · have hstep : dstAppendAll p (v :: bs) d = dstAppendAll p bs (d.produce [v]) := by
        simp [dstAppendAll, dstAppend_go v hfull, Dec.produce]
      have hdst : (d.produce [v]).produce bs = d.produce (v :: bs) := by simp [Dec.produce]
      have hlen : ∀ k, (d.produce [v]).dst.length + k = d.dst.length + (k + 1) := by
        simp [Dec.produce, Nat.add_assoc, Nat.add_comm 1]
      simp only [hstep, List.length_cons]
      obtain ⟨hroom, h⟩ | ⟨k, hk, hcap, h⟩ := ih (d.produce [v])
      · refine .inl ⟨fun k hk => ?_, hdst ▸ h⟩
        cases k with
        | zero => exact hfull
        | succ k => exact hlen k ▸ hroom k (by omega)
      · exact .inr ⟨k + 1, by omega, hlen k ▸ hcap, by rw [h, hlen]; simp [Dec.produce]⟩

/-- With room for all the bytes no append finds the destination full. -/
theorem dstCap_ne_of_roomFor {p : Params} {d : Dec} {n k : Nat} (h : d.roomFor p n = true) (hk : k < n) :
    p.dstCap ≠ some (d.dst.length + k) := by
  intro hcap
  have hle : d.dst.length + n ≤ d.dst.length + k := by simpa [Dec.roomFor, hcap] using h
  omega

/-! ### The bytes LZ77 and RLE append -/

@[simp] theorem copied_length (dst : Bytes) (dist n : Nat) : (copied dst dist n).length = n := by simp [copied]

/-- R144 (a): byte i + 1 of a copy is byte i of the copy that starts one byte later; where the distance wraps round, it
is the byte just appended. -/
theorem getD_copy_succ {dst : Bytes} {dist : Nat} (i : Nat) (h2 : 2 ≤ dist) (hle : dist ≤ dst.length) :
    dst.getD (dst.length - dist + (i + 1) % dist) 0 =
      (dst ++ [dst[dst.length - dist]]).getD (dst.length + 1 - dist + i % dist) 0 := by
  have hlt : i % dist < dist := Nat.mod_lt i (by omega)
  rw [Nat.add_mod_eq_ite, Nat.mod_eq_of_lt h2]
  split
  · have hwrap : i % dist + 1 - dist = 0 := by omega
    have hend : dst.length + 1 - dist + i % dist = dst.length := by omega
    rw [hwrap, hend, Nat.add_zero, List.getD_append_right _ _ _ _ (le_refl _), Nat.sub_self,
      List.getD_eq_getElem _ _ (by omega)]
    rfl
  · have hnext : dst.length - dist + (i % dist + 1) = dst.length + 1 - dist + i % dist := by omega
    rw [hnext, List.getD_append _ _ _ _ (by omega)]

/-- R144 (a): once its first byte is appended, the rest of a copy is a copy at the same distance. -/
theorem copied_succ {dst : Bytes} {dist : Nat} (n : Nat) (h2 : 2 ≤ dist) (hle : dist ≤ dst.length) :
    copied dst dist (n + 1) =
      dst[dst.length - dist] :: copied (dst ++ [dst[dst.length - dist]]) dist n := by
  have hfirst : dst.getD (dst.length - dist + 0 % dist) 0 = dst[dst.length - dist] := by
    rw [Nat.zero_mod, Nat.add_zero, List.getD_eq_getElem _ _ (by omega)]
  simp only [copied, List.range_succ_eq_map, List.map_cons, List.map_map, hfirst, List.length_append,
    List.length_singleton]
  congr 1
  exact List.map_congr_left fun i _ => getD_copy_succ i h2 hle

/-- R144 (a), (b): copying back byte by byte appends the last `dist` bytes, repeated. -/
theorem dstCopyBack_eq (p : Params) {dist : Nat} (n : Nat) {d : Dec} (h2 : 2 ≤ dist) (hle : dist ≤ d.dst.length) :
    dstCopyBack p dist n d = dstAppendAll p (copied d.dst dist n) d := by
  induction n generalizing d with
  | zero => rfl
  | succ n ih =>
    have hread := dstRead_go (d := d) (a := d.dst.length - dist) (by omega)
    rw [copied_succ n h2 hle, dstCopyBack, dstAppendAll, hread, Act.bind_go]
    obtain hfull | hroom := eq_or_ne p.dstCap (some d.dst.length)
    · rw [dstAppend_full _ hfull]; rfl
    · rw [dstAppend_go _ hroom]
      exact ih (by simp; omega)

theorem dstFill_eq (p : Params) (v : Byte) (n : Nat) (d : Dec) :
    dstFill p v n d = dstAppendAll p (List.replicate n v) d := by
  induction n generalizing d with
  | zero => rfl
  | succ n ih => simp [dstFill, dstAppendAll, List.replicate_succ, ih]

/-! ### The meanings -/

/-- The bytes a command appends, one by one, before it takes the next slot. -/
def Dec.AppendsOf (p : Params) (d : Dec) (i : Instr) (bs : Bytes) : Prop :=
  meaning i p d = (dstAppendAll p bs d).bind fun _ d' => .go () (advance d')

theorem Dec.appendsOf_copy (p : Params) (d : Dec) (v : Byte) : d.AppendsOf p (.copy v) [v] := by
  simp only [AppendsOf, meaning, dstAppendAll]
  cases dstAppend p v d <;> rfl

theorem Dec.appendsOf_lz77 (p : Params) {d : Dec} {dist : Nat} (n : Nat) (h2 : 2 ≤ dist)
    (hle : dist ≤ d.dst.length) : d.AppendsOf p (.lz77 dist n) (copied d.dst dist n) := by
  rw [AppendsOf, meaning, lz77, Config.format_minDist, if_neg (by omega), if_neg (by omega),
    dstCopyBack_eq p n h2 hle]

theorem Dec.appendsOf_rle (p : Params) (d : Dec) (n : Nat) (v : Byte) :
    d.AppendsOf p (.rle n v) (List.replicate n v) := by
  simp only [AppendsOf, meaning, dstFill_eq]

/-- A command that appends has appended its bytes and takes the next slot, or has appended those before the first that
found the destination full and raises DST_FULL (R239). -/
theorem exec_cases_of_appendsOf {i : Instr} {s : State} {bs : Bytes} (h : s.dec.AppendsOf s.params i bs) :
    ((∀ k < bs.length, s.params.dstCap ≠ some (s.dec.dst.length + k)) ∧
      exec i s = .next (s.withDec (advance (s.dec.produce bs)))) ∨
    ∃ k < bs.length, s.params.dstCap = some (s.dec.dst.length + k) ∧
      exec i s = .next (s.withDec ((s.dec.produce (bs.take k)).raise (.dstFull (s.dec.dst.length + k)))) := by
  rw [exec_eq]
  obtain ⟨hroom, hall⟩ | ⟨k, hk, hcap, hall⟩ := dstAppendAll_cases s.params bs s.dec
  · exact .inl ⟨hroom, onDec_go (by rw [h, hall]; rfl)⟩
  · exact .inr ⟨k, hk, hcap, onDec_raised (by rw [h, hall]; rfl)⟩

/-- With room, a command's bytes are appended and the next slot is taken. -/
theorem exec_of_roomFor {i : Instr} {s : State} {bs : Bytes} (h : s.dec.AppendsOf s.params i bs)
    (hroom : s.dec.roomFor s.params bs.length = true) :
    exec i s = .next (s.withDec (advance (s.dec.produce bs))) := by
  obtain ⟨-, hexec⟩ | ⟨k, hk, hcap, -⟩ := exec_cases_of_appendsOf h
  · exact hexec
  · exact (dstCap_ne_of_roomFor hroom hk hcap).elim

/-- With less room, those of a command's bytes that fit are appended and DST_FULL is raised (R239). -/
theorem exec_of_full {i : Instr} {s : State} {bs : Bytes} {cap : Nat} (h : s.dec.AppendsOf s.params i bs)
    (hcap : s.params.dstCap = some cap) (hle : s.dec.dst.length ≤ cap) (hlt : cap < s.dec.dst.length + bs.length) :
    exec i s = .next (s.withDec ((s.dec.produce (bs.take (cap - s.dec.dst.length))).raise (.dstFull cap))) := by
  obtain ⟨hroom, -⟩ | ⟨k, -, hk, hexec⟩ := exec_cases_of_appendsOf h
  · exact (hroom (cap - s.dec.dst.length) (by omega) (by rw [hcap, Nat.add_sub_cancel' hle])).elim
  · obtain rfl : cap = s.dec.dst.length + k := by simpa [hcap] using hk
    simpa using hexec

/-- Settles O15: the bytes of the copy are those of `copied`, with room for them and with less. -/
theorem lz77RepeatsTheLastBytes : Obligations.Lz77RepeatsTheLastBytes := by
  constructor
  · intro s d n h2 hle hroom
    exact exec_of_roomFor (Dec.appendsOf_lz77 _ n h2 hle) (by rwa [copied_length])
  · intro s d n cap h2 hle hcap hfit hlt
    exact exec_of_full (Dec.appendsOf_lz77 _ n h2 hle) hcap hfit (by rwa [copied_length])

/-- R142. -/
theorem exec_endBlock (s : State) : exec .endBlock s = .next (s.withDec { s.dec with phase := .blkCheck }) := rfl

/-- R144, D12: a reserved distance. -/
theorem exec_lz77_reserved {dist : Nat} (n : Nat) (s : State) (h : dist < 2) :
    exec (.lz77 dist n) s = .next (s.withDec (s.dec.raise (.reservedDistance dist s.dec.ipos))) := by
  obtain ⟨-, hlz⟩ | ⟨h2, -⟩ | ⟨h2, -⟩ := lz77_cases dist n s.params s.dec
  · exact onDec_raised hlz
  · omega
  · omega

/-- R144, D13: a distance that reaches before the destination's first byte. -/
theorem exec_lz77_underflow {dist : Nat} (n : Nat) {s : State} (h2 : 2 ≤ dist) (h : s.dec.dst.length < dist) :
    exec (.lz77 dist n) s = .next (s.withDec (s.dec.raise (.dstUnderflow s.dec.dst.length dist))) := by
  obtain ⟨hlt, -⟩ | ⟨-, -, hlz⟩ | ⟨-, hle, -⟩ := lz77_cases dist n s.params s.dec
  · omega
  · exact onDec_raised hlz
  · omega

/-! ### What a command can leave -/

/-- A command other than END appends the bytes it covers, or raises at once. -/
theorem appendsOf_or_raises {i : Instr} {k : CmdKind} (s : State) (hk : i.kind = some k) (hne : k ≠ .endBlock) :
    (∃ bs, bs.length = covered i ∧ s.dec.AppendsOf s.params i bs) ∨
    ∃ e, exec i s = .next (s.withDec (s.dec.raise e)) := by
  cases i with
  | endBlock => cases hk; exact (hne rfl).elim
  | copy v => exact .inl ⟨[v], rfl, Dec.appendsOf_copy _ _ v⟩
  | lz77 dist n =>
    by_cases h2 : dist < 2
    · exact .inr ⟨_, exec_lz77_reserved n s h2⟩
    · by_cases hle : s.dec.dst.length < dist
      · exact .inr ⟨_, exec_lz77_underflow n (by omega) hle⟩
      · exact .inl ⟨_, copied_length _ _ n, Dec.appendsOf_lz77 _ n (by omega) (by omega)⟩
  | rle n v => exact .inl ⟨_, List.length_replicate, Dec.appendsOf_rle _ _ n v⟩
  | varint1 | varint2 | varint3 | varint4 => cases hk

/-- What a command other than END leaves: the bytes it covers appended and the next slot taken, or a fault raised after
some of them. -/
theorem exec_cases_of_command {i : Instr} {k : CmdKind} {s t : State} (hk : i.kind = some k) (hne : k ≠ .endBlock)
    (h : exec i s = .next t) :
    (∃ bs, bs.length = covered i ∧ t = s.withDec (advance (s.dec.produce bs))) ∨
    ∃ bs e, bs.length ≤ covered i ∧ t = s.withDec ((s.dec.produce bs).raise e) := by
  obtain ⟨bs, hlen, hbs⟩ | ⟨e, hexec⟩ := appendsOf_or_raises s hk hne
  · obtain ⟨-, hexec⟩ | ⟨n, -, -, hexec⟩ := exec_cases_of_appendsOf hbs
    · cases hexec.symm.trans h
      exact .inl ⟨bs, hlen, rfl⟩
    · cases hexec.symm.trans h
      exact .inr ⟨_, _, hlen ▸ List.length_take_le' _ _, rfl⟩
  · cases hexec.symm.trans h
    exact .inr ⟨[], e, Nat.zero_le _, by simp [Dec.produce]⟩

/-- Settles O18: a command that raises nothing has left the next slot taken. -/
theorem advanceTakesTheNextSlot : Obligations.AdvanceTakesTheNextSlot := by
  intro i k s t hk hne h hph
  obtain ⟨bs, -, rfl⟩ | ⟨bs, e, -, rfl⟩ := exec_cases_of_command hk hne h
  · exact ⟨fun h3 => ⟨(advance_phase _).trans (if_pos h3), (advance_slot _).trans (if_pos h3)⟩,
      fun h3 => ⟨(advance_phase _).trans (if_neg h3), (advance_slot _).trans (if_neg h3)⟩⟩
  · exact (hph rfl).elim

theorem eq_endBlock_of_kind {i : Instr} (h : i.kind = some .endBlock) : i = .endBlock := by
  cases i with
  | endBlock => rfl
  | _ => cases h

/-- Appending and taking the next slot write phase, slot and DST only. -/
theorem advance_produce_frame (d : Dec) (bs : Bytes) :
    advance (d.produce bs) = { d with
      phase := (advance (d.produce bs)).phase, slot := (advance (d.produce bs)).slot
      dst := (advance (d.produce bs)).dst, fault := (advance (d.produce bs)).fault } := by
  unfold advance
  split
  · rfl
  · rfl

/-- Appended bytes lie from the destination's end on. -/
theorem getElem?_produce_of_outside {d : Dec} {bs : Bytes} {n a : Nat} (hlen : bs.length ≤ n)
    (ha : a < d.dst.length ∨ d.dst.length + n ≤ a) : (d.produce bs).dst[a]? = d.dst[a]? := by
  rcases ha with ha | ha
  · exact List.getElem?_append_left ha
  · rw [List.getElem?_eq_none (by simp [Dec.produce]; omega), List.getElem?_eq_none (by omega)]

/-- Settles O21: END changes the phase only; the others append, then take the next slot or raise. -/
theorem commandFrame : Obligations.CommandFrame := by
  intro i k s t hk h
  by_cases hend : k = .endBlock
  · obtain rfl := eq_endBlock_of_kind (hend ▸ hk)
    cases h
    exact ⟨rfl, fun _ => rfl, fun _ _ => rfl⟩
  · obtain ⟨bs, hlen, rfl⟩ | ⟨bs, e, hlen, rfl⟩ := exec_cases_of_command hk hend h
    · refine ⟨congrArg s.withDec (advance_produce_frame s.dec bs), fun _ => advance_fault _, fun a ha => ?_⟩
      rw [State.withDec_dec, advance_dst]
      exact getElem?_produce_of_outside hlen.le ha
    · exact ⟨rfl, fun hph => (hph rfl).elim, fun a ha => getElem?_produce_of_outside hlen ha⟩

end Sys2Proof.Machine
end

section
/-! PROOFS. The steps that fetch: the group fetch, and a step that runs the instruction its place decodes to
(41_command_decoder.md R140, R141, 10_state.md R32). -/

namespace Sys2Proof.Machine

open Sys2Proof

/-! ### A step that runs an instruction -/

@[simp] theorem Dec.decodeHere_header (p : Params) (d : Dec) : d.decodeHere p .header = decodeVarint d.remaining := rfl

@[simp] theorem Dec.decodeHere_slot (p : Params) (d : Dec) :
    d.decodeHere p .slot = decodeSlot p.codeMap d.gbyte d.slot.toNat d.remaining := rfl

theorem fetchAndRun_of_decodeHere {pl : Place} {s : State} {i : Instr} {rest : Bytes}
    (h : s.dec.decodeHere s.params pl = .ok (i, rest)) :
    fetchAndRun pl s = exec i (s.withDec (s.dec.past (s.dec.remaining.length - rest.length))) := by
  rw [fetchAndRun, fetch_go h]

theorem fetchAndRun_of_inputEnd {pl : Place} {s : State} (h : s.dec.decodeHere s.params pl = .error .inputEnd) :
    fetchAndRun pl s = .next (s.withDec
      ((s.dec.past s.dec.remaining.length).raise (.inputEnd (s.dec.ipos + s.dec.remaining.length)))) := by
  rw [fetchAndRun, fetch_end h]

theorem step_of_decAt_cmd {s : State} (h : s.decAt .cmd = true) : step s = fetchAndRun .slot s.reschedule := by
  obtain ⟨hm, hph⟩ := decAt_iff.1 h
  rw [step_dec hm, decStep, State.reschedule_dec, hph]

theorem step_of_decAt_header {s : State} (h : s.decAt .hdrSize = true ∨ s.decAt .hdrBlocks = true) :
    step s = fetchAndRun .header s.reschedule := by
  simp only [decAt_iff] at h
  obtain ⟨hm, hph⟩ | ⟨hm, hph⟩ := h
  · rw [step_dec hm, decStep, State.reschedule_dec, hph]
  · rw [step_dec hm, decStep, State.reschedule_dec, hph]

/-- Settles O23: the step fetches the instruction, which reads the bytes it decodes from. -/
theorem stepRunsTheDecodedInstruction : Obligations.StepRunsTheDecodedInstruction := by
  constructor
  · intro s i rest hat hdec
    rw [step_of_decAt_cmd hat, fetchAndRun_of_decodeHere (i := i) (rest := rest) (by simpa using hdec),
      State.reschedule_dec]
  · intro s i rest hat hdec
    rw [step_of_decAt_header hat, fetchAndRun_of_decodeHere (i := i) (rest := rest) (by simpa using hdec),
      State.reschedule_dec]

/-! ### The operands of the slot's command -/

/-- A slot whose command finds its operands runs the command, with ipos past them. -/
theorem step_of_operands {s : State} {k : CmdKind} {i : Instr} {bs rest : Bytes} (hat : s.atCommand k = true)
    (hbs : s.dec.remaining = bs ++ rest) (hdec : decodeOperands k (bs ++ rest) = .ok (i, rest)) :
    step s = exec i (s.reschedule.withDec (s.dec.past bs.length)) := by
  obtain ⟨hcmd, hkind⟩ := atCommand_iff.1 hat
  have hslot := (decodeSlot_of_kind? s.dec.remaining hkind).trans (hbs ▸ hdec)
  rw [stepRunsTheDecodedInstruction.1 s i rest hcmd hslot, hbs, List.length_append, Nat.add_sub_cancel]

/-- A slot whose command misses an operand raises INPUT_END at the end of IN, all bytes left having been read. -/
theorem step_of_missing_operand {s : State} {k : CmdKind} {bs : Bytes} (hat : s.atCommand k = true)
    (hbs : s.dec.remaining = bs) (hdec : decodeOperands k bs = .error .inputEnd) :
    step s = .next (s.reschedule.withDec ((s.dec.past bs.length).raise (.inputEnd (s.dec.ipos + bs.length)))) := by
  obtain ⟨hcmd, hkind⟩ := atCommand_iff.1 hat
  have hslot := (decodeSlot_of_kind? s.dec.remaining hkind).trans (hbs ▸ hdec)
  rw [step_of_decAt_cmd hcmd, fetchAndRun_of_inputEnd (by simpa using hslot), State.reschedule_dec, hbs]

theorem remaining_of_get_two {d : Dec} {b0 b1 : Byte} (h0 : d.inp[d.ipos]? = some b0)
    (h1 : d.inp[d.ipos + 1]? = some b1) : d.remaining = [b0, b1] ++ d.inp.drop (d.ipos + 2) := by
  have hnext : (d.past 1).remaining = b1 :: d.inp.drop (d.ipos + 2) := remaining_of_get h1
  rw [remaining_of_get h0]
  exact congrArg (b0 :: ·) hnext

theorem remaining_of_one_left {d : Dec} (h : d.inp.length = d.ipos + 1) : ∃ b, d.remaining = [b] :=
  List.length_eq_one_iff.1 (by rw [Dec.remaining, List.length_drop]; omega)

/-- Settles O13: END takes no operands. -/
theorem endStopsTheBlock : Obligations.EndStopsTheBlock :=
  ⟨exec_endBlock, fun s hat => step_of_operands (bs := []) (rest := s.dec.remaining) hat rfl rfl⟩

/-- Settles O14: the append's two outcomes, and the literal there or missing. -/
theorem copyAppendsTheLiteral : Obligations.CopyAppendsTheLiteral := by
  refine ⟨fun s v hroom => ?_, fun s v hfull => ?_, fun s v hat hv => ?_, fun s hat hend => ?_⟩
  · rw [exec_eq]
    exact onDec_go (by simp only [meaning, dstAppend_go v hroom, Act.bind_go])
  · rw [exec_eq]
    exact onDec_raised (by simp only [meaning, dstAppend_full v hfull, Act.bind_raised])
  · exact step_of_operands (bs := [v]) hat (remaining_of_get hv) rfl
  · exact step_of_missing_operand hat (remaining_of_end hend) rfl

/-- Settles O16: the two checks, and the operands there or missing. -/
theorem lz77ChecksInOrder : Obligations.Lz77ChecksInOrder := by
  refine ⟨fun s d n => exec_lz77_reserved n s, fun s d n => exec_lz77_underflow n, fun s b0 b1 hat h0 h1 => ?_,
    fun s hat hend => ?_, fun s hat hone => ?_⟩
  · exact step_of_operands hat (remaining_of_get_two h0 h1) rfl
  · exact step_of_missing_operand hat (remaining_of_end hend) rfl
  · obtain ⟨b, hb⟩ := remaining_of_one_left hone
    exact step_of_missing_operand hat hb rfl

/-- Settles O17: the run, with room for it and with less, and the operands there or missing. -/
theorem rleAppendsTheRun : Obligations.RleAppendsTheRun := by
  refine ⟨fun s c v hroom => ?_, fun s c cap v hcap hle hlt => ?_, fun s n v hat h0 h1 => ?_,
    fun s hat hend => ?_, fun s hat hone => ?_⟩
  · exact exec_of_roomFor (Dec.appendsOf_rle _ _ c v) (by rwa [List.length_replicate])
  · have hexec := exec_of_full (Dec.appendsOf_rle _ _ c v) hcap hle (by rwa [List.length_replicate])
    rwa [List.take_replicate, Nat.min_eq_left (by omega)] at hexec
  · exact step_of_operands hat (remaining_of_get_two h0 h1) rfl
  · exact step_of_missing_operand hat (remaining_of_end hend) rfl
  · obtain ⟨b, hb⟩ := remaining_of_one_left hone
    exact step_of_missing_operand hat hb rfl

/-! ### The group fetch -/

/-- Rescheduling leaves what a rule of DEC works on. -/
theorem onDec_reschedule_go {f : Params → Dec → Act Dec Unit} {s : State} {d : Dec}
    (h : f s.params s.dec = .go () d) : onDec f s.reschedule = .next (s.reschedule.withDec d) :=
  onDec_go (by rwa [State.reschedule_params, State.reschedule_dec])

theorem onDec_reschedule_raised {f : Params → Dec → Act Dec Unit} {s : State} {d : Dec}
    (h : f s.params s.dec = .raised d) : onDec f s.reschedule = .next (s.reschedule.withDec d) :=
  onDec_raised (by rwa [State.reschedule_params, State.reschedule_dec])

theorem step_of_decAt_grpFetch {s : State} (h : s.decAt .grpFetch = true) : step s = onDec grpFetch s.reschedule := by
  obtain ⟨hm, hph⟩ := decAt_iff.1 h
  rw [step_dec hm, decStep, State.reschedule_dec, hph]

/-- R148: at the bound no byte is read. -/
theorem grpFetch_bound (p : Params) {d : Dec} (h : d.gcnt = 256) :
    grpFetch p d = .go () { d with phase := .blkCheck } := by
  rw [grpFetch, h]
  rfl

/-- R140: below the bound one byte is read. -/
theorem grpFetch_below (p : Params) {d : Dec} (h : d.gcnt ≠ 256) :
    grpFetch p d = (inByte d).bind fun g d1 =>
      .go () { d1 with gbyte := g, gcnt := d1.gcnt + 1, slot := 0, phase := .cmd } :=
  if_neg fun heq => h (BitVec.eq_of_toNat_eq heq)

/-- Settles O25: the bound, the group byte and the end of IN. -/
theorem groupFetchOrBound : Obligations.GroupFetchOrBound := by
  refine ⟨fun s hat hg => ?_, fun s g hat hg hb => ?_, fun s hat hg hend => ?_⟩
  · rw [step_of_decAt_grpFetch hat, onDec_reschedule_go (grpFetch_bound _ hg)]
  · have hread := grpFetch_below s.params hg
    rw [inByte_go hb] at hread
    rw [step_of_decAt_grpFetch hat, onDec_reschedule_go hread]
    rfl
  · have hread := grpFetch_below s.params hg
    rw [inByte_end hend] at hread
    rw [step_of_decAt_grpFetch hat, onDec_reschedule_raised hread]

end Sys2Proof.Machine
end

section
/-! PROOFS. The two lengths the encoder counts, of a match and of a run (42_encoder.md R172, R174): each is the first
number from the start on at which the loop's condition fails, unless the cap comes before. -/

namespace Sys2Proof.Machine

open Sys2Proof

/-- `r` is where a loop ends that counts up from `l`, at most `fuel` times, while the count satisfies `P`. -/
structure CountsTo (P : Nat → Prop) (l fuel r : Nat) : Prop where
  ge : l ≤ r
  le : r ≤ l + fuel
  holds : ∀ k, l ≤ k → k < r → P k
  stops : r = l + fuel ∨ ¬ P r

theorem CountsTo.zero (P : Nat → Prop) (l : Nat) : CountsTo P l 0 l :=
  ⟨le_refl l, le_refl l, fun _ hge hlt => absurd hlt (not_lt.2 hge), .inl rfl⟩

theorem CountsTo.of_not {P : Nat → Prop} {l : Nat} (fuel : Nat) (h : ¬ P l) : CountsTo P l fuel l :=
  ⟨le_refl l, Nat.le_add_right l fuel, fun _ hge hlt => absurd hlt (not_lt.2 hge), .inr h⟩

theorem CountsTo.succ {P : Nat → Prop} {l fuel r : Nat} (hl : P l) (h : CountsTo P (l + 1) fuel r) :
    CountsTo P l (fuel + 1) r where
  ge := Nat.le_of_succ_le h.ge
  le := by have := h.le; omega
  holds k hge hlt := hge.eq_or_lt.elim (fun heq => heq ▸ hl) fun hgt => h.holds k hgt hlt
  stops := h.stops.imp_left fun heq => by omega

/-- R172's loop goes on while the length is below the distance, the position below the end, and the bytes agree. -/
def MatchesAt (src : Bytes) (p d be l : Nat) : Prop := l < d ∧ p + l < be ∧ src[p + l]? = src[p - d + l]?

/-- R174's loop goes on while the position is below the end and its byte is the run's. -/
def RunsAt (src : Bytes) (p be r : Nat) : Prop := p + r < be ∧ src[p + r]? = src[p]?

theorem matchFrom_countsTo (src : Bytes) (p d be fuel l : Nat) :
    CountsTo (MatchesAt src p d be) l fuel (matchFrom src p d be fuel l) := by
  induction fuel generalizing l with
  | zero => exact .zero _ l
  | succ fuel ih =>
    unfold matchFrom
    split
    case isTrue hgoes => exact .succ hgoes (ih (l + 1))
    case isFalse hstops => exact .of_not _ hstops

theorem runFrom_countsTo (src : Bytes) (p be fuel r : Nat) :
    CountsTo (RunsAt src p be) r fuel (runFrom src p be fuel r) := by
  induction fuel generalizing r with
  | zero => exact .zero _ r
  | succ fuel ih =>
    unfold runFrom
    split
    case isTrue hgoes => exact .succ hgoes (ih (r + 1))
    case isFalse hstops => exact .of_not _ hstops

/-- R172: `MatchLen` counts from 0 to at most 17. -/
theorem matchLen_countsTo (src : Bytes) (p d be : Nat) :
    CountsTo (MatchesAt src p d be) 0 17 (matchLen src p d be) := matchFrom_countsTo src p d be 17 0

/-- R174: `RunLen` counts from 1 to at most 257. -/
theorem runLen_countsTo (src : Bytes) (p be : Nat) : CountsTo (RunsAt src p be) 1 256 (runLen src p be) :=
  runFrom_countsTo src p be 256 1

/-- Settles O33: a bound holds of the length because it holds of every count before it. -/
theorem matchLengthIsMaximal : Obligations.MatchLengthIsMaximal := by
  intro src p d be
  obtain ⟨-, hle, hmatches, hstops⟩ := matchLen_countsTo src p d be
  have hbound : matchLen src p d be ≤ d := le_of_forall_lt fun l hl => (hmatches l (Nat.zero_le l) hl).1
  refine ⟨hle, hbound, le_of_forall_lt fun l hl => ?_, fun l hl => (hmatches l (Nat.zero_le l) hl).2.2, ?_⟩
  · obtain ⟨-, hin, -⟩ := hmatches l (Nat.zero_le l) hl
    omega
  · obtain hcap | hstop := hstops
    · exact .inl hcap
    · simp only [MatchesAt, not_and_or, not_lt] at hstop
      obtain hdist | hend | hdiffer := hstop
      · exact .inr (.inl (Nat.le_antisymm hbound hdist))
      · exact .inr (.inr (.inl hend))
      · exact .inr (.inr (.inr hdiffer))

/-- Settles O35: the byte at p counts, and each later one as long as the loop goes on. -/
theorem runLengthIsMaximal : Obligations.RunLengthIsMaximal := by
  intro src p be hp
  obtain ⟨hge, hle, hruns, hstops⟩ := runLen_countsTo src p be
  have hin : p + runLen src p be ≤ be := runFrom_le_limit src p be 256 1 hp
  refine ⟨hge, hle, hin, fun r hr => ?_, ?_⟩
  · cases r with
    | zero => rfl
    | succ r => exact (hruns (r + 1) (Nat.le_add_left 1 r) hr).2
  · obtain hcap | hstop := hstops
    · exact .inl hcap
    · simp only [RunsAt, not_and_or, not_lt] at hstop
      obtain hend | hdiffer := hstop
      · exact .inr (.inl (Nat.le_antisymm hin hend))
      · exact .inr (.inr hdiffer)

end Sys2Proof.Machine
end

section
/-! PROOFS. The best match (42_encoder.md R173): the descending scan keeps the greatest length among the distances it
has passed, and with it the distance LZ_TIE names. -/

namespace Sys2Proof.Machine

open Sys2Proof

section
variable {t : LzTie} {src : Bytes} {p be lo hi d : Nat} {best : Nat × Nat}

/-- `best` answers for the distances above `lo` up to `hi`: no match there is longer, and its distance is one of them
with its length, the smallest or the largest such. Where no byte matches, its distance counts under SMALLEST only. -/
structure BestAbove (t : LzTie) (src : Bytes) (p be lo hi : Nat) (best : Nat × Nat) : Prop where
  greatest : ∀ d, lo < d → d ≤ hi → matchLen src p d be ≤ best.1
  found : (t = .smallest ∧ lo < hi) ∨ 0 < best.1 → lo < best.2 ∧ best.2 ≤ hi ∧ matchLen src p best.2 be = best.1
  nearest : ∀ d, lo < d → d ≤ hi → matchLen src p d be = best.1 → 0 < best.1 →
    (t = .smallest → best.2 ≤ d) ∧ (t = .largest → d ≤ best.2)

theorem replacesBest_iff {len bestLen : Nat} :
    replacesBest t len bestLen = true ↔ bestLen < len ∨ (bestLen = len ∧ t = .smallest) := by
  cases t with
  | smallest => simp [replacesBest, Nat.le_iff_lt_or_eq]
  | largest => simp [replacesBest]

/-- Where there is no distance (0, 0) answers. -/
theorem BestAbove.of_empty (h : hi ≤ lo) : BestAbove t src p be lo hi (0, 0) where
  greatest d hlo hhi := by omega
  found hf := by simp only [lt_self_iff_false, or_false] at hf; omega
  nearest d hlo hhi := by omega

/-- The next distance down takes the place of the best so far. -/
theorem BestAbove.replace (h : BestAbove t src p be (d + 1) hi best) (hd : d + 1 ≤ hi)
    (hr : replacesBest t (matchLen src p (d + 1) be) best.1 = true) :
    BestAbove t src p be d hi (matchLen src p (d + 1) be, d + 1) where
  greatest e hlo hhi := by
    obtain rfl | hgt := Nat.eq_or_lt_of_le hlo
    · exact le_refl _
    · have hbetter := replacesBest_iff.1 hr
      exact (h.greatest e hgt hhi).trans (by omega)
  found _ := ⟨Nat.lt_succ_self d, hd, rfl⟩
  nearest e hlo hhi heq _ := ⟨fun _ => hlo, fun ht => by
    obtain rfl | hgt := Nat.eq_or_lt_of_le hlo
    · exact le_refl _
    · have hold := h.greatest e hgt hhi
      obtain hlonger | ⟨-, hs⟩ := replacesBest_iff.1 hr
      · exact absurd heq (by omega)
      · exact absurd (hs.symm.trans ht) nofun⟩

/-- The next distance down leaves the best so far. -/
theorem BestAbove.keep (h : BestAbove t src p be (d + 1) hi best)
    (hr : ¬ replacesBest t (matchLen src p (d + 1) be) best.1 = true) : BestAbove t src p be d hi best := by
  rw [replacesBest_iff, not_or, not_lt, not_and] at hr
  obtain ⟨hle, htie⟩ := hr
  have hfound (hpos : 0 < best.1) := h.found (.inr hpos)
  refine ⟨fun e hlo hhi => ?_, fun hf => ?_, fun e hlo hhi heq hpos => ?_⟩
  · obtain rfl | hgt := Nat.eq_or_lt_of_le hlo
    · exact hle
    · exact h.greatest e hgt hhi
  · have hpos : 0 < best.1 := hf.elim (fun hs => Nat.pos_of_ne_zero fun h0 => htie (by omega) hs.1) id
    obtain ⟨hgt, hrest⟩ := hfound hpos
    exact ⟨Nat.lt_of_succ_lt hgt, hrest⟩
  · obtain rfl | hgt := Nat.eq_or_lt_of_le hlo
    · exact ⟨fun hs => absurd hs (htie heq.symm), fun _ => (hfound hpos).1.le⟩
    · exact h.nearest e hgt hhi heq hpos

/-- The scan from `d + 1` down to 2 goes on from the best above `d + 1` to the best of all. -/
theorem bestScan_bestAbove (h : BestAbove t src p be (d + 1) hi best) (hd : d + 1 ≤ hi) :
    BestAbove t src p be 1 hi (bestScan t src p be (d + 1) best) := by
  induction d generalizing best with
  | zero => exact h
  | succ d ih =>
    rw [bestScan, if_neg (by rw [Config.format_minDist]; omega)]
    refine ih ?_ (Nat.le_of_succ_le hd)
    split
    case isTrue hr => exact h.replace hd hr
    case isFalse hr => exact h.keep hr

end

theorem bestLz_of_reach_lt_two {reach : Nat} (t : LzTie) (src : Bytes) (p be : Nat) (h : reach < 2) :
    bestLz t src p reach be = (0, 0) := by
  obtain rfl | rfl : reach = 0 ∨ reach = 1 := by omega
  · rfl
  · rfl

/-- R173: `BestLz` answers for the distances 2 to min(reach, 4095). -/
theorem bestLz_bestAbove (t : LzTie) (src : Bytes) (p reach be : Nat) :
    BestAbove t src p be 1 (min reach 4095) (bestLz t src p reach be) := by
  by_cases hreach : reach < 2
  · rw [bestLz_of_reach_lt_two t src p be hreach]
    exact .of_empty (by omega)
  · obtain ⟨d, hd⟩ : ∃ d, min reach 4095 = d + 1 := Nat.exists_eq_add_one.2 (by omega)
    rw [bestLz, Config.format_window, hd]
    exact bestScan_bestAbove (.of_empty (le_refl _)) (le_refl _)

/-- Settles O34: `BestLz` keeps what its scan keeps, from the largest candidate distance down. -/
theorem bestMatchIsGreatestThenNearest : Obligations.BestMatchIsGreatestThenNearest := by
  intro t src p reach be
  have h := bestLz_bestAbove t src p reach be
  exact ⟨bestLz_of_reach_lt_two t src p be, h.greatest,
    fun hreach hf => h.found (hf.imp_left fun hs => ⟨hs, by omega⟩), h.nearest⟩

end Sys2Proof.Machine
end

section
/-! PROOFS. The selector and the command it selects (42_encoder.md R175 to R182). -/

namespace Sys2Proof.Machine

open Sys2Proof

/-- Settles O36: the selector's two tests. -/
theorem selectorTakesTheBest : Obligations.SelectorTakesTheBest := by
  intro lzLen lzDist rleCnt v
  unfold select
  refine ⟨fun hnone => if_pos hnone, fun hsome hlonger => ?_, fun hsome hties => ?_⟩
  · rw [if_neg (not_le.2 hsome), if_pos hlonger]
  · rw [if_neg (not_le.2 hsome), if_neg (not_lt.2 hties)]

/-- R176 to R178: what the selected command is, and which source bytes it stands for. -/
theorem choose_cases {p : Params} {v : Byte} {c : Enc} (hv : c.src[c.p]? = some v) (hlt : c.p < c.limit p) :
    (choose p v c = .copy v) ∨
    (∃ d n, choose p v c = .lz77 d n ∧ 2 ≤ d ∧ d ≤ min (c.reach p) 4095 ∧ 2 ≤ n ∧ n ≤ min 17 d ∧
      ∀ l, l < n → c.src[c.p + l]? = c.src[c.p - d + l]?) ∨
    (∃ r, choose p v c = .rle r v ∧ 2 ≤ r ∧ r ≤ 257 ∧ ∀ l, l < r → c.src[c.p + l]? = some v) := by
  rcases hb : bestLz p.lzTie c.src c.p (c.reach p) (c.limit p) with ⟨len, dist⟩
  have hchoose : choose p v c = select len dist (runLen c.src c.p (c.limit p)) v := by rw [choose, hb]
  rw [hchoose]
  obtain hs | ⟨hn2, hs⟩ | ⟨hr2, hs⟩ := select_cases len dist (runLen c.src c.p (c.limit p)) v
  · exact .inl hs
  · have hbest := bestLz_bestAbove p.lzTie c.src c.p (c.reach p) (c.limit p)
    rw [hb] at hbest
    obtain ⟨hd2, hreach, hlen⟩ := hbest.found (.inr (Nat.zero_lt_of_lt hn2))
    obtain ⟨h17, hd, -, hagree, -⟩ := matchLengthIsMaximal c.src c.p dist (c.limit p)
    rw [hlen] at h17 hd hagree
    exact .inr (.inl ⟨dist, len, hs, hd2, hreach, hn2, le_min h17 hd, hagree⟩)
  · obtain ⟨-, h257, -, hsame, -⟩ := runLengthIsMaximal c.src c.p (c.limit p) hlt
    exact .inr (.inr ⟨_, hs, hr2, h257, fun l hl => (hsame l hl).trans hv⟩)

/-- R182: the selected command is one an encoding can hold and the decoder does not refuse. -/
theorem choose_legal {p : Params} {v : Byte} {c : Enc} (hv : c.src[c.p]? = some v) (hlt : c.p < c.limit p) :
    (choose p v c).wf = true ∧ (choose p v c).reserved = false := by
  obtain hs | ⟨d, n, hs, hd2, hreach, hn2, hn, -⟩ | ⟨r, hs, h2, h257, -⟩ := choose_cases hv hlt
  · rw [hs]
    exact ⟨rfl, rfl⟩
  · rw [hs]
    exact ⟨wf_lz77_iff.2 ⟨by omega, hn2, by omega⟩, decide_eq_false (not_lt.2 hd2)⟩
  · rw [hs]
    exact ⟨wf_rle_iff.2 ⟨h2, h257⟩, rfl⟩

/-- Settles O37: a command costs operands only for bytes it covers, so the one selected covers some. -/
theorem selectedCommandsAreLegal : Obligations.SelectedCommandsAreLegal := by
  intro p v c hv hlt
  obtain ⟨hwf, hreserved⟩ := choose_legal hv hlt
  have hcost := operands_choose_le p v c
  exact ⟨hwf, hreserved, by omega, covered_choose_le_limit p v c hlt, choose_cases hv hlt⟩

end Sys2Proof.Machine
end

section
/-! PROOFS. The encoder's steps inside a block: GRP_OPEN, SLOT and GRP_CLOSE (42_encoder.md R170, R171, R179). -/

namespace Sys2Proof.Machine

open Sys2Proof

/-! ### From a rule to the step -/

/-- Where ENC moves and its rule goes on, the step replaces ENC by what the rule leaves. -/
theorem step_of_encAt_go {s : State} {ph : EncPhase} {c : Enc} (hat : s.encAt ph = true)
    (hgo : encRule s.params s.enc = .go () c) : step s = .next (s.reschedule.withEnc c) := by
  rw [step_enc (encAt_iff.1 hat).1, encStep, onEnc_go (by rwa [State.reschedule_params, State.reschedule_enc])]

theorem encRule_grpOpen {p : Params} {c : Enc} (h : c.phase = .grpOpen) : encRule p c = encGrpOpen p c := by
  rw [encRule, h]

theorem encRule_slot {p : Params} {c : Enc} (h : c.phase = .slot) : encRule p c = encSlot p c := by
  rw [encRule, h]

theorem encRule_grpClose {p : Params} {c : Enc} (h : c.phase = .grpClose) : encRule p c = encGrpClose p c := by
  rw [encRule, h]

/-! ### The steps -/

/-- Settles O41: under LOOKAHEAD = BLOCK_END a block is exhausted at its end only. -/
theorem groupOpens : Obligations.GroupOpens := by
  refine ⟨fun s hat hla hend => step_of_encAt_go hat ?_, fun s hat hla hleft => step_of_encAt_go hat ?_⟩
  · rw [encRule_grpOpen (encAt_iff.1 hat).2, encGrpOpen, if_pos ((Enc.exhausted_iff hla).2 hend)]
  · rw [encRule_grpOpen (encAt_iff.1 hat).2, encGrpOpen, if_neg (mt (Enc.exhausted_iff hla).1 hleft)]
    rfl

/-- R171: a full group, or one whose block is exhausted, closes. -/
theorem encSlot_closes {p : Params} {c : Enc} (hla : p.lookahead = .blockEnd) (h : c.slot = 4 ∨ c.p = c.be) :
    encSlot p c = .go () { c with phase := .grpClose } :=
  if_pos (h.imp (congrArg BitVec.toNat) (Enc.exhausted_iff hla).2)

/-- R171: otherwise one command is selected and emitted. -/
theorem encSlot_emits {p : Params} {c : Enc} {v : Byte} (hla : p.lookahead = .blockEnd) (hslot : c.slot ≠ 4)
    (hleft : c.p ≠ c.be) (hbe : c.be ≤ c.src.length) (hv : c.src[c.p]? = some v) :
    encSlot p c = .go () (emit p (choose p v c) c) := by
  have hopen : ¬ (c.slot.toNat = Config.format.slots ∨ c.exhausted p = true) :=
    not_or.2 ⟨fun h4 => hslot (BitVec.eq_of_toNat_eq h4), mt (Enc.exhausted_iff hla).1 hleft⟩
  have hin : ¬ c.src.length < c.limit p := by
    rw [Enc.limit, hla]
    exact not_lt.2 hbe
  rw [encSlot, if_neg hopen, if_neg hin, srcRead_go hv, Act.bind_go]

/-- Settles O42: the command emitted is the one selected from the best match and the run. -/
theorem slotEmitsOneCommand : Obligations.SlotEmitsOneCommand := by
  refine ⟨fun s hat hla hclose => step_of_encAt_go hat ?_,
    fun s v i k best hat hla hslot hleft hbe hv hbest hi hk => step_of_encAt_go hat ?_⟩
  · rw [encRule_slot (encAt_iff.1 hat).2, encSlot_closes hla hclose]
  · have hchoose : choose s.params v s.enc = i := by
      rw [choose, Enc.limit, hla, hi, hbest]
    rw [encRule_slot (encAt_iff.1 hat).2, encSlot_emits hla hslot hleft hbe hv, hchoose, emit,
      emitCode_of_kind s.params.codeMap hk]
    rfl

/-- R179: a group byte that uses the slots before `slot` only holds code 0 from there on. -/
theorem slotCode_of_lt {g : Byte} {slot j : Nat} (hg : g.toNat < 4 ^ slot) (hj : slot ≤ j) : slotCode g j = 0 := by
  have hlt : g.toNat < 4 ^ j := hg.trans_le (Nat.pow_le_pow_right (by omega) hj)
  exact BitVec.eq_of_toNat_eq (by rw [toNat_slotCode, Nat.div_eq_of_lt hlt]; rfl)

/-- Settles O43: the patch is inside OUT, and the invariant bounds the group byte by the slots filled. -/
theorem groupByteIsPatched : Obligations.GroupByteIsPatched := by
  refine ⟨fun s hat hgpos => step_of_encAt_go hat ?_, fun s j hinv hph hj => ?_⟩
  · rw [encRule_grpClose (encAt_iff.1 hat).2, encGrpClose, outPatch_go _ hgpos, Act.bind_go]
  · exact slotCode_of_lt (hinv.enc.unused (by rw [hph]; rfl)) hj

end Sys2Proof.Machine
end

section
/-! PROOFS. The decoder's side of the block framer: the header fields, a block's size bytes, the block check and the
stream check (43_block_framer.md R200 to R205). -/

namespace Sys2Proof.Machine

open Sys2Proof

/-! ### From a rule to the step -/

/-- Where DEC moves and its rule goes on, the step replaces DEC by what the rule leaves. -/
theorem step_of_decAt_go {s : State} {ph : DecPhase} {d : Dec} (hat : s.decAt ph = true)
    (hgo : decRule s.params s.dec = .go () d) : step s = .next (s.reschedule.withDec d) := by
  rw [step_dec (decAt_iff.1 hat).1, decStep_eq, onDec_reschedule_go hgo]

/-- Where DEC moves and its rule raises, the step replaces DEC by what the rule leaves. -/
theorem step_of_decAt_raised {s : State} {ph : DecPhase} {d : Dec} (hat : s.decAt ph = true)
    (hraise : decRule s.params s.dec = .raised d) : step s = .next (s.reschedule.withDec d) := by
  rw [step_dec (decAt_iff.1 hat).1, decStep_eq, onDec_reschedule_raised hraise]

section
variable {p : Params} {d : Dec}

theorem decRule_header (h : d.phase = .hdrSize ∨ d.phase = .hdrBlocks) :
    decRule p d = (fetch .header p d).bind fun i d' => meaning i p d' := by
  obtain h | h := h
  · rw [decRule, h]
  · rw [decRule, h]

theorem decRule_blkPrefix (h : d.phase = .blkPrefix) : decRule p d = blkPrefix p d := by rw [decRule, h]

theorem decRule_grpFetch (h : d.phase = .grpFetch) : decRule p d = grpFetch p d := by rw [decRule, h]

theorem decRule_cmd (h : d.phase = .cmd) :
    decRule p d = (fetch .slot p d).bind fun i d' => meaning i p d' := by rw [decRule, h]

theorem decRule_blkCheck (h : d.phase = .blkCheck) : decRule p d = blkCheck p d := by rw [decRule, h]

theorem decRule_streamCheck (h : d.phase = .streamCheck) : decRule p d = streamCheck p d := by rw [decRule, h]

end

/-! ### The header fields -/

/-- A varint read is its first byte and its extra bytes (R98). -/
theorem length_of_decodeVarint {bs rest : Bytes} {i : Instr} (h : decodeVarint bs = .ok (i, rest)) :
    bs.length = i.operands.length + 1 + rest.length := by
  obtain ⟨-, -, hbs⟩ := encode_of_decodeVarint CodeMap.spec h
  rw [hbs, List.length_append, encode, List.length_cons]

/-- Reading all that is left of IN ends at its end, or stays where nothing is left. -/
theorem ipos_add_remaining (d : Dec) : d.ipos + d.remaining.length = max d.ipos d.inp.length := by
  rw [Dec.remaining, List.length_drop]
  omega

/-- A header step runs its varint, ipos past the bytes read. -/
theorem step_of_header {s : State} {i : Instr} {rest : Bytes}
    (hat : s.decAt .hdrSize = true ∨ s.decAt .hdrBlocks = true) (hdec : decodeVarint s.dec.remaining = .ok (i, rest)) :
    step s = exec i (s.reschedule.withDec (s.dec.past (i.operands.length + 1))) := by
  rw [stepRunsTheDecodedInstruction.2 s i rest hat hdec, length_of_decodeVarint hdec, Nat.add_sub_cancel]

/-- Settles O24: the varint read is run in its phase, and R121 bounds its value. -/
theorem headerStepsReadTheFields : Obligations.HeaderStepsReadTheFields := by
  refine ⟨fun s i v rest hat hdec hv => ?_, fun s i v rest hat hdec hv => ?_, fun s hat hend => ?_⟩
  · rw [step_of_header (.inl hat) hdec]
    exact exec_in_hdrSize hv (decAt_iff.1 hat).2
  · have hle := varintValueRange.1 _ _ i v hdec hv
    refine ⟨BitVec.toNat_add_of_lt (show v.toNat + 1 < 2 ^ 32 by omega), by omega, ?_⟩
    rw [step_of_header (.inr hat) hdec]
    exact exec_in_hdrBlocks hv (decAt_iff.1 hat).2
  · rw [step_of_decAt_header hat, fetchAndRun_of_inputEnd (by simpa using hend), State.reschedule_dec, Dec.past,
      ipos_add_remaining]

/-! ### The size bytes of a block -/

/-- R65: the two size bytes are little-endian. -/
theorem toNat_prefixValue (b0 b1 : Byte) : (prefixValue b0 b1).toNat = b0.toNat + 256 * b1.toNat := by
  have h0 := b0.isLt
  have h1 := b1.isLt
  have hhigh : (b1.setWidth 16 <<< 8).toNat = b1.toNat <<< 8 := by
    rw [BitVec.toNat_shiftLeft, BitVec.toNat_setWidth, Nat.shiftLeft_eq, Nat.shiftLeft_eq]
    omega
  rw [prefixValue, BitVec.toNat_or, hhigh, BitVec.toNat_setWidth, Nat.mod_eq_of_lt (by omega), Nat.or_comm,
    ← Nat.shiftLeft_add_eq_or_of_lt h0, Nat.shiftLeft_eq]
  omega

theorem prefixValue_eq (b0 b1 : Byte) : prefixValue b0 b1 = BitVec.ofNat 16 (b0.toNat + 256 * b1.toNat) := by
  rw [← toNat_prefixValue, BitVec.ofNat_toNat, BitVec.setWidth_eq]

/-- Settles O26: the two size bytes there, or the first or the second missing. -/
theorem blockPrefixIsRead : Obligations.BlockPrefixIsRead := by
  refine ⟨fun s b0 b1 hat h0 h1 => ?_, fun s hat hend => ?_, fun s hat hone => ?_⟩
  · refine step_of_decAt_go hat ?_
    have hread : inByte (s.dec.past 1) = .go b1 (s.dec.past 2) := inByte_go h1
    rw [decRule_blkPrefix (decAt_iff.1 hat).2, blkPrefix, inByte_go h0, Act.bind_go, hread, Act.bind_go, prefixValue_eq]
    rfl
  · refine step_of_decAt_raised hat ?_
    rw [decRule_blkPrefix (decAt_iff.1 hat).2, blkPrefix, inByte_end hend, Act.bind_raised]
  · refine step_of_decAt_raised hat ?_
    obtain ⟨b, hb⟩ : ∃ b, s.dec.inp[s.dec.ipos]? = some b := ⟨_, List.getElem?_eq_getElem (by omega)⟩
    have hread : inByte (s.dec.past 1) = .raised ((s.dec.past 1).raise (.inputEnd (s.dec.ipos + 1))) :=
      inByte_end hone.le
    rw [decRule_blkPrefix (decAt_iff.1 hat).2, blkPrefix, inByte_go hb, Act.bind_go, hread, Act.bind_raised]

/-! ### The checks -/

/-- R203, R247: the block check passes unless DEC is strict and the sizes differ. -/
theorem Dec.blockMismatch_eq_false_iff {d : Dec} :
    d.blockMismatch = false ↔ (d.strict = false ∨ d.ipos - d.bstart = d.bsize.toNat) := by
  cases hs : d.strict with
  | false => simp [Dec.blockMismatch, hs]
  | true => simp [Dec.blockMismatch, Dec.consumed, hs]

/-- R205, R247: the stream check passes unless DEC is strict and the sizes differ. -/
theorem Dec.sizeMismatch_eq_false_iff {d : Dec} :
    d.sizeMismatch = false ↔ (d.strict = false ∨ d.dst.length = d.usize.toNat) := by
  cases hs : d.strict with
  | false => simp [Dec.sizeMismatch, hs]
  | true => simp [Dec.sizeMismatch, hs]

/-- R203: a block that passes its check is counted, and the next one is read where `nextPrefix` says. -/
theorem blkCheck_passes (p : Params) {d : Dec} (h : d.blockMismatch = false) :
    blkCheck p d = if d.blk + 1 < d.nblocks
      then .go () { d with blk := d.blk + 1, ipos := d.nextPrefix p, phase := .blkPrefix }
      else .go () { d with blk := d.blk + 1, phase := .streamCheck } := by
  rw [blkCheck, if_neg (by simp [h])]

/-- DEC after a block that passes its check, ipos staying (R203, R204). -/
def Dec.afterCheck (d : Dec) : Dec :=
  { d with blk := d.blk + 1, phase := if d.blk + 1 < d.nblocks then .blkPrefix else .streamCheck }

/-- R204: under NONSTRICT_RESYNC = NONE, and in strict mode, the next block is read where the one checked ended. -/
theorem blkCheck_passes_in_place {p : Params} {d : Dec} (hstay : p.resync = .stay ∨ d.strict = true)
    (h : d.blockMismatch = false) : blkCheck p d = .go () d.afterCheck := by
  rw [blkCheck_passes _ h, Dec.nextPrefix_eq_ipos hstay, Dec.afterCheck]
  split
  · rfl
  · rfl

theorem blkCheck_raises (p : Params) {d : Dec} (h : d.blockMismatch = true) :
    blkCheck p d = .raised (d.raise (.blockSizeMismatch d.blk.toNat d.bsize.toNat (d.ipos - d.bstart))) := if_pos h

theorem streamCheck_passes (p : Params) {d : Dec} (h : d.sizeMismatch = false) :
    streamCheck p d = .go () { d with phase := .done, result := d.dst } := by
  rw [streamCheck, if_neg (by simp [h])]

theorem streamCheck_raises (p : Params) {d : Dec} (h : d.sizeMismatch = true) :
    streamCheck p d = .raised (d.raise (.uncompressedSizeMismatch d.usize.toNat d.dst.length)) := if_pos h

/-- Settles O27: the check's outcomes, and the bytes consumed from the invariant's bounds on a block's groups. -/
theorem blockCheckCompares : Obligations.BlockCheckCompares := by
  refine ⟨fun s hat hs hne => ?_, fun s hat hstay hok => ?_, fun s hinv hph => ?_⟩
  · have hbad : s.dec.blockMismatch = true := by simp [Dec.blockMismatch, Dec.consumed, hs, hne]
    exact step_of_decAt_raised hat (by rw [decRule_blkCheck (decAt_iff.1 hat).2, blkCheck_raises _ hbad])
  · refine step_of_decAt_go hat ?_
    rw [decRule_blkCheck (decAt_iff.1 hat).2,
      blkCheck_passes_in_place (.inl hstay) (Dec.blockMismatch_eq_false_iff.2 hok), Dec.afterCheck]
  · obtain ⟨hread, hbound⟩ := hinv.dec.consumed (by rw [hph]; rfl)
    rw [Dec.consumedBound_of_ne_cmd (by simp [hph])] at hbound
    have hfetched := hinv.dec.fetched (.inr hph)
    have hgroups := hinv.dec.gcnt
    omega

/-- Settles O28: the check's two outcomes. -/
theorem streamCheckCompares : Obligations.StreamCheckCompares := by
  refine ⟨fun s hat hs hne => ?_, fun s hat hok => ?_⟩
  · have hbad : s.dec.sizeMismatch = true := by simp [Dec.sizeMismatch, hs, hne]
    exact step_of_decAt_raised hat (by rw [decRule_streamCheck (decAt_iff.1 hat).2, streamCheck_raises _ hbad])
  · refine step_of_decAt_go hat ?_
    rw [decRule_streamCheck (decAt_iff.1 hat).2, streamCheck_passes _ (Dec.sizeMismatch_eq_false_iff.2 hok)]

end Sys2Proof.Machine
end

section
/-! PROOFS. The encoder's side of the block framer: CHECK, HEADER, BLK_OPEN and BLK_CLOSE (43_block_framer.md R209 to
R214). -/

namespace Sys2Proof.Machine

open Sys2Proof

/-! ### From a rule to the step -/

/-- Where ENC moves and its rule raises, the step replaces ENC by what the rule leaves. -/
theorem step_of_encAt_raised {s : State} {ph : EncPhase} {c : Enc} (hat : s.encAt ph = true)
    (hraise : encRule s.params s.enc = .raised c) : step s = .next (s.reschedule.withEnc c) := by
  rw [step_enc (encAt_iff.1 hat).1, encStep, onEnc_raised (by rwa [State.reschedule_params, State.reschedule_enc])]

section
variable {p : Params} {c : Enc}

theorem encRule_check (h : c.phase = .check) : encRule p c = encCheck p c := by rw [encRule, h]

theorem encRule_header (h : c.phase = .header) : encRule p c = encHeader p c := by rw [encRule, h]

theorem encRule_blkOpen (h : c.phase = .blkOpen) : encRule p c = encBlkOpen p c := by rw [encRule, h]

theorem encRule_blkClose (h : c.phase = .blkClose) : encRule p c = encBlkClose p c := by rw [encRule, h]

/-! ### CHECK and HEADER -/

theorem encCheck_empty (p : Params) (h : c.n = 0) : encCheck p c = .raised (c.raise .emptyInput) := if_pos h

theorem encCheck_long (p : Params) (h : 2 ^ 24 - 1 < c.n) : encCheck p c = .raised (c.raise (.varintRange c.n)) := by
  rw [encCheck, if_neg (by omega)]
  exact if_pos h

theorem encCheck_accepts (p : Params) (h1 : 1 ≤ c.n) (h : c.n ≤ 2 ^ 24 - 1) :
    encCheck p c = .go () { c with phase := .header } := by
  rw [encCheck, if_neg (by omega)]
  exact if_neg (not_lt.2 h)

theorem varintWrite_go {v : Nat} (p : Params) (c : Enc) (h : v ≤ 2 ^ 24 - 1) :
    varintWrite p v c = .go () (outAppend (varintBytes p.varintForm v) c) := if_neg (not_lt.2 h)

/-- R210: the two varints, of N and of one less than the block count. -/
theorem encHeader_go (p : Params) (h1 : 1 ≤ c.n) (h : c.n ≤ 2 ^ 24 - 1) :
    encHeader p c = .go () { c with
      nblocks := ceilDiv c.n 512
      out := c.out ++ varintBytes p.varintForm c.n ++ varintBytes p.varintForm (ceilDiv c.n 512 - 1)
      blk := 0
      p := 0
      phase := .blkOpen } := by
  have hcount : 1 ≤ ceilDiv c.n 512 ∧ ceilDiv c.n 512 - 1 ≤ 2 ^ 24 - 1 := by
    rw [ceilDiv]
    omega
  simp only [encHeader, Config.format_blockSize]
  rw [varintWrite_go p _ h, Act.bind_go, outAppend_nblocks, if_neg (Nat.ne_of_gt hcount.1),
    varintWrite_go p _ hcount.2, Act.bind_go]
  rfl

end

/-- Settles O38: the three ranges of N. -/
theorem checkRefusesTheRange : Obligations.CheckRefusesTheRange := by
  refine ⟨fun s hat h0 => ?_, fun s hat hlong => ?_, fun s hat h1 hn => ?_⟩
  · exact step_of_encAt_raised hat (by rw [encRule_check (encAt_iff.1 hat).2, encCheck_empty _ h0])
  · exact step_of_encAt_raised hat (by rw [encRule_check (encAt_iff.1 hat).2, encCheck_long _ hlong])
  · exact step_of_encAt_go hat (by rw [encRule_check (encAt_iff.1 hat).2, encCheck_accepts _ h1 hn])

/-- Settles O39: both varints are in VARINT.ENC's range. -/
theorem headerIsWritten : Obligations.HeaderIsWritten := by
  intro s hat h1 hn
  refine ⟨by omega, step_of_encAt_go hat ?_⟩
  rw [encRule_header (encAt_iff.1 hat).2, encHeader_go _ h1 hn]
  rfl

/-! ### BLK_OPEN -/

/-- Settles O40: the invariant's block count and opening position, and the rule. -/
theorem blockOpens : Obligations.BlockOpens := by
  refine ⟨fun s hinv hla hph => ?_, fun s hat => step_of_encAt_go hat ?_⟩
  · have hopened := (hinv.enc.framed hla).opened hph
    have hblk := hinv.enc.blk (.inr hph)
    have hcount := hinv.enc.nblocks (by rw [hph]; rfl)
    rw [ceilDiv] at hcount
    exact ⟨hopened.symm, fun hnext => by omega, fun hlast => by omega⟩
  · rw [encRule_blkOpen (encAt_iff.1 hat).2]
    rfl

/-! ### BLK_CLOSE -/

/-- ENC at the end of BLK_CLOSE: the end mark written, the block's size in its two bytes, the block counted
(R212). -/
def closedBlock (c : Enc) : Enc :=
  { endMark c with
    out := ((endMark c).out.set c.ppos (prefixLow (endMark c).blockBytes)).set (c.ppos + 1)
      (prefixHigh (endMark c).blockBytes)
    blk := c.blk + 1 }

/-- R212: a block whose size two bytes hold is closed, and the next is opened or the compress is done. -/
theorem encBlkClose_go (p : Params) {c : Enc} (hprefix : c.ppos + 2 ≤ (endMark c).out.length)
    (hsize : (endMark c).blockBytes ≤ 65535) :
    encBlkClose p c = if c.blk + 1 < c.nblocks then .go () { closedBlock c with phase := .blkOpen }
      else .go () { closedBlock c with phase := .done, result := (closedBlock c).out } := by
  have hlow : (endMark c).ppos < (endMark c).out.length := by rw [endMark_ppos]; omega
  have hhigh : (endMark c).ppos + 1 <
      ((endMark c).out.set (endMark c).ppos (prefixLow (endMark c).blockBytes)).length := by
    rw [List.length_set, endMark_ppos]
    omega
  rw [encBlkClose]
  dsimp only
  rw [Config.format_prefixMax, if_neg (not_lt.2 hsize), outPatch_go _ hlow, Act.bind_go, outPatch_go _ hhigh,
    Act.bind_go]
  simp only [closedBlock, endMark_blk, endMark_nblocks, endMark_ppos]

theorem encBlkClose_raises (p : Params) {c : Enc} (hsize : 65535 < (endMark c).blockBytes) :
    encBlkClose p c = .raised ((endMark c).raise (.blockSizeRange (endMark c).blockBytes)) := if_pos hsize

/-- The end mark changes OUT only. -/
theorem endMark_eq (c : Enc) : endMark c = { c with out := if c.slot = 4 then c.out ++ [0] else c.out } := by
  have hslot : c.slot.toNat = 4 ↔ c.slot = 4 := ⟨fun h => BitVec.eq_of_toNat_eq h, fun h => by rw [h]; rfl⟩
  rw [endMark, Config.format_slots]
  by_cases h : c.slot = 4
  · rw [if_pos (hslot.2 h), if_pos h]
    rfl
  · rw [if_neg (mt hslot.1 h), if_neg h]

/-- Settles O44: the size counts the bytes behind the two size bytes, the end mark among them. -/
theorem blockCloses : Obligations.BlockCloses := by
  intro s out size hat hout hprefix hsize
  have hrule := encRule_blkClose (p := s.params) (encAt_iff.1 hat).2
  have hmark : endMark s.enc = { s.enc with out := out } := by rw [endMark_eq, hout]
  have hbytes : (endMark s.enc).blockBytes = size := by rw [hmark, hsize]; rfl
  have hgo (hle : size ≤ 0xFFFF) := encBlkClose_go s.params (c := s.enc) (by rwa [hmark]) (by rwa [hbytes])
  have hclosed : closedBlock s.enc = { s.enc with
      out := (out.set s.enc.ppos (BitVec.ofNat 8 size)).set (s.enc.ppos + 1) (BitVec.ofNat 8 (size / 256))
      blk := s.enc.blk + 1 } := by
    rw [closedBlock, hbytes, hmark]
    rfl
  refine ⟨fun hlong => step_of_encAt_raised hat ?_, fun hle hnext => step_of_encAt_go hat ?_,
    fun hle hlast => step_of_encAt_go hat ?_⟩
  · rw [hrule, encBlkClose_raises _ (by rwa [hbytes]), hbytes, hmark]
  · rw [hrule, hgo hle, if_pos hnext, hclosed]
  · rw [hrule, hgo hle, if_neg (not_lt.2 hlast), hclosed]

/-- R214: a closed block has at most 641 bytes: 640 for the 512 source bytes at most, and the end mark. -/
theorem Enc.Inv.blockBytes_endMark_le {p : Params} {c : Enc} (h : c.Inv p) (hla : p.lookahead = .blockEnd)
    (hph : c.phase = .blkClose) : (endMark c).blockBytes ≤ 641 := by
  have hin : c.phase.inBlock = true := by rw [hph]; rfl
  obtain ⟨hbs, hbe⟩ := h.bounds hin
  have hwithin := (h.framed hla).within hin
  have hclose := (h.framed hla).closeSize (.inr hph)
  have hmark : (endMark c).blockBytes ≤ c.blockBytes + 1 := by
    unfold endMark
    split
    · rw [(h.inBlock hin).blockBytes_append (bs := [0]) (c' := outAppend [0] c) rfl rfl]
      exact le_refl _
    · exact Nat.le_succ _
  unfold Enc.taken at hclose
  omega

/-- BLK_CLOSE closes its block in every state that meets the invariant. -/
theorem Enc.Inv.encBlkClose_eq {p : Params} {c : Enc} (h : c.Inv p) (hla : p.lookahead = .blockEnd)
    (hph : c.phase = .blkClose) :
    encBlkClose p c = if c.blk + 1 < c.nblocks then .go () { closedBlock c with phase := .blkOpen }
      else .go () { closedBlock c with phase := .done, result := (closedBlock c).out } := by
  have hsize := h.blockBytes_endMark_le hla hph
  have hprefix := (h.inBlock (by rw [hph]; rfl)).endMark.ppos_lt
  rw [endMark_ppos] at hprefix
  exact encBlkClose_go p hprefix (by omega)

/-- Settles O53: the size is in R214's bound, and so two bytes hold it. -/
theorem blockSizeIsAtMost641 : Obligations.BlockSizeIsAtMost641 := by
  intro s t hinv hla hat hstep
  obtain ⟨hm, hph⟩ := encAt_iff.1 hat
  refine ⟨hinv.enc.blockBytes_endMark_le hla hph, ?_⟩
  obtain ⟨c, hc, rfl⟩ := step_next_of_mover_enc hm hstep
  rw [encRule_blkClose hph, hinv.enc.encBlkClose_eq hla hph] at hc
  split at hc
  · obtain hc | hc := hc
    · cases hc; nofun
    · cases hc
  · obtain hc | hc := hc
    · cases hc; nofun
    · cases hc

end Sys2Proof.Machine
end

section
/-! PROOFS. A decompress with DEC alone at work: its steps are the iterates of one function of DEC, which end within a
number of steps bounded by the input (43_block_framer.md R207, 70_reset_and_hazards.md R272). -/

namespace Sys2Proof.Machine

open Sys2Proof

/-! ### Iterating to an end -/

/-- A function that keeps `P` and lowers a measure until `stop` comes to `stop` within the measure. -/
theorem exists_iterate_of_measure {α : Type} {f : α → α} {P stop : α → Prop} (μ : α → Nat)
    (hstep : ∀ a, P a → ¬ stop a → P (f a) ∧ μ (f a) < μ a) (a : α) (ha : P a) :
    ∃ k ≤ μ a, P (f^[k] a) ∧ stop (f^[k] a) := by
  induction hn : μ a using Nat.strong_induction_on generalizing a with
  | _ n ih =>
    by_cases hstop : stop a
    · exact ⟨0, Nat.zero_le _, ha, hstop⟩
    · obtain ⟨hkept, hlt⟩ := hstep a ha hstop
      obtain ⟨k, hk, hend⟩ := ih _ (hn ▸ hlt) (f a) hkept rfl
      exact ⟨k + 1, by omega, hend⟩

/-! ### DEC alone -/

/-- What a step of DEC makes of DEC. -/
def decNext (p : Params) (d : Dec) : Dec :=
  match decRule p d with
  | .go _ d' => d'
  | .raised d' => d'
  | .stop _ => d

theorem decNext_of_go {p : Params} {d d' : Dec} {a : Unit} (h : decRule p d = .go a d') : decNext p d = d' := by
  rw [decNext, h]

theorem decNext_of_raised {p : Params} {d d' : Dec} (h : decRule p d = .raised d') : decNext p d = d' := by
  rw [decNext, h]

/-- DEC's rule never stops the model. -/
theorem decRule_eq_decNext (p : Params) (d : Dec) :
    decRule p d = .go () (decNext p d) ∨ decRule p d = .raised (decNext p d) := by
  have hyields := decRule_yields p d
  cases h : decRule p d with
  | go _ d' => exact .inl (by rw [decNext_of_go h])
  | raised d' => exact .inr (by rw [decNext_of_raised h])
  | stop r => rw [h] at hyields; exact hyields.elim

theorem decNext_movesTo (p : Params) (d : Dec) : d.MovesTo p (decNext p d) :=
  (decRule_yields p d).of_left (decRule_eq_decNext p d)

theorem Dec.phase_of_not_busy {d : Dec} (h : d.busy = false) :
    d.phase = .idle ∨ d.phase = .done ∨ d.phase = .fault := by
  cases hph : d.phase <;> simp [Dec.busy, hph] at h ⊢

theorem decNext_of_not_busy (p : Params) {d : Dec} (h : d.busy = false) : decNext p d = d := by
  obtain hph | hph | hph := d.phase_of_not_busy h
  all_goals exact decNext_of_go (a := ()) (by rw [decRule, hph])

/-- With DEC alone at work a step replaces DEC by its next state. -/
theorem step_eq_decNext {s : State} (ha : s.decAlone = true) :
    step s = .next (s.withDec (decNext s.params s.dec)) := by
  cases hb : s.dec.busy with
  | true =>
    rw [step_decAlone ha hb]
    exact onDec_next.2 ⟨_, decRule_eq_decNext _ _, rfl⟩
  | false =>
    obtain ⟨he, hp⟩ : s.enc.busy = false ∧ s.pending = [] := by simpa [State.decAlone] using ha
    have hm : s.mover = none := by
      unfold State.mover
      cases ht : s.turn <;> simp [State.enabled, he, hp, hb]
    rw [step_none hm, decNext_of_not_busy _ hb]
    rfl

/-- With DEC alone at work the machine's steps are DEC's. -/
theorem runSteps_eq_decNext (k : Nat) {s : State} (ha : s.decAlone = true) :
    runSteps k s = .next (s.withDec ((decNext s.params)^[k] s.dec)) := by
  induction k generalizing s with
  | zero => rfl
  | succ k ih =>
    rw [runSteps_succ k (step_eq_decNext ha), ih (s := s.withDec (decNext s.params s.dec)) ha]
    rfl

theorem runSteps_startDec (k : Nat) {s : State} (strict : Bool) (input : Bytes) (ha : s.decAlone = true) :
    runSteps k (s.startDec strict input) =
      .next (s.withDec ((decNext s.params)^[k] (s.dec.begin strict input))) :=
  runSteps_eq_decNext k (s := s.startDec strict input) ha

/-! ### The steps left -/

/-- At most this many steps are left without reading IN: a whole group's four commands, its block's check and the next
header or the stream check. The slots left count in the slot's own width, so that each Advance takes one off. -/
def Dec.phaseSteps (d : Dec) : Nat :=
  match d.phase with
  | .hdrSize => 3
  | .hdrBlocks => 2
  | .blkPrefix => 1
  | .grpFetch => 3
  | .cmd => 4 + (3 - d.slot).toNat
  | .blkCheck => 2
  | .streamCheck => 1
  | .idle => 0
  | .done => 0
  | .fault => 0

/-- A bound on the steps left: six for each byte of IN. -/
def Dec.stepsLeft (d : Dec) : Nat := 6 * d.remaining.length + d.phaseSteps

theorem Dec.phaseSteps_pos {d : Dec} (h : d.busy = true) : 0 < d.phaseSteps := by
  unfold Dec.phaseSteps
  cases hph : d.phase <;> simp [Dec.busy, hph] at h ⊢

/-- An Advance takes one slot off, or opens the way to the next group. -/
theorem Dec.phaseSteps_advance_lt {d d' : Dec} (hph : d.phase = .cmd) (hslot : d'.slot = d.slot) :
    (advance d').phaseSteps < d.phaseSteps := by
  simp only [Dec.phaseSteps, hph, advance_phase, advance_slot, hslot]
  by_cases h3 : d.slot = 3
  · simp [h3]
  · have hne : d.slot.toNat ≠ 3 := fun h => h3 (BitVec.eq_of_toNat_eq h)
    simp only [if_neg h3]
    bv_omega

/-- A state that has read `n` more bytes has fewer steps left when it has not gained six for each. -/
theorem Dec.stepsLeft_lt_of_past {d d' : Dec} {n : Nat} (hn : n ≤ d.remaining.length)
    (hread : d'.remaining = (d.past n).remaining) (hsteps : d'.phaseSteps < d.phaseSteps + 6 * n) :
    d'.stepsLeft < d.stepsLeft := by
  rw [stepsLeft, stepsLeft, hread, remaining_past, List.length_drop]
  omega

/-- Every move of a busy DEC takes a step off. -/
theorem Dec.MovesTo.stepsLeft_lt {p : Params} {d d' : Dec} (hm : d.MovesTo p d') (hb : d.busy = true)
    (hs : p.resync = .stay) : d'.stepsLeft < d.stepsLeft := by
  cases hm with
  | rests hb' => rw [hb] at hb'; cases hb'
  | takesSize hph hn | takesBlocks hph hn | opensBlock hph hn | endsBlock hph _ hn =>
    refine stepsLeft_lt_of_past hn rfl ?_
    simp only [phaseSteps, hph]
    omega
  | opensGroup hph _ hn =>
    refine stepsLeft_lt_of_past hn rfl ?_
    simp only [phaseSteps, hph]
    exact (by decide : 4 + (3 - 0#3).toNat < 3 + 6 * 1)
  | appends hph _ hn =>
    refine stepsLeft_lt_of_past hn ?_ (Nat.lt_add_right _ (phaseSteps_advance_lt hph rfl))
    rw [Dec.remaining, advance_inp, advance_ipos]
    rfl
  | meetsBound hph | lastBlock hph | finishes hph =>
    refine stepsLeft_lt_of_past (Nat.zero_le _) rfl ?_
    simp only [phaseSteps, hph]
    omega
  | nextBlock hph =>
    rw [Dec.nextPrefix_eq_ipos (.inl hs)]
    refine stepsLeft_lt_of_past (Nat.zero_le _) rfl ?_
    simp only [phaseSteps, hph]
    omega
  | faults hf =>
    obtain ⟨n, bs, e, hn, -, -, rfl⟩ := hf
    exact stepsLeft_lt_of_past hn rfl (Nat.lt_add_right _ (phaseSteps_pos hb))

/-- No step takes DEC back to IDLE. -/
theorem Dec.MovesTo.phase_ne_idle {p : Params} {d d' : Dec} (hm : d.MovesTo p d') (h : d.phase ≠ .idle) :
    d'.phase ≠ .idle := by
  cases hm with
  | rests => exact h
  | appends =>
    rw [advance_phase]
    split
    · nofun
    · nofun
  | faults hf => obtain ⟨n, bs, e, -, -, -, rfl⟩ := hf; nofun
  | _ => nofun

/-- A busy DEC comes to DONE or FAULT within the steps left. -/
theorem Dec.ends_within {p : Params} (hs : p.resync = .stay) {d : Dec} (h : d.phase ≠ .idle) :
    ∃ k ≤ d.stepsLeft, ((decNext p)^[k] d).phase = .done ∨ ((decNext p)^[k] d).phase = .fault := by
  obtain ⟨k, hk, hne, hb⟩ := exists_iterate_of_measure (f := decNext p) (P := fun d => d.phase ≠ .idle)
    (stop := fun d => d.busy = false) Dec.stepsLeft
    (fun d hne hb => ⟨(decNext_movesTo p d).phase_ne_idle hne,
      (decNext_movesTo p d).stepsLeft_lt (Bool.of_not_eq_false hb) hs⟩) d h
  exact ⟨k, hk, (Dec.phase_of_not_busy hb).resolve_left hne⟩

/-- Settles O54: a START leaves 6 · IN_LEN + 3 steps, and every step takes one off. -/
theorem decompressEnds : Obligations.DecompressEnds := by
  intro s strict input ha hs
  obtain ⟨k, hk, hend⟩ := Dec.ends_within hs (d := s.dec.begin strict input) nofun
  have hsteps : (s.dec.begin strict input).stepsLeft = 6 * input.length + 3 := rfl
  exact ⟨k, _, by omega, runSteps_startDec k strict input ha, hend⟩

end Sys2Proof.Machine
end

section
/-! PROOFS. The whole-decompress function (43_block_framer.md R217) read through the decoders of a varint and of a slot:
what each of its lines reads is what the same bytes decode to. -/

namespace Sys2Proof.Machine

open Sys2Proof

/-- The cursor with `n` more bytes read. -/
def Cursor.past (c : Cursor) (n : Nat) : Cursor := { c with ipos := c.ipos + n }

/-- The cursor with more bytes in the destination. -/
def Cursor.produce (c : Cursor) (bs : Bytes) : Cursor := { c with dst := c.dst ++ bs }

/-- The bytes of the input still to be read. -/
def Cursor.remaining (inp : Bytes) (c : Cursor) : Bytes := inp.drop c.ipos

@[simp] theorem ok_bind {α β : Type} (a : α) (f : α → Except Exn β) : (Except.ok a >>= f) = f a := rfl

@[simp] theorem error_bind {α β : Type} (e : Exn) (f : α → Except Exn β) : (Except.error e >>= f) = .error e := rfl

@[simp] theorem throw_bind {α β : Type} (e : Exn) (f : α → Except Exn β) :
    ((throw e : Except Exn α) >>= f) = .error e := rfl

section
variable {p : Params} {inp : Bytes} {c : Cursor}

@[simp] theorem Cursor.past_past (m n : Nat) : (c.past m).past n = c.past (m + n) := by
  simp [past, Nat.add_assoc]

theorem Cursor.remaining_past (n : Nat) : (c.past n).remaining inp = (c.remaining inp).drop n := by
  simp [remaining, past]

/-- The rest behind the first byte left. -/
theorem Cursor.remaining_past_one {b : Byte} {bs : Bytes} (h : c.remaining inp = b :: bs) :
    (c.past 1).remaining inp = bs := by
  rw [remaining_past, h]
  rfl

/-! ### Bytes -/

theorem refByte_of_remaining {b : Byte} {bs : Bytes} (h : c.remaining inp = b :: bs) :
    refByte inp c = .ok (b, c.past 1) := by
  have hget : inp[c.ipos]? = some b := by rw [← List.head?_drop]; exact congrArg List.head? h
  rw [refByte, hget]
  rfl

theorem refByte_of_end (h : c.remaining inp = []) : refByte inp c = .error (.inputEnd c.ipos) := by
  rw [refByte, List.getElem?_eq_none (List.drop_eq_nil_iff.1 h)]

/-! ### The header -/

/-- R120's loop takes its extra bytes, or meets the end of the input. -/
theorem refExtra_eq (left k v : Nat) (c : Cursor) :
    refExtra inp left k v c =
      if (c.remaining inp).length < left then .error (.inputEnd (c.ipos + (c.remaining inp).length))
      else .ok ((((c.remaining inp).take left).zipIdx k).foldl (fun acc ek => acc ||| (ek.1.toNat <<< (6 * ek.2))) v,
        c.past left) := by
  induction left generalizing k v c with
  | zero => rfl
  | succ left ih =>
    rw [refExtra]
    cases hr : c.remaining inp with
    | nil => rw [refByte_of_end hr]; rfl
    | cons e es =>
      have hend : c.ipos + 1 + es.length = c.ipos + (es.length + 1) := by omega
      rw [refByte_of_remaining hr]
      refine (ih (k + 1) _ (c.past 1)).trans ?_
      rw [Cursor.remaining_past_one hr, Cursor.past_past, Nat.add_comm 1 left]
      simp only [List.length_cons, Nat.add_lt_add_iff_right, List.take_succ_cons, List.zipIdx_cons, List.foldl_cons,
        Cursor.past, hend]
      rfl

/-- R200, R201: where a varint stands `VarintRead` gives its value, and the position behind it. -/
theorem refVarint_of_decodeVarint {i : Instr} {v : BitVec 32} {rest : Bytes}
    (h : decodeVarint (c.remaining inp) = .ok (i, rest)) (hv : i.headerValue = some v) :
    refVarint inp c = .ok (v.toNat, c.past (i.operands.length + 1)) := by
  have hlength := length_of_decodeVarint h
  cases hr : c.remaining inp with
  | nil => rw [hr] at h; cases h
  | cons f es =>
    have hrest := Cursor.remaining_past_one hr
    rw [hr, decodeVarint_cons, toNat_varintExtra] at h
    split at h
    case isTrue => cases h
    case isFalse hlen =>
      cases h
      have hf := f.isLt
      have htake : (es.take (f.toNat / 64)).length ≤ 3 := by rw [List.length_take]; omega
      rw [headerValue_varintOf _ htake] at hv
      cases hv
      rw [hr, List.length_cons, List.length_drop] at hlength
      have hread : (varintOf (varintLow f) (es.take (f.toNat / 64))).operands.length + 1 = 1 + f.toNat / 64 := by omega
      rw [refVarint, refByte_of_remaining hr]
      refine (refExtra_eq _ _ _ _).trans ?_
      rw [hrest, if_neg hlen, varintValue, toNat_orExtra (es.take (f.toNat / 64)) 1 _ (by omega),
        BitVec.toNat_setWidth, toNat_varintLow, Nat.mod_eq_of_lt (a := f.toNat % 64) (by omega), Cursor.past_past,
        hread]

/-- R100: where a byte of a varint is missing `VarintRead` meets the end of the input. -/
theorem refVarint_of_inputEnd (h : decodeVarint (c.remaining inp) = .error .inputEnd) :
    refVarint inp c = .error (.inputEnd (c.ipos + (c.remaining inp).length)) := by
  rw [refVarint]
  cases hr : c.remaining inp with
  | nil => rw [refByte_of_end hr]; rfl
  | cons f es =>
    have hrest := Cursor.remaining_past_one hr
    rw [hr, decodeVarint_cons, toNat_varintExtra] at h
    split at h
    case isFalse => cases h
    case isTrue hlen =>
      rw [refByte_of_remaining hr]
      refine (refExtra_eq _ _ _ _).trans ?_
      rw [hrest, if_pos hlen, List.length_cons, Cursor.past, Nat.add_assoc, Nat.add_comm 1]

/-! ### The slots -/

/-- What R217 does for a command once its operands are read; true when the block has ended. No slot decodes to a
varint. -/
def refRun (p : Params) (c : Cursor) : Instr → Except Exn (Bool × Cursor)
  | .endBlock => .ok (true, c)
  | .copy v => do
    let c ← refAppend p v c
    return (false, c)
  | .lz77 d n => do
    if d < Config.format.minDist then throw (.reservedDistance d c.ipos)
    if c.dst.length < d then throw (.dstUnderflow c.dst.length d)
    let c ← refCopy p d n c
    return (false, c)
  | .rle n v => do
    let c ← refFill p v n c
    return (false, c)
  | .varint1 _ => .ok (true, c)
  | .varint2 _ _ => .ok (true, c)
  | .varint3 _ _ _ => .ok (true, c)
  | .varint4 _ _ _ _ => .ok (true, c)

/-- What R217 reads for a command of a slot. -/
def refOperands (inp : Bytes) (c : Cursor) : CmdKind → Except Exn (Instr × Cursor)
  | .endBlock => return (.endBlock, c)
  | .copy => do
    let (v, c) ← refByte inp c
    return (.copy v, c)
  | .lz77 => do
    let (b0, c) ← refByte inp c
    let (b1, c) ← refByte inp c
    return (.lz77 (lzDistance b0 b1) (lzLength b1), c)
  | .rle => do
    let (n, c) ← refByte inp c
    let (v, c) ← refByte inp c
    return (.rle (rleCount n) v, c)

/-- R141: the case of R217 for a slot reads the operands of the slot's command, and runs it. -/
theorem refSlot_of_kind? {g : Byte} {slot : Nat} {k : CmdKind} (hk : p.codeMap.kind? (slotCode g slot) = some k) :
    refSlot p inp g slot c = refOperands inp c k >>= fun (i, c) => refRun p c i := by
  rw [refSlot, hk]
  cases k with
  | endBlock => rfl
  | copy => simp only [refOperands, bind_assoc, pure_bind, refRun]
  | lz77 => simp only [refOperands, bind_assoc, pure_bind, refRun]
  | rle => simp only [refOperands, bind_assoc, pure_bind, refRun]

/-- The operands read are those the bytes decode to. -/
theorem refOperands_of_decodeOperands {k : CmdKind} {i : Instr} {rest : Bytes}
    (h : decodeOperands k (c.remaining inp) = .ok (i, rest)) :
    refOperands inp c k = .ok (i, c.past i.operands.length) := by
  generalize hr : c.remaining inp = bs at h
  unfold decodeOperands at h
  split at h
  case h_1 => cases h; rfl
  case h_2 =>
    cases h
    simp only [refOperands, refByte_of_remaining hr, ok_bind]
    rfl
  case h_3 | h_4 =>
    cases h
    simp only [refOperands, refByte_of_remaining hr, refByte_of_remaining (Cursor.remaining_past_one hr), ok_bind]
    rfl
  all_goals cases h

/-- Where an operand is missing the read meets the end of the input. -/
theorem refOperands_of_inputEnd {k : CmdKind} (h : decodeOperands k (c.remaining inp) = .error .inputEnd) :
    refOperands inp c k = .error (.inputEnd (c.ipos + (c.remaining inp).length)) := by
  generalize hr : c.remaining inp = bs at h
  unfold decodeOperands at h
  split at h
  case h_5 | h_6 | h_8 =>
    simp only [refOperands, refByte_of_end hr, error_bind]
    rfl
  case h_7 | h_9 =>
    simp only [refOperands, refByte_of_remaining hr, refByte_of_end (Cursor.remaining_past_one hr), ok_bind,
      error_bind]
    rfl
  all_goals cases h

/-- A slot that decodes to a command runs it. -/
theorem refSlot_of_decodeSlot {g : Byte} {slot : Nat} {i : Instr} {rest : Bytes}
    (h : decodeSlot p.codeMap g slot (c.remaining inp) = .ok (i, rest)) :
    refSlot p inp g slot c = refRun p (c.past i.operands.length) i := by
  obtain ⟨k, hk, hdec⟩ := decodeSlot_eq_ok_iff.1 h
  rw [refSlot_of_kind? hk, refOperands_of_decodeOperands hdec, ok_bind]

theorem refSlot_of_inputEnd {g : Byte} {slot : Nat}
    (h : decodeSlot p.codeMap g slot (c.remaining inp) = .error .inputEnd) :
    refSlot p inp g slot c = .error (.inputEnd (c.ipos + (c.remaining inp).length)) := by
  cases hk : p.codeMap.kind? (slotCode g slot) with
  | none => rw [decodeSlot, hk] at h; cases h
  | some k =>
    rw [decodeSlot_of_kind? _ hk] at h
    rw [refSlot_of_kind? hk, refOperands_of_inputEnd h, error_bind]

theorem refSlot_of_invalidCommand {g : Byte} {slot : Nat} {code : BitVec 2}
    (h : decodeSlot p.codeMap g slot (c.remaining inp) = .error (.invalidCommand code)) :
    refSlot p inp g slot c = .error (.invalidCommand code c.ipos) := by
  cases hk : p.codeMap.kind? (slotCode g slot) with
  | none =>
    rw [decodeSlot, hk] at h
    cases h
    rw [refSlot, hk]
  | some k =>
    rw [decodeSlot_of_kind? _ hk] at h
    unfold decodeOperands at h
    split at h <;> cases h

/-! ### Appending a list of bytes -/

/-- `DstAppend` of R217 for each byte of a list. -/
def refAppendAll (p : Params) : Bytes → Cursor → Except Exn Cursor
  | [], c => .ok c
  | v :: bs, c => refAppend p v c >>= refAppendAll p bs

theorem refAppend_go (v : Byte) (h : p.dstCap ≠ some c.dst.length) : refAppend p v c = .ok (c.produce [v]) := if_neg h

theorem refAppend_full (v : Byte) (h : p.dstCap = some c.dst.length) :
    refAppend p v c = .error (.dstFull c.dst.length) := if_pos h

theorem refAppendAll_singleton (p : Params) (v : Byte) (c : Cursor) : refAppendAll p [v] c = refAppend p v c :=
  bind_pure (refAppend p v c)

theorem refFill_eq (p : Params) (v : Byte) (n : Nat) (c : Cursor) :
    refFill p v n c = refAppendAll p (List.replicate n v) c := by
  induction n generalizing c with
  | zero => rfl
  | succ n ih => exact congrArg (refAppend p v c >>= ·) (funext fun c => ih c)

/-- R144 (a), (b): copying back byte by byte appends the last `dist` bytes, repeated. -/
theorem refCopy_eq (p : Params) {dist : Nat} (n : Nat) {c : Cursor} (h2 : 2 ≤ dist) (hle : dist ≤ c.dst.length) :
    refCopy p dist n c = refAppendAll p (copied c.dst dist n) c := by
  induction n generalizing c with
  | zero => rfl
  | succ n ih =>
    rw [copied_succ n h2 hle, refCopy, refAppendAll, List.getD_eq_getElem _ _ (by omega)]
    obtain hfull | hroom := eq_or_ne p.dstCap (some c.dst.length)
    · rw [refAppend_full _ hfull]; rfl
    · rw [refAppend_go _ hroom]
      exact ih (c := c.produce _) (by simp [Cursor.produce]; omega)

/-- With no append finding the destination full all the bytes are appended. -/
theorem refAppendAll_go {bs : Bytes} (h : ∀ k < bs.length, p.dstCap ≠ some (c.dst.length + k)) :
    refAppendAll p bs c = .ok (c.produce bs) := by
  induction bs generalizing c with
  | nil => simp [refAppendAll, Cursor.produce]
  | cons v bs ih =>
    rw [refAppendAll, refAppend_go v (h 0 (by simp)), ok_bind, ih fun k hk => ?_]
    · simp [Cursor.produce]
    · have := h (k + 1) (by simpa using hk)
      simpa [Cursor.produce, Nat.add_assoc, Nat.add_comm 1] using this

/-- The first append that finds the destination full ends the others. -/
theorem refAppendAll_full {bs : Bytes} {k : Nat} (hk : k < bs.length) (h : p.dstCap = some (c.dst.length + k)) :
    refAppendAll p bs c = .error (.dstFull (c.dst.length + k)) := by
  induction bs generalizing c k with
  | nil => cases hk
  | cons v bs ih =>
    cases k with
    | zero => rw [refAppendAll, refAppend_full v h]; rfl
    | succ k =>
      have hroom : p.dstCap ≠ some c.dst.length := by rw [h]; simp
      have hlen : (c.produce [v]).dst.length + k = c.dst.length + (k + 1) := by
        simp [Cursor.produce, Nat.add_assoc, Nat.add_comm 1]
      rw [refAppendAll, refAppend_go v hroom, ok_bind, ih (by simpa using hk) (by rw [hlen, h]), hlen]

/-- The bytes a command of R217 appends, where it ends no block and raises neither distance fault. -/
def Cursor.AppendsOf (p : Params) (c : Cursor) (i : Instr) (bs : Bytes) : Prop :=
  refRun p c i = refAppendAll p bs c >>= fun c => return (false, c)

theorem Cursor.appendsOf_copy (p : Params) (c : Cursor) (v : Byte) : c.AppendsOf p (.copy v) [v] := by
  rw [AppendsOf, refRun, refAppendAll_singleton]

theorem Cursor.appendsOf_lz77 (p : Params) {c : Cursor} {dist : Nat} (n : Nat) (h2 : 2 ≤ dist)
    (hle : dist ≤ c.dst.length) : c.AppendsOf p (.lz77 dist n) (copied c.dst dist n) := by
  rw [AppendsOf, refRun, Config.format_minDist, if_neg (by omega), if_neg (by omega), refCopy_eq p n h2 hle]

theorem Cursor.appendsOf_rle (p : Params) (c : Cursor) (n : Nat) (v : Byte) :
    c.AppendsOf p (.rle n v) (List.replicate n v) := by
  rw [AppendsOf, refRun, refFill_eq]

end

end Sys2Proof.Machine
end

section
/-! PROOFS. The steps of DEC compute the whole-decompress function (43_block_framer.md R217, 70_reset_and_hazards.md
R264): each of its lines is one or more steps, which leave the line's value or the fault it raises. -/

namespace Sys2Proof.Machine

open Sys2Proof

/-! ### Steps against a line of R217 -/

section
variable {α β γ : Type} {p : Params} {d : Dec}

/-- DEC shows what a line of R217 answers: its value, related to DEC by `Q`, or the fault it raises. -/
def Dec.Shows (Q : β → Dec → Prop) (r : Except Exn β) (d : Dec) : Prop :=
  match r with
  | .ok b => Q b d
  | .error e => ∃ d' : Dec, d = d'.raise e

/-- A rule of DEC does what a line of R217 does: both go on, to related states, or both raise the same fault. -/
def Act.Answers (Q : β → Dec → Prop) (r : Except Exn β) (m : Act Dec Unit) : Prop :=
  match r with
  | .ok b => ∃ d, m = .go () d ∧ Q b d
  | .error e => ∃ d : Dec, m = .raised (d.raise e)

/-- From `d` DEC comes to show what a line of R217 answers. -/
def Dec.Computes (p : Params) (d : Dec) (Q : β → Dec → Prop) (r : Except Exn β) : Prop :=
  ∃ k, Dec.Shows Q r ((decNext p)^[k] d)

theorem Dec.Computes.of_shows {Q : β → Dec → Prop} {r : Except Exn β} (h : Dec.Shows Q r d) : d.Computes p Q r :=
  ⟨0, h⟩

/-- A step of DEC that does what the line does. -/
theorem Dec.Computes.of_answers {Q : β → Dec → Prop} {r : Except Exn β} (h : (decRule p d).Answers Q r) :
    d.Computes p Q r := by
  refine ⟨1, ?_⟩
  cases r with
  | ok b =>
    obtain ⟨d', hgo, hq⟩ := h
    exact show Q b (decNext p d) by rwa [decNext_of_go hgo]
  | error e =>
    obtain ⟨d', hraise⟩ := h
    exact ⟨d', decNext_of_raised hraise⟩

/-- A step of DEC before the line's. -/
theorem Dec.Computes.of_go {Q : β → Dec → Prop} {r : Except Exn β} {d' : Dec} (hgo : decRule p d = .go () d')
    (h : d'.Computes p Q r) : d.Computes p Q r := by
  obtain ⟨k, hk⟩ := h
  refine ⟨k + 1, ?_⟩
  rwa [Function.iterate_succ_apply, decNext_of_go hgo]

theorem Dec.Computes.of_raised {Q : β → Dec → Prop} {d' : Dec} {e : Exn} (h : decRule p d = .raised (d'.raise e)) :
    d.Computes p Q (.error e) :=
  .of_answers ⟨d', h⟩

/-- One line after another. -/
theorem Dec.Computes.bind {Q : β → Dec → Prop} {Q' : γ → Dec → Prop} {r : Except Exn β} {f : β → Except Exn γ}
    (h : d.Computes p Q r) (hf : ∀ b d', Q b d' → d'.Computes p Q' (f b)) : d.Computes p Q' (r >>= f) := by
  obtain ⟨k, hk⟩ := h
  cases r with
  | ok b =>
    obtain ⟨k', hk'⟩ := hf b _ hk
    exact ⟨k' + k, by rwa [Function.iterate_add_apply]⟩
  | error e => exact ⟨k, hk⟩

theorem Dec.Computes.mono {Q Q' : β → Dec → Prop} {r : Except Exn β} (h : d.Computes p Q r)
    (hq : ∀ b d', Q b d' → Q' b d') : d.Computes p Q' r := by
  obtain ⟨k, hk⟩ := h
  refine ⟨k, ?_⟩
  cases r with
  | ok b => exact hq b _ hk
  | error e => exact hk

end

/-! ### The cursor of DEC -/

/-- What R217 keeps of DEC. -/
def Dec.cursor (d : Dec) : Cursor := { ipos := d.ipos, dst := d.dst }

/-- DEC at another cursor. -/
def Dec.withCursor (d : Dec) (c : Cursor) : Dec := { d with ipos := c.ipos, dst := c.dst }

/-- DEC after a slot whose command leaves the cursor `c`: at the block check if the block has ended, else advanced. -/
def Dec.afterSlot (d : Dec) (ended : Bool) (c : Cursor) : Dec :=
  if ended then { d.withCursor c with phase := .blkCheck } else advance (d.withCursor c)

/-- The registers that stay through a block: all but phase, ipos, gcnt, gbyte, slot, DST, FAULT and RESULT. -/
structure Dec.SameBlock (d d' : Dec) : Prop where
  inp : d'.inp = d.inp
  strict : d'.strict = d.strict
  usize : d'.usize = d.usize
  nblocks : d'.nblocks = d.nblocks
  blk : d'.blk = d.blk
  bsize : d'.bsize = d.bsize
  bstart : d'.bstart = d.bstart

theorem Dec.SameBlock.trans {d d' d'' : Dec} (h : d.SameBlock d') (h' : d'.SameBlock d'') : d.SameBlock d'' :=
  ⟨h'.inp.trans h.inp, h'.strict.trans h.strict, h'.usize.trans h.usize, h'.nblocks.trans h.nblocks,
    h'.blk.trans h.blk, h'.bsize.trans h.bsize, h'.bstart.trans h.bstart⟩

section
variable {p : Params} {d : Dec}

/-! ### A slot -/

/-- A command that appends does so in DEC as in R217. -/
theorem answers_of_appendsOf {i : Instr} {bs : Bytes} (h : d.AppendsOf p i bs) (h' : d.cursor.AppendsOf p i bs) :
    (meaning i p d).Answers (fun r d' => d' = d.afterSlot r.1 r.2) (refRun p d.cursor i) := by
  rw [h, h']
  obtain ⟨hroom, hall⟩ | ⟨k, hk, hcap, hall⟩ := dstAppendAll_cases p bs d
  · rw [hall, refAppendAll_go hroom]
    exact ⟨_, rfl, rfl⟩
  · rw [hall, refAppendAll_full hk hcap]
    exact ⟨_, rfl⟩

/-- R142 to R147: a command does in DEC what it does in R217. -/
theorem meaning_answers {i : Instr} {k : CmdKind} (hk : i.kind = some k) (p : Params) (d : Dec) :
    (meaning i p d).Answers (fun r d' => d' = d.afterSlot r.1 r.2) (refRun p d.cursor i) := by
  cases i with
  | endBlock => exact ⟨_, rfl, rfl⟩
  | copy v => exact answers_of_appendsOf (d.appendsOf_copy p v) (Cursor.appendsOf_copy p _ v)
  | lz77 dist n =>
    obtain ⟨h2, hraise⟩ | ⟨h2, hlt, hraise⟩ | ⟨h2, hle, -⟩ := lz77_cases dist n p d
    · rw [meaning, hraise, refRun, Config.format_minDist, if_pos h2, throw_bind]
      exact ⟨_, rfl⟩
    · rw [meaning, hraise, refRun, Config.format_minDist, if_neg (by omega), if_pos (by exact hlt), throw_bind]
      exact ⟨_, rfl⟩
    · exact answers_of_appendsOf (Dec.appendsOf_lz77 p n h2 hle) (Cursor.appendsOf_lz77 p n h2 hle)
  | rle n v => exact answers_of_appendsOf (d.appendsOf_rle p n v) (Cursor.appendsOf_rle p _ n v)
  | varint1 | varint2 | varint3 | varint4 => cases hk

/-- R141: a step in CMD does what R217 does for the slot. -/
theorem decRule_answers_refSlot (hph : d.phase = .cmd) :
    (decRule p d).Answers (fun r d' => d' = d.afterSlot r.1 r.2)
      (refSlot p d.inp d.gbyte d.slot.toNat d.cursor) := by
  rw [decRule_cmd hph]
  obtain ⟨i, rest, hdec, hfetch⟩ | ⟨hdec, hfetch⟩ | ⟨code, hdec, hfetch⟩ := fetch_cases .slot p d
  · obtain ⟨-, hbs, k, hk, -⟩ := encodeOfDecodeIsTheBytes.1 _ _ _ _ _ _ hdec
    have hread : d.remaining.length - rest.length = i.operands.length := by
      rw [hbs, List.length_append, Nat.add_sub_cancel]
    rw [hfetch, hread, refSlot_of_decodeSlot (c := d.cursor) hdec]
    exact meaning_answers hk p (d.past i.operands.length)
  · rw [hfetch, refSlot_of_inputEnd (c := d.cursor) hdec]
    exact ⟨_, rfl⟩
  · rw [hfetch, refSlot_of_invalidCommand (c := d.cursor) hdec]
    exact ⟨_, rfl⟩

theorem Dec.sameBlock_afterSlot (d : Dec) (ended : Bool) (c : Cursor) : d.SameBlock (d.afterSlot ended c) := by
  cases ended with
  | true => exact ⟨rfl, rfl, rfl, rfl, rfl, rfl, rfl⟩
  | false =>
    exact ⟨advance_inp _, advance_strict _, advance_usize _, advance_nblocks _, advance_blk _, advance_bsize _,
      advance_bstart _⟩

/-! ### A group -/

/-- DEC after a group that leaves the cursor: at the block check if the block has ended, else at the next group. -/
structure Dec.AfterGroup (d : Dec) (r : Bool × Cursor) (d' : Dec) : Prop where
  phase : d'.phase = if r.1 then .blkCheck else .grpFetch
  cursor : d'.cursor = r.2
  gcnt : d'.gcnt = d.gcnt
  same : d.SameBlock d'

theorem refSlots_succ (p : Params) (inp : Bytes) (g : Byte) (left : Nat) (c : Cursor) :
    refSlots p inp g (left + 1) c = refSlot p inp g (4 - (left + 1)) c >>= fun (ended, c) =>
      if ended then return (true, c) else refSlots p inp g left c := rfl

/-- A slot of the group passed leaves DEC before the same group's end. -/
theorem Dec.AfterGroup.of_afterSlot {r : Bool × Cursor} {c : Cursor} {d' : Dec}
    (h : (d.afterSlot false c).AfterGroup r d') : d.AfterGroup r d' where
  phase := h.phase
  cursor := h.cursor
  gcnt := h.gcnt.trans (advance_gcnt _)
  same := (d.sameBlock_afterSlot false c).trans h.same

theorem Dec.cursor_afterSlot (d : Dec) (ended : Bool) (c : Cursor) : (d.afterSlot ended c).cursor = c := by
  cases ended with
  | true => rfl
  | false => rw [afterSlot, if_neg nofun, Dec.cursor, advance_ipos, advance_dst]; rfl

theorem Dec.afterGroup_of_ended (d : Dec) (c : Cursor) : d.AfterGroup (true, c) (d.afterSlot true c) :=
  ⟨rfl, rfl, rfl, d.sameBlock_afterSlot true c⟩

/-- The slots from the current one on are the last `left + 1` of the group. -/
theorem Dec.computes_refSlots (left : Nat) {d : Dec} (hph : d.phase = .cmd) (hslot : d.slot.toNat + (left + 1) = 4) :
    d.Computes p d.AfterGroup (refSlots p d.inp d.gbyte (left + 1) d.cursor) := by
  have hslot' : 4 - (left + 1) = d.slot.toNat := by omega
  induction left generalizing d with
  | zero =>
    have h3 : d.slot = 3 := BitVec.eq_of_toNat_eq hslot'.symm
    rw [refSlots_succ, hslot']
    refine (Computes.of_answers (decRule_answers_refSlot hph)).bind ?_
    rintro ⟨ended, c⟩ _ rfl
    cases ended with
    | true => exact .of_shows (d.afterGroup_of_ended c)
    | false =>
      exact .of_shows ⟨(advance_phase _).trans (if_pos h3), d.cursor_afterSlot false c, advance_gcnt _,
        d.sameBlock_afterSlot false c⟩
  | succ left ih =>
    have h3 : d.slot ≠ 3 := fun h => by
      have : d.slot.toNat = 3 := congrArg BitVec.toNat h
      omega
    have hsucc : (d.slot + 1).toNat = d.slot.toNat + 1 :=
      BitVec.toNat_add_of_lt (show d.slot.toNat + 1 < 2 ^ 3 by omega)
    rw [refSlots_succ, hslot']
    refine (Computes.of_answers (decRule_answers_refSlot hph)).bind ?_
    rintro ⟨ended, c⟩ _ rfl
    cases ended with
    | true => exact .of_shows (d.afterGroup_of_ended c)
    | false =>
      have hnext : (d.afterSlot false c).slot = d.slot + 1 := (advance_slot _).trans (if_neg h3)
      have hrest := ih (d := d.afterSlot false c) ((advance_phase _).trans (if_neg h3)) (by rw [hnext]; omega)
        (by rw [hnext]; omega)
      have hgbyte : (d.afterSlot false c).gbyte = d.gbyte := advance_gbyte _
      rw [(d.sameBlock_afterSlot false c).inp, hgbyte, d.cursor_afterSlot] at hrest
      exact hrest.mono fun _ _ => AfterGroup.of_afterSlot

/-! ### A block -/

/-- DEC after a block's groups that leave the cursor. -/
structure Dec.AfterGroups (d : Dec) (c : Cursor) (d' : Dec) : Prop where
  phase : d'.phase = .blkCheck
  cursor : d'.cursor = c
  same : d.SameBlock d'

theorem refGroups_succ (p : Params) (inp : Bytes) (left : Nat) (c : Cursor) :
    refGroups p inp (left + 1) c = refByte inp c >>= fun (g, c) => refSlots p inp g 4 c >>= fun (ended, c) =>
      if ended then return c else refGroups p inp left c := rfl

/-- DEC with a group byte fetched. -/
def Dec.withGroup (d : Dec) (g : Byte) (c : Cursor) : Dec :=
  { d.withCursor c with gbyte := g, gcnt := d.gcnt + 1, slot := 0, phase := .cmd }

theorem refByte_cursor {b : Byte} (h : d.inp[d.ipos]? = some b) :
    refByte d.inp d.cursor = .ok (b, (d.past 1).cursor) :=
  refByte_of_remaining (c := d.cursor) (remaining_of_get h)

theorem refByte_cursor_of_end (h : d.inp.length ≤ d.ipos) : refByte d.inp d.cursor = .error (.inputEnd d.ipos) :=
  refByte_of_end (c := d.cursor) (remaining_of_end h)

/-- R140: a step in GRP_FETCH below the bound reads the group byte. -/
theorem decRule_answers_groupByte (hph : d.phase = .grpFetch) (hg : d.gcnt ≠ 256) :
    (decRule p d).Answers (fun r d' => d' = d.withGroup r.1 r.2) (refByte d.inp d.cursor) := by
  rw [decRule_grpFetch hph, grpFetch_below p hg]
  obtain ⟨b, hb, hread⟩ | ⟨hend, hraise⟩ := inByte_cases d
  · rw [hread, refByte_cursor hb]
    exact ⟨_, rfl, rfl⟩
  · rw [hraise, refByte_cursor_of_end hend]
    exact ⟨_, rfl⟩

/-- The groups still allowed are those left below the bound. -/
theorem Dec.computes_refGroups (left : Nat) {d : Dec} (hph : d.phase = .grpFetch) (hg : d.gcnt.toNat + left = 256) :
    d.Computes p d.AfterGroups (refGroups p d.inp left d.cursor) := by
  induction left generalizing d with
  | zero =>
    have h256 : d.gcnt = 256 := BitVec.eq_of_toNat_eq hg
    exact .of_go ((decRule_grpFetch hph).trans (grpFetch_bound p h256))
      (.of_shows ⟨rfl, rfl, ⟨rfl, rfl, rfl, rfl, rfl, rfl, rfl⟩⟩)
  | succ left ih =>
    have hne : d.gcnt ≠ 256 := fun h => by rw [h] at hg; simp at hg
    have hsucc : (d.gcnt + 1).toNat = d.gcnt.toNat + 1 :=
      BitVec.toNat_add_of_lt (show d.gcnt.toNat + 1 < 2 ^ 9 by omega)
    rw [refGroups_succ]
    refine (Computes.of_answers (decRule_answers_groupByte hph hne)).bind ?_
    rintro ⟨g, c⟩ _ rfl
    refine ((d.withGroup g c).computes_refSlots (p := p) 3 rfl rfl).bind ?_
    rintro ⟨ended, c'⟩ d' h
    have hsame : d.SameBlock d' := { h.same with }
    cases ended with
    | true => exact .of_shows ⟨h.phase, h.cursor, hsame⟩
    | false =>
      have hrest := ih (d := d') h.phase (by rw [h.gcnt]; exact (by omega : (d.gcnt + 1).toNat + left = 256))
      rw [hsame.inp, h.cursor] at hrest
      exact hrest.mono fun _ _ hd => ⟨hd.phase, hd.cursor, hsame.trans hd.same⟩

/-! ### The blocks -/

/-- DEC after the stream's blocks that leave the cursor. -/
structure Dec.AfterBlocks (d : Dec) (c : Cursor) (d' : Dec) : Prop where
  phase : d'.phase = .streamCheck
  cursor : d'.cursor = c
  strict : d'.strict = d.strict
  usize : d'.usize = d.usize

/-- What R217 reads of a block's two size bytes. -/
def refPrefix (inp : Bytes) (c : Cursor) : Except Exn (Nat × Cursor) := do
  let (b0, c) ← refByte inp c
  let (b1, c) ← refByte inp c
  return (b0.toNat + 256 * b1.toNat, c)

/-- R217 takes a block by its size, its groups and its check. -/
theorem refBlocks_succ (p : Params) (inp : Bytes) (strict : Bool) (left blk : Nat) (c : Cursor) :
    refBlocks p inp strict (left + 1) blk c = refPrefix inp c >>= fun (bsize, c) => refGroups p inp 256 c >>= fun e =>
      if strict && e.ipos - c.ipos != bsize then .error (.blockSizeMismatch blk bsize (e.ipos - c.ipos))
      else refBlocks p inp strict left (blk + 1) e := by
  simp only [refPrefix, bind_assoc, pure_bind]
  rfl

/-- DEC with a block's size read, up to the cursor. -/
def Dec.withPrefix (d : Dec) (size : BitVec 16) (c : Cursor) : Dec :=
  { d.withCursor c with bsize := size, bstart := c.ipos, gcnt := 0, phase := .grpFetch }

/-- R202: a step in BLK_PREFIX reads the size. -/
theorem decRule_answers_refPrefix (hph : d.phase = .blkPrefix) :
    (decRule p d).Answers (fun r d' => ∃ size, size.toNat = r.1 ∧ d' = d.withPrefix size r.2)
      (refPrefix d.inp d.cursor) := by
  rw [decRule_blkPrefix hph, blkPrefix, refPrefix]
  obtain ⟨b0, h0, hread0⟩ | ⟨hend, hraise⟩ := inByte_cases d
  · rw [hread0, refByte_cursor h0, Act.bind_go, ok_bind]
    obtain ⟨b1, h1, hread1⟩ | ⟨hend, hraise⟩ := inByte_cases (d.past 1)
    · have hline : refByte d.inp (d.past 1).cursor = .ok (b1, (d.past 2).cursor) := refByte_cursor h1
      dsimp only
      rw [hread1, hline]
      exact ⟨_, rfl, prefixValue b0 b1, toNat_prefixValue b0 b1, rfl⟩
    · have hline : refByte d.inp (d.past 1).cursor = .error (.inputEnd (d.ipos + 1)) := refByte_cursor_of_end hend
      dsimp only
      rw [hraise, hline]
      exact ⟨_, rfl⟩
  · rw [hraise, refByte_cursor_of_end hend]
    exact ⟨_, rfl⟩

/-- R203: the check of a block raises or passes as R217's line does. -/
theorem Dec.computes_check {d : Dec} {Q : Cursor → Dec → Prop} {r : Except Exn Cursor} (hph : d.phase = .blkCheck)
    (hstay : p.resync = .stay ∨ d.strict = true) (h : d.afterCheck.Computes p Q r) :
    d.Computes p Q (if d.strict && d.ipos - d.bstart != d.bsize.toNat then
      .error (.blockSizeMismatch d.blk.toNat d.bsize.toNat (d.ipos - d.bstart)) else r) := by
  cases hbad : d.blockMismatch with
  | true =>
    rw [if_pos (by exact hbad)]
    exact .of_raised ((decRule_blkCheck hph).trans (blkCheck_raises p hbad))
  | false =>
    have hok : ¬ d.blockMismatch = true := by rw [hbad]; nofun
    rw [if_neg (by exact hok)]
    exact .of_go ((decRule_blkCheck hph).trans (blkCheck_passes_in_place hstay hbad)) h

/-- R203: with `left` blocks to go after it, a block's check leads to the next one, or to the stream check after the
last; no block number wraps. -/
theorem Dec.afterCheck_of_left {d : Dec} {left : Nat} (h : d.blk.toNat + (left + 1) = d.nblocks.toNat) :
    d.afterCheck.blk.toNat = d.blk.toNat + 1 ∧
      d.afterCheck.phase = if left = 0 then .streamCheck else .blkPrefix := by
  have hlt := d.nblocks.isLt
  have hsucc : (d.blk + 1).toNat = d.blk.toNat + 1 :=
    BitVec.toNat_add_of_lt (show d.blk.toNat + 1 < 2 ^ 32 by omega)
  have hnext : d.blk + 1 < d.nblocks ↔ left ≠ 0 := by
    rw [BitVec.lt_def, hsucc]
    omega
  exact ⟨hsucc, by simp only [afterCheck, hnext, ite_not]⟩

/-- The blocks to go are the last `left` of the stream. -/
theorem Dec.computes_refBlocks (left : Nat) {d : Dec} (hph : d.phase = if left = 0 then .streamCheck else .blkPrefix)
    (hstay : p.resync = .stay ∨ d.strict = true) (hblk : d.blk.toNat + left = d.nblocks.toNat) :
    d.Computes p d.AfterBlocks (refBlocks p d.inp d.strict left d.blk.toNat d.cursor) := by
  induction left generalizing d with
  | zero => exact .of_shows ⟨hph, rfl, rfl, rfl⟩
  | succ left ih =>
    rw [refBlocks_succ]
    refine (Computes.of_answers (decRule_answers_refPrefix hph)).bind ?_
    rintro ⟨bsize, c⟩ _ ⟨size, rfl, rfl⟩
    refine ((d.withPrefix size c).computes_refGroups (p := p) 256 rfl rfl).bind ?_
    rintro e d' ⟨hph', rfl, hsame⟩
    have hblk' : d'.blk = d.blk := hsame.blk
    have hstrict : d'.strict = d.strict := hsame.strict
    have hsize : d'.bsize = size := hsame.bsize
    have hstart : d'.bstart = c.ipos := hsame.bstart
    have hcounted : d'.blk.toNat + (left + 1) = d'.nblocks.toNat := by
      rw [hblk', hblk, hsame.nblocks]
      rfl
    obtain ⟨hcount, hnext⟩ := Dec.afterCheck_of_left hcounted
    have hrest := ih (d := d'.afterCheck) hnext (hstrict ▸ hstay)
      (by rw [hcount, Nat.add_assoc, Nat.add_comm 1]; exact hcounted)
    have hcheck := d'.computes_check (p := p) hph' (hstrict ▸ hstay) hrest
    rw [hcount, show d'.afterCheck.inp = d.inp from hsame.inp, show d'.afterCheck.strict = d.strict from hstrict,
      hstrict, hsize, hstart, hblk'] at hcheck
    exact hcheck.mono fun _ _ h => ⟨h.phase, h.cursor, h.strict.trans hstrict, h.usize.trans hsame.usize⟩

/-! ### The whole decompress -/

/-- A header field's bytes are missing or a varint's. -/
theorem decodeVarint_ne_invalidCommand (bs : Bytes) (code : BitVec 2) :
    decodeVarint bs ≠ .error (.invalidCommand code) := by
  cases bs with
  | nil => nofun
  | cons f rest =>
    rw [decodeVarint_cons]
    split
    · nofun
    · nofun

/-- A header step reads its varint and hands its value on, or raises as R217's line does. -/
theorem Dec.computes_refVarint {Q : Nat × Cursor → Dec → Prop} (hph : d.phase = .hdrSize ∨ d.phase = .hdrBlocks)
    (hQ : ∀ (v : BitVec 32) (c : Cursor), v.toNat < 2 ^ 26 →
      ∃ d', takeHeader v (d.withCursor c) = .go () d' ∧ Q (v.toNat, c) d') :
    d.Computes p Q (refVarint d.inp d.cursor) := by
  refine .of_answers ?_
  rw [decRule_header hph]
  obtain ⟨i, rest, hdec, hfetch⟩ | ⟨hdec, hfetch⟩ | ⟨code, hdec, -⟩ := fetch_cases .header p d
  · obtain ⟨v, hv, hlt⟩ := decodeVarint_ok hdec
    have hread : d.remaining.length - rest.length = i.operands.length + 1 := by
      rw [length_of_decodeVarint hdec, Nat.add_sub_cancel]
    rw [hfetch, hread, Act.bind_go, meaning_of_headerValue hv, refVarint_of_decodeVarint (c := d.cursor) hdec hv]
    exact hQ v (d.cursor.past (i.operands.length + 1)) hlt
  · rw [hfetch, refVarint_of_inputEnd (c := d.cursor) hdec]
    exact ⟨_, rfl⟩
  · exact absurd hdec (decodeVarint_ne_invalidCommand _ _)

/-- DEC with the declared size taken, up to the cursor. -/
def Dec.withSize (d : Dec) (v : BitVec 32) (c : Cursor) : Dec := { d.withCursor c with usize := v, phase := .hdrBlocks }

/-- DEC with the block count taken, up to the cursor. -/
def Dec.withCount (d : Dec) (v : BitVec 32) (c : Cursor) : Dec :=
  { d.withCursor c with nblocks := v + 1, blk := 0, phase := .blkPrefix }

/-- R200: HDR_SIZE computes R217's first line. -/
theorem Dec.computes_size (hph : d.phase = .hdrSize) :
    d.Computes p (fun r d' => ∃ v : BitVec 32, v.toNat = r.1 ∧ d' = d.withSize v r.2) (refVarint d.inp d.cursor) :=
  computes_refVarint (.inl hph) fun v c _ =>
    ⟨d.withSize v c, by simp [takeHeader, withCursor, hph, withSize], v, rfl, rfl⟩

/-- R201: HDR_BLOCKS computes R217's second line; the count does not wrap. -/
theorem Dec.computes_count (hph : d.phase = .hdrBlocks) :
    d.Computes p (fun r d' => ∃ v : BitVec 32, (v + 1).toNat = r.1 + 1 ∧ d' = d.withCount v r.2)
      (refVarint d.inp d.cursor) :=
  computes_refVarint (.inr hph) fun v c hlt =>
    ⟨d.withCount v c, by simp [takeHeader, withCursor, hph, withCount], v,
      BitVec.toNat_add_of_lt (show v.toNat + 1 < 2 ^ 32 by omega), rfl⟩

theorem refDecompress_eq (p : Params) (inp : Bytes) (strict : Bool) :
    refDecompress p inp strict = refVarint inp ⟨0, []⟩ >>= fun (usize, c) => refVarint inp c >>= fun (m, c) =>
      refBlocks p inp strict (m + 1) 0 c >>= fun e =>
        if strict && e.dst.length != usize then .error (.uncompressedSizeMismatch usize e.dst.length)
        else .ok e.dst := rfl

/-- R205: the stream check raises or ends as R217's line does. -/
theorem Dec.computes_end (hph : d.phase = .streamCheck) :
    d.Computes p (fun bytes d' => d'.phase = .done ∧ d'.result = bytes)
      (if d.strict && d.dst.length != d.usize.toNat then .error (.uncompressedSizeMismatch d.usize.toNat d.dst.length)
        else .ok d.dst) := by
  cases hbad : d.sizeMismatch with
  | true =>
    rw [if_pos (by exact hbad)]
    exact .of_raised ((decRule_streamCheck hph).trans (streamCheck_raises p hbad))
  | false =>
    have hok : ¬ d.sizeMismatch = true := by rw [hbad]; nofun
    rw [if_neg (by exact hok)]
    exact .of_answers ⟨_, (decRule_streamCheck hph).trans (streamCheck_passes p hbad), rfl, rfl⟩

/-- A decompress under NONSTRICT_RESYNC = NONE, and every strict one, computes R217's function. -/
theorem Dec.computes_refDecompress (strict : Bool) (input : Bytes) (hstay : p.resync = .stay ∨ strict = true) :
    (d.begin strict input).Computes p (fun bytes d' => d'.phase = .done ∧ d'.result = bytes)
      (refDecompress p input strict) := by
  rw [refDecompress_eq]
  refine ((d.begin strict input).computes_size rfl).bind ?_
  rintro ⟨usize, c⟩ _ ⟨v, rfl, rfl⟩
  refine (Dec.computes_count (d := (d.begin strict input).withSize v c) rfl).bind ?_
  rintro ⟨m, c'⟩ _ ⟨w, hcount, rfl⟩
  refine (Dec.computes_refBlocks (m + 1) (d := ((d.begin strict input).withSize v c).withCount w c') rfl hstay
    ((Nat.zero_add _).trans hcount.symm)).bind ?_
  rintro e d' ⟨hph, rfl, hstrict, husize⟩
  have hend := d'.computes_end (p := p) hph
  rw [hstrict, husize] at hend
  exact hend

end

theorem Dec.observe_of_done {d : Dec} (h : d.phase = .done) : d.observe = .result d.result := by
  simp [Dec.observe, Dec.isDone, h]

/-- Settles O58: R217's function is computed from the START on, and the host observes what it answers. -/
theorem stepsComputeDecompress : Obligations.StepsComputeDecompress := by
  intro s strict input ha hs
  obtain ⟨k, hk⟩ := s.dec.computes_refDecompress strict input (p := s.params) (.inl hs)
  refine ⟨k, _, runSteps_startDec k strict input ha, ?_⟩
  rw [State.withDec_dec]
  cases hr : refDecompress s.params input strict with
  | ok bytes =>
    rw [hr] at hk
    obtain ⟨hph, rfl⟩ := hk
    exact Dec.observe_of_done hph
  | error e =>
    rw [hr] at hk
    obtain ⟨d', hd⟩ := hk
    rw [hd]
    rfl

end Sys2Proof.Machine
end

section
/-! PROOFS. A compress with ENC alone at work, under LOOKAHEAD = BLOCK_END: from HEADER on no step raises or stops, and
each takes one off a bound on the steps left (43_block_framer.md R209 to R212, 70_reset_and_hazards.md R272). -/

namespace Sys2Proof.Machine

open Sys2Proof

/-! ### ENC alone -/

/-- ENC's rule goes on from `c`, step by step, and after `k` steps ENC is `c'`. -/
inductive Enc.GoesTo (p : Params) : Nat → Enc → Enc → Prop where
  | refl (c : Enc) : GoesTo p 0 c c
  | head {k : Nat} {c c' c'' : Enc} (h : encRule p c = .go () c') (t : GoesTo p k c' c'') : GoesTo p (k + 1) c c''

theorem Enc.phase_of_not_busy {c : Enc} (h : c.busy = false) :
    c.phase = .idle ∨ c.phase = .done ∨ c.phase = .fault := by
  cases hph : c.phase <;> simp [Enc.busy, hph] at h ⊢

theorem encRule_of_not_busy (p : Params) {c : Enc} (h : c.busy = false) : encRule p c = .go () c := by
  obtain hph | hph | hph := c.phase_of_not_busy h
  all_goals rw [encRule, hph]

/-- With ENC alone at work a step on which its rule goes on replaces ENC by what the rule leaves. -/
theorem step_of_encAlone_go {s : State} {c : Enc} (ha : s.encAlone = true)
    (hgo : encRule s.params s.enc = .go () c) : step s = .next (s.withEnc c) := by
  cases hb : s.enc.busy with
  | true => rw [step_encAlone ha hb, onEnc_go hgo]
  | false =>
    obtain ⟨he, hp⟩ : s.dec.busy = false ∧ s.pending = [] := by simpa [State.encAlone] using ha
    have hm : s.mover = none := by
      unfold State.mover
      cases ht : s.turn <;> simp [State.enabled, he, hp, hb]
    cases (encRule_of_not_busy s.params hb).symm.trans hgo
    exact step_none hm

/-- With ENC alone at work the machine's steps are ENC's. -/
theorem runSteps_of_goesTo {p : Params} {k : Nat} {c c' : Enc} (h : Enc.GoesTo p k c c') {s : State}
    (ha : s.encAlone = true) (hp : s.params = p) (hc : s.enc = c) : runSteps k s = .next (s.withEnc c') := by
  induction h generalizing s with
  | refl => rw [← hc]; rfl
  | head hgo _ ih =>
    rw [runSteps_succ _ (step_of_encAlone_go ha (by rwa [hp, hc]))]
    exact ih (s := s.withEnc _) ha hp rfl

theorem Enc.GoesTo.trans {p : Params} {j k : Nat} {c c' c'' : Enc} (h : GoesTo p j c c') (h' : GoesTo p k c' c'') :
    GoesTo p (j + k) c c'' := by
  induction h with
  | refl => rwa [Nat.zero_add]
  | head hgo _ ih => rw [Nat.add_right_comm]; exact .head hgo (ih h')

/-! ### The steps from HEADER on -/

/-- ENC with a block opened (R211). -/
def Enc.openedBlock (c : Enc) : Enc :=
  { outAppend [0, 0] c with
    bs := 512 * c.blk
    be := min (512 * c.blk + 512) c.n
    ppos := c.out.length
    phase := .grpOpen }

/-- ENC with a group opened (R170). -/
def Enc.openedGroup (c : Enc) : Enc :=
  { outAppend [0] c with gpos := c.out.length, gbyte := 0, slot := 0, phase := .slot }

/-- ENC with a group closed (R179). -/
def Enc.closedGroup (c : Enc) : Enc := { c with out := c.out.set c.gpos c.gbyte, phase := .grpOpen }

/-- What one step makes of ENC between HEADER and DONE. -/
inductive Enc.ProceedsTo (p : Params) (c : Enc) : Enc → Prop where
  | opensBlock (hph : c.phase = .blkOpen) : c.ProceedsTo p c.openedBlock
  | leavesGroups (hph : c.phase = .grpOpen) (hend : c.p = c.be) : c.ProceedsTo p { c with phase := .blkClose }
  | opensGroup (hph : c.phase = .grpOpen) (hleft : c.p < c.be) : c.ProceedsTo p c.openedGroup
  | fillsGroup (hph : c.phase = .slot) (hclose : c.slot = 4 ∨ c.p = c.be) : c.ProceedsTo p { c with phase := .grpClose }
  | emits {v : Byte} (hph : c.phase = .slot) (hslot : c.slot ≠ 4) (hleft : c.p < c.be) (hv : c.src[c.p]? = some v) :
      c.ProceedsTo p (emit p (choose p v c) c)
  | closesGroup (hph : c.phase = .grpClose) : c.ProceedsTo p c.closedGroup
  | nextBlock (hph : c.phase = .blkClose) (hnext : c.blk + 1 < c.nblocks) :
      c.ProceedsTo p { closedBlock c with phase := .blkOpen }
  | finishes (hph : c.phase = .blkClose) (hlast : ¬ c.blk + 1 < c.nblocks) :
      c.ProceedsTo p { closedBlock c with phase := .done, result := (closedBlock c).out }

/-- The phases between HEADER and DONE. -/
def EncPhase.working (ph : EncPhase) : Bool := ph.inBlock || ph == .blkOpen

section
variable {p : Params} {c c' : Enc}

theorem encRule_opensGroup (hla : p.lookahead = .blockEnd) (hph : c.phase = .grpOpen) (hne : c.p ≠ c.be) :
    encRule p c = .go () c.openedGroup := by
  rw [encRule_grpOpen hph, encGrpOpen, if_neg (mt (Enc.exhausted_iff hla).1 hne)]
  rfl

/-- Between HEADER and DONE every step goes on. -/
theorem Enc.Inv.proceeds (h : c.Inv p) (hla : p.lookahead = .blockEnd) (hw : c.phase.working = true) :
    ∃ c', encRule p c = .go () c' ∧ c.ProceedsTo p c' := by
  have hlt (hin : c.phase.inBlock = true) (hne : c.p ≠ c.be) : c.p < c.be :=
    h.lt_be hin (mt (Enc.exhausted_iff hla).1 hne)
  cases hph : c.phase with
  | idle | check | header | done | fault => simp [hph, EncPhase.working, EncPhase.inBlock] at hw
  | blkOpen => exact ⟨_, encRule_blkOpen hph, .opensBlock hph⟩
  | grpOpen =>
    by_cases hend : c.p = c.be
    · refine ⟨_, ?_, .leavesGroups hph hend⟩
      rw [encRule_grpOpen hph, encGrpOpen, if_pos ((Enc.exhausted_iff hla).2 hend)]
    · exact ⟨_, encRule_opensGroup hla hph hend, .opensGroup hph (hlt (by rw [hph]; rfl) hend)⟩
  | slot =>
    by_cases hclose : c.slot = 4 ∨ c.p = c.be
    · exact ⟨_, (encRule_slot hph).trans (encSlot_closes hla hclose), .fillsGroup hph hclose⟩
    · obtain ⟨hslot, hne⟩ := not_or.1 hclose
      have hleft := hlt (by rw [hph]; rfl) hne
      have hbe := ((h.inBlock (by rw [hph]; rfl)).limit_le (p := p)).1
      have hv : c.src[c.p]? = some _ := List.getElem?_eq_getElem (hleft.trans_le hbe)
      exact ⟨_, (encRule_slot hph).trans (encSlot_emits hla hslot hne hbe hv), .emits hph hslot hleft hv⟩
  | grpClose =>
    refine ⟨_, ?_, .closesGroup hph⟩
    rw [encRule_grpClose hph, encGrpClose, outPatch_go _ (h.inGroup (by rw [hph]; rfl)).gpos_lt]
    rfl
  | blkClose =>
    rw [encRule_blkClose hph, h.encBlkClose_eq hla hph]
    split
    · exact ⟨_, rfl, .nextBlock hph ‹_›⟩
    · exact ⟨_, rfl, .finishes hph ‹_›⟩

/-- What a phase still costs, in steps, before the next byte is taken. -/
def Enc.phaseSteps (c : Enc) : Nat :=
  match c.phase with
  | .slot => if c.slot = 0 then 1 else 7
  | .grpOpen => if c.p < c.be then 2 else 5
  | .blkOpen => 3
  | .blkClose => 4
  | .grpClose => 6
  | .idle => 0
  | .check => 0
  | .header => 0
  | .done => 0
  | .fault => 0

theorem Enc.phaseSteps_slot (h : c.phase = .slot) : c.phaseSteps = if c.slot = 0 then 1 else 7 := by
  rw [phaseSteps, h]

theorem Enc.phaseSteps_grpOpen (h : c.phase = .grpOpen) : c.phaseSteps = if c.p < c.be then 2 else 5 := by
  rw [phaseSteps, h]

theorem Enc.phaseSteps_blkOpen (h : c.phase = .blkOpen) : c.phaseSteps = 3 := by rw [phaseSteps, h]

theorem Enc.phaseSteps_blkClose (h : c.phase = .blkClose) : c.phaseSteps = 4 := by rw [phaseSteps, h]

theorem Enc.phaseSteps_grpClose (h : c.phase = .grpClose) : c.phaseSteps = 6 := by rw [phaseSteps, h]

/-- A bound on the steps left: seven for each byte of SRC. Behind the last byte there is no group to open, so three are
never taken. -/
def Enc.stepsLeft (c : Enc) : Nat := 7 * (c.n - c.p) + c.phaseSteps - 3

/-- R36, R180: inside a block p does not pass N. -/
theorem Enc.Inv.within_source (h : c.Inv p) (hla : p.lookahead = .blockEnd) (hin : c.phase.inBlock = true) :
    c.bs ≤ c.p ∧ c.p ≤ c.be ∧ c.be ≤ c.n := by
  obtain ⟨-, hbe⟩ := h.bounds hin
  exact ⟨((h.framed hla).within hin).1, ((h.framed hla).within hin).2, by omega⟩

/-- R211: a block to be opened starts before N. -/
theorem Enc.Inv.blkOpen_lt (h : c.Inv p) (hla : p.lookahead = .blockEnd) (hph : c.phase = .blkOpen) :
    c.p = 512 * c.blk ∧ c.p < c.n := by
  have hopened := (h.framed hla).opened hph
  have hlt := lt_of_lt_ceilDiv ((h.nblocks (by rw [hph]; rfl)) ▸ h.blk (.inr hph))
  exact ⟨hopened, by omega⟩

/-- Every step between HEADER and DONE takes one off the steps left. -/
theorem Enc.ProceedsTo.stepsLeft_lt (hm : c.ProceedsTo p c') (h : c.Inv p) (hla : p.lookahead = .blockEnd) :
    c'.stepsLeft < c.stepsLeft := by
  have hsource (hin : c.phase.inBlock = true) := h.within_source hla hin
  unfold Enc.stepsLeft
  cases hm with
  | opensBlock hph =>
    obtain ⟨hopened, hlt⟩ := h.blkOpen_lt hla hph
    have hleft : c.openedBlock.p < c.openedBlock.be := show c.p < min (512 * c.blk + 512) c.n by omega
    rw [phaseSteps_grpOpen rfl, if_pos hleft, phaseSteps_blkOpen hph]
    exact (by omega : 7 * (c.n - c.p) + 2 - 3 < 7 * (c.n - c.p) + 3 - 3)
  | leavesGroups hph hend =>
    rw [phaseSteps_blkClose rfl, phaseSteps_grpOpen hph, if_neg (by omega)]
    exact (by omega : 7 * (c.n - c.p) + 4 - 3 < 7 * (c.n - c.p) + 5 - 3)
  | opensGroup hph hleft =>
    have := hsource (by rw [hph]; rfl)
    rw [phaseSteps_slot rfl, if_pos (show c.openedGroup.slot = 0 from rfl), phaseSteps_grpOpen hph, if_pos hleft]
    exact (by omega : 7 * (c.n - c.p) + 1 - 3 < 7 * (c.n - c.p) + 2 - 3)
  | fillsGroup hph hclose =>
    have hpos := (h.framed hla).slot_pos hph (hclose.imp_left (congrArg BitVec.toNat))
    have h0 : ¬ c.slot = 0 := fun h0 => by rw [h0] at hpos; cases hpos
    rw [phaseSteps_grpClose rfl, phaseSteps_slot hph, if_neg h0]
    exact (by omega : 7 * (c.n - c.p) + 6 - 3 < 7 * (c.n - c.p) + 7 - 3)
  | @emits v hph hslot hleft hv =>
    have hlimit : c.limit p = c.be := by simp [Enc.limit, hla]
    obtain ⟨-, -, hcovers, hle, -⟩ := selectedCommandsAreLegal p v c hv (hlimit ▸ hleft)
    have := hsource (by rw [hph]; rfl)
    have hsucc := (h.inBlock (by rw [hph]; rfl)).toNat_succ_slot fun h4 => hslot (BitVec.eq_of_toNat_eq h4)
    have h0 : ¬ (emit p (choose p v c) c).slot = 0 := fun h0 => by
      rw [show c.slot + 1 = 0 from h0] at hsucc
      cases hsucc
    rw [phaseSteps_slot rfl, if_neg h0, phaseSteps_slot hph, emit_n, emit_p]
    split <;> omega
  | closesGroup hph =>
    rw [phaseSteps_grpOpen rfl, phaseSteps_grpClose hph]
    have hsteps : (if c.p < c.be then 2 else 5) ≤ 5 := by split <;> omega
    exact (by omega : 7 * (c.n - c.p) + (if c.p < c.be then 2 else 5) - 3 < 7 * (c.n - c.p) + 6 - 3)
  | nextBlock hph hnext =>
    rw [phaseSteps_blkOpen rfl, phaseSteps_blkClose hph]
    simp only [closedBlock, endMark_n, endMark_p]
    omega
  | finishes hph hlast =>
    rw [phaseSteps_blkClose hph]
    simp only [closedBlock, endMark_n, endMark_p, phaseSteps]
    omega

theorem Enc.ProceedsTo.working_or_done (hm : c.ProceedsTo p c') : c'.phase.working = true ∨ c'.phase = .done := by
  cases hm with
  | finishes => exact .inr rfl
  | _ => exact .inl rfl

/-- Between HEADER and DONE every step keeps the invariant. -/
theorem Enc.Inv.of_go (h : c.Inv p) (hgo : encRule p c = .go () c') : c'.Inv p :=
  h.keeps_encRule.of_left (.inl hgo)

/-- From HEADER on a compress comes to DONE within the steps left, and keeps what every step between HEADER and DONE
keeps. -/
theorem Enc.Inv.goesTo_done {S : Enc → Prop} (hla : p.lookahead = .blockEnd)
    (hkeeps : ∀ c c' : Enc, c.Inv p → c.ProceedsTo p c' → S c → S c') (h : c.Inv p) (hw : c.phase.working = true)
    (hs : S c) : ∃ k ≤ c.stepsLeft, ∃ c', GoesTo p k c c' ∧ c'.phase = .done ∧ c'.Inv p ∧ S c' := by
  induction hn : c.stepsLeft using Nat.strong_induction_on generalizing c with
  | _ n ih =>
    obtain ⟨c1, hgo, hm⟩ := h.proceeds hla hw
    have hlt := hm.stepsLeft_lt h hla
    have h1 := h.of_go hgo
    have hs1 := hkeeps c c1 h hm hs
    obtain hw1 | hdone := hm.working_or_done
    · obtain ⟨k, hk, c2, hgoes, hend⟩ := ih _ (hn ▸ hlt) h1 hw1 hs1 rfl
      exact ⟨k + 1, by omega, c2, .head hgo hgoes, hend⟩
    · exact ⟨1, by omega, c1, .head hgo (.refl c1), hdone, h1, hs1⟩

/-! ### From the START to the first group -/

/-- ENC with the header written (R210). -/
def Enc.withHeader (p : Params) (c : Enc) : Enc :=
  { c with
    nblocks := ceilDiv c.n 512
    out := c.out ++ varintBytes p.varintForm c.n ++ varintBytes p.varintForm (ceilDiv c.n 512 - 1)
    blk := 0
    p := 0
    phase := .blkOpen }

/-- ENC with the first group of a source open. -/
def Enc.firstGroup (p : Params) (c : Enc) (source : Bytes) : Enc :=
  ((c.begin source).withHeader p).openedBlock.openedGroup

/-- A source in the header's range comes to its first group in four steps. -/
theorem Enc.goesTo_firstGroup (c : Enc) {source : Bytes} (hla : p.lookahead = .blockEnd) (h1 : 1 ≤ source.length)
    (hn : source.length ≤ 2 ^ 24 - 1) : GoesTo p 4 (c.begin source) (c.firstGroup p source) := by
  have hleft : ((c.begin source).withHeader p).openedBlock.p ≠ ((c.begin source).withHeader p).openedBlock.be :=
    show 0 ≠ min (512 * 0 + 512) source.length by omega
  exact .head ((encRule_check rfl).trans (encCheck_accepts p h1 hn)) <|
    .head ((encRule_header rfl).trans (encHeader_go p h1 hn)) <| .head (encRule_blkOpen rfl) <|
    .head (encRule_opensGroup hla rfl hleft) <| .refl _

/-- A START leaves the slot of the compress before it (log 3), which the invariant bounds; the first group resets it,
so a START with slot 0 comes to the same first group. -/
theorem Enc.inv_withHeader (c : Enc) {source : Bytes} (h1 : 1 ≤ source.length) (hn : source.length ≤ 2 ^ 24 - 1) :
    (({ c with slot := 0 } : Enc).begin source |>.withHeader p).Inv p := by
  have hbegin : (({ c with slot := 0 } : Enc).begin source).Inv p :=
    Enc.inv_of_outside rfl nofun rfl rfl (Nat.zero_le _) (fun hp => hp.elim nofun nofun) nofun nofun nofun
  have hcheck := hbegin.of_go ((encRule_check rfl).trans (encCheck_accepts p h1 hn))
  exact hcheck.of_go ((encRule_header rfl).trans (encHeader_go p h1 hn))

/-- A compress of a source in the header's range comes to DONE, and keeps what holds once the header is written and
every step from there on keeps. -/
theorem Enc.begin_goesTo_done {S : Enc → Prop} (hla : p.lookahead = .blockEnd)
    (hkeeps : ∀ c c' : Enc, c.Inv p → c.ProceedsTo p c' → S c → S c') (c : Enc) {source : Bytes}
    (h1 : 1 ≤ source.length) (hn : source.length ≤ 2 ^ 24 - 1)
    (hs : S ((({ c with slot := 0 } : Enc).begin source).withHeader p)) :
    ∃ k ≤ 7 * source.length + 2, ∃ c', GoesTo p k (c.begin source) c' ∧ c'.phase = .done ∧ c'.Inv p ∧ S c' := by
  have hinv := inv_withHeader (p := p) c h1 hn
  have hleft : 0 < min (512 * 0 + 512) source.length := by omega
  have hinv' := hinv.of_go (encRule_blkOpen rfl)
  have hs' := hkeeps _ _ hinv (.opensBlock rfl) hs
  have hgroup : (c.firstGroup p source).Inv p := hinv'.of_go (encRule_opensGroup hla rfl hleft.ne)
  obtain ⟨k, hk, c', hgoes, hend⟩ := hgroup.goesTo_done hla hkeeps rfl (hkeeps _ _ hinv' (.opensGroup rfl hleft) hs')
  have hsteps : (c.firstGroup p source).stepsLeft = 7 * source.length + 1 - 3 := by
    rw [stepsLeft, phaseSteps_slot rfl]
    rfl
  exact ⟨4 + k, by omega, c', (c.goesTo_firstGroup hla h1 hn).trans hgoes, hend⟩

end

end Sys2Proof.Machine
end

section
/-! PROOFS. The varints of the header read back, in both forms of VARINT.ENC (40_varint.md R122, R124). -/

namespace Sys2Proof.Machine

open Sys2Proof

/-- The varint written for a value is no command. -/
theorem kind_varintInstr (f : VarintForm) (v : Nat) : (varintInstr f v).kind = none := by
  unfold varintInstr
  split_ifs
  all_goals rfl

/-- Under EIGHT_BIT (log 10) an extra byte brings eight bits, some of which the bytes before it have brought. -/
theorem or_byte (v a k : Nat) (hlow : 6 * k ≤ a) (hhigh : a ≤ 6 * k + 8) :
    v % 2 ^ a ||| (varintExtraByte .eightBit v k).toNat <<< (6 * k) = v % 2 ^ (6 * k + 8) := by
  rw [varintExtraByte, BitVec.toNat_ofNat]
  refine Nat.eq_of_testBit_eq fun b => ?_
  simp only [Nat.testBit_or, Nat.testBit_mod_two_pow, Nat.testBit_shiftLeft, Nat.testBit_div_two_pow]
  by_cases hb : b < 6 * k
  · simp [Nat.not_le.2 hb, hb.trans_le hlow, Nat.lt_add_right 8 hb]
  · rw [Nat.sub_add_cancel (Nat.le_of_not_lt hb)]
    by_cases hin : b < 6 * k + 8
    · have hchunk : b - 6 * k < 8 := by omega
      simp [hchunk, hin, Nat.le_of_not_lt hb]
    · have hchunk : ¬ b - 6 * k < 8 := by omega
      have hout : ¬ b < a := by omega
      simp [hchunk, hin, hout]

/-- Under EIGHT_BIT the varint written for a value carries it. -/
theorem headerValue_eightBit {v : Nat} (hv : v < 2 ^ 26) :
    ∃ w, (varintInstr .eightBit v).headerValue = some w ∧ w.toNat = v := by
  have hvalue (es : Bytes) (hes : es.length ≤ 3) : (varintValue (BitVec.ofNat 6 v) es).toNat =
      (es.zipIdx 1).foldl (fun acc ek => acc ||| (ek.1.toNat <<< (6 * ek.2))) (v % 2 ^ 6) := by
    rw [varintValue, toNat_orExtra _ 1 _ (by omega), BitVec.toNat_setWidth, BitVec.toNat_ofNat,
      Nat.mod_eq_of_lt (by omega)]
  have hone := or_byte v 6 1 (by omega) (by omega)
  have htwo := or_byte v 14 2 (by omega) (by omega)
  have hthree := or_byte v 20 3 (by omega) (by omega)
  unfold varintInstr
  split_ifs with h0 h1 h2
  · exact ⟨_, rfl, (hvalue [] (by simp)).trans (Nat.mod_eq_of_lt h0)⟩
  · refine ⟨_, rfl, (hvalue [_] (by simp)).trans ?_⟩
    exact hone.trans (Nat.mod_eq_of_lt h1)
  · refine ⟨_, rfl, (hvalue [_, _] (by simp)).trans ?_⟩
    simp only [List.zipIdx_cons, List.zipIdx_nil, List.foldl_cons, List.foldl_nil, hone]
    exact htwo.trans (Nat.mod_eq_of_lt h2)
  · refine ⟨_, rfl, (hvalue [_, _, _] (by simp)).trans ?_⟩
    simp only [List.zipIdx_cons, List.zipIdx_nil, List.foldl_cons, List.foldl_nil, hone]
    refine Eq.trans ?_ (hthree.trans (Nat.mod_eq_of_lt hv))
    exact congrArg (· ||| _) htwo

/-- R124: in either form the varint written for a value the encoder takes carries it. -/
theorem headerValue_varintInstr (f : VarintForm) {v : Nat} (hv : v ≤ 2 ^ 24 - 1) :
    ∃ w, (varintInstr f v).headerValue = some w ∧ w.toNat = v := by
  cases f with
  | sixBit => exact ⟨_, (varintRoundTrip v [] hv).2, Nat.mod_eq_of_lt (by omega)⟩
  | eightBit => exact headerValue_eightBit (by omega)

/-- R124: where the bytes of a varint written stand, `VarintRead` gives the value and passes them. -/
theorem refVarint_of_varintBytes {f : VarintForm} {v : Nat} {inp rest : Bytes} {c : Cursor} (hv : v ≤ 2 ^ 24 - 1)
    (h : c.remaining inp = varintBytes f v ++ rest) :
    refVarint inp c = .ok (v, c.past (varintBytes f v).length) := by
  obtain ⟨w, hw, rfl⟩ := headerValue_varintInstr f hv
  have hdec := decodeVarint_encode CodeMap.spec rest (kind_varintInstr f w.toNat)
  exact refVarint_of_decodeVarint (h ▸ hdec) hw

end Sys2Proof.Machine
end

section
/-! PROOFS. The command the encoder selects, run by R217, gives the source bytes it covers (42_encoder.md R182). -/

namespace Sys2Proof.Machine

open Sys2Proof

section
variable {p : Params} {c : Enc} {v : Byte}

/-- Bytes that agree with the source from a position on are the source's next bytes. -/
theorem take_append_of_agree {src bs : Bytes} {q : Nat} (h : ∀ i < bs.length, src[q + i]? = bs[i]?) :
    src.take q ++ bs = src.take (q + bs.length) := by
  have hbs : (src.drop q).take bs.length = bs := by
    refine List.ext_getElem? fun i => ?_
    by_cases hi : i < bs.length
    · rw [List.getElem?_take_of_lt hi, List.getElem?_drop, h i hi]
    · rw [List.getElem?_eq_none (by simp; omega), List.getElem?_eq_none (by omega)]
  rw [List.take_add, hbs]

/-- R182: a copy that reads no byte it writes gives the bytes at its distance. -/
theorem getElem?_copied {dst : Bytes} {d n i : Nat} (hi : i < n) (hn : n ≤ d) (hd : d ≤ dst.length) :
    (copied dst d n)[i]? = dst[dst.length - d + i]? := by
  rw [copied, List.getElem?_map, List.getElem?_range hi, Option.map_some, Nat.mod_eq_of_lt (by omega),
    List.getD_eq_getElem _ _ (by omega), List.getElem?_eq_getElem (by omega)]

/-- R182: R217 appends for the selected command the source bytes it covers, where the destination is the source up to
it. -/
theorem choose_appendsOf (hv : c.src[c.p]? = some v) (hlt : c.p < c.limit p) (ipos : Nat) :
    ∃ bs : Bytes, Cursor.AppendsOf p ⟨ipos, c.src.take c.p⟩ (choose p v c) bs ∧
      bs.length = covered (choose p v c) ∧ ∀ i < bs.length, c.src[c.p + i]? = bs[i]? := by
  have hp : c.p < c.src.length := (List.getElem?_eq_some_iff.1 hv).1
  have hlen : (c.src.take c.p).length = c.p := List.length_take_of_le hp.le
  obtain hs | ⟨d, n, hs, hd2, hreach, hn2, hn, hagree⟩ | ⟨r, hs, h2, h257, hsame⟩ := choose_cases hv hlt
  · rw [hs]
    refine ⟨[v], Cursor.appendsOf_copy p _ v, rfl, fun i hi => ?_⟩
    obtain rfl : i = 0 := by simpa using hi
    exact hv
  · rw [hs]
    have hd : d ≤ c.p := by
      have : c.reach p ≤ c.p := by unfold Enc.reach; split <;> omega
      omega
    refine ⟨_, Cursor.appendsOf_lz77 p n hd2 (hd.trans hlen.ge), copied_length _ _ _, fun i hi => ?_⟩
    rw [copied_length] at hi
    rw [hagree i hi, getElem?_copied hi (by omega) (hd.trans hlen.ge), hlen, List.getElem?_take_of_lt (by omega)]
  · rw [hs]
    refine ⟨_, Cursor.appendsOf_rle p _ r v, List.length_replicate, fun i hi => ?_⟩
    rw [List.length_replicate] at hi
    rw [hsame i hi, List.getElem?_replicate, if_pos hi]

/-- R182: with room in the destination, a slot that holds the selected command's code takes its operands and gives the
source bytes it covers. -/
theorem refSlot_choose {inp rest : Bytes} {g : Byte} {slot ipos : Nat} (hm : p.codeMap.wf = true)
    (hroom : ∀ cap, p.dstCap = some cap → c.src.length ≤ cap) (hv : c.src[c.p]? = some v) (hlt : c.p < c.limit p)
    (hcode : slotCode g slot = emitCode p.codeMap (choose p v c))
    (hbytes : Cursor.remaining inp ⟨ipos, c.src.take c.p⟩ = (choose p v c).operands ++ rest) :
    refSlot p inp g slot ⟨ipos, c.src.take c.p⟩ =
      .ok (false, ⟨ipos + (choose p v c).operands.length, c.src.take (c.p + covered (choose p v c))⟩) := by
  obtain ⟨hwf, -, -, -, hcases⟩ := selectedCommandsAreLegal p v c hv hlt
  obtain ⟨k, hk⟩ : ∃ k, (choose p v c).kind = some k := by
    obtain hs | ⟨d, n, hs, -⟩ | ⟨r, hs, -⟩ := hcases
    all_goals exact ⟨_, congrArg Instr.kind hs⟩
  have hdec := commandOperandsDecodeInEverySlot p.codeMap _ k g slot rest hm hwf hk
    (hcode.trans (emitCode_of_kind _ hk))
  obtain ⟨bs, happends, hlen, hagree⟩ := choose_appendsOf hv hlt (ipos + (choose p v c).operands.length)
  have hfits : ∀ i < bs.length, p.dstCap ≠ some ((c.src.take c.p).length + i) := by
    intro i hi hcap
    have hsome : c.src[c.p + i]? = some bs[i] := (hagree i hi).trans (List.getElem?_eq_getElem hi)
    have hlt' : c.p + i < c.src.length := (List.getElem?_eq_some_iff.1 hsome).1
    have := hroom _ hcap
    rw [List.length_take] at this
    omega
  have happended := take_append_of_agree hagree
  rw [hlen] at happended
  rw [← hbytes] at hdec
  rw [refSlot_of_decodeSlot hdec]
  refine happends.trans ?_
  rw [refAppendAll_go hfits, ok_bind, Cursor.produce, happended]
  rfl

end

end Sys2Proof.Machine
end

section
/-! PROOFS. What a strict decompress reads of the bytes a compress has written so far (43_block_framer.md R216): an
invariant of the encoder's steps, in terms of R217's function on every input that holds those bytes. The group byte and
the size bytes still reserved are left out of it until they are patched. -/

namespace Sys2Proof.Machine

open Sys2Proof

/-! ### Inputs that hold bytes written -/

/-- The input holds the bytes of OUT from `lo` up to `hi`. -/
def Agrees (inp out : Bytes) (lo hi : Nat) : Prop := ∀ a, lo ≤ a → a < hi → inp[a]? = out[a]?

section
variable {inp out : Bytes} {lo hi : Nat}

theorem Agrees.mono {lo' hi' : Nat} (h : Agrees inp out lo hi) (hlo : lo ≤ lo') (hhi : hi' ≤ hi) :
    Agrees inp out lo' hi' := fun a hge hlt => h a (hlo.trans hge) (hlt.trans_le hhi)

/-- Bytes appended leave those before them. -/
theorem Agrees.of_append {bs : Bytes} (h : Agrees inp (out ++ bs) lo hi) (hhi : hi ≤ out.length) :
    Agrees inp out lo hi := fun a hge hlt => by
  rw [h a hge hlt, List.getElem?_append_left (hlt.trans_le hhi)]

/-- A patch leaves the bytes before it and behind it. -/
theorem Agrees.of_set {a : Nat} {v : Byte} (h : Agrees inp (out.set a v) lo hi) (ha : a < lo ∨ hi ≤ a) :
    Agrees inp out lo hi := fun b hge hlt => by
  rw [h b hge hlt, List.getElem?_set_ne (by omega)]

/-- Where bytes were appended the input goes on with them. -/
theorem Agrees.drop_of_append {bs : Bytes} (h : Agrees inp (out ++ bs) lo (out ++ bs).length) (hlo : lo ≤ out.length) :
    inp.drop out.length = bs ++ inp.drop (out.length + bs.length) := by
  have hbs : (inp.drop out.length).take bs.length = bs := by
    refine List.ext_getElem? fun i => ?_
    by_cases hi : i < bs.length
    · rw [List.getElem?_take_of_lt hi, List.getElem?_drop, h _ (by omega) (by simp; omega),
        List.getElem?_append_right (by omega), Nat.add_sub_cancel_left]
    · rw [List.getElem?_eq_none (by simp; omega), List.getElem?_eq_none (by omega)]
  rw [← List.drop_drop, ← congrArg (· ++ _) hbs, List.take_append_drop]

theorem refByte_of_get {b : Byte} {a : Nat} {dst : Bytes} (h : inp[a]? = some b) :
    refByte inp ⟨a, dst⟩ = .ok (b, ⟨a + 1, dst⟩) := by rw [refByte, h]

end

/-! ### What has been read -/

/-- The end of a strict decompress in R217: the size check. -/
def refFinish (n : Nat) (e : Cursor) : Except Exn Bytes :=
  if e.dst.length != n then .error (.uncompressedSizeMismatch n e.dst.length) else .ok e.dst

section
variable (p : Params) (c : Enc)

/-- A strict decompress of an input that holds the bytes of OUT up to `e` has read the header and the blocks closed,
and has the source up to `q` when it goes on at `e`. -/
def Enc.BlocksRead (e q : Nat) : Prop :=
  ∀ inp, Agrees inp c.out 0 e → refDecompress p inp true =
    refBlocks p inp true (c.nblocks - c.blk) c.blk ⟨e, c.src.take q⟩ >>= refFinish c.n

/-- Of an input that holds the bytes of OUT from the block's size bytes up to `e` the groups before `e` read to the
source up to `q`, `gcnt` full groups of at least a byte for each slot. -/
def Enc.GroupsRead (e q gcnt : Nat) : Prop :=
  c.bs + 4 * gcnt ≤ q ∧ ∀ inp, Agrees inp c.out (c.ppos + 2) e →
    refGroups p inp 256 ⟨c.ppos + 2, c.src.take c.bs⟩ = refGroups p inp (256 - gcnt) ⟨e, c.src.take q⟩

/-- Of an input that holds the bytes of OUT from the block's size bytes on the groups end at OUT's end. -/
def Enc.GroupsEnd : Prop :=
  ∀ inp, Agrees inp c.out (c.ppos + 2) c.out.length →
    refGroups p inp 256 ⟨c.ppos + 2, c.src.take c.bs⟩ = .ok ⟨c.out.length, c.src.take c.p⟩

/-- Of an input that holds the operands of the open group the slots filled, as a group byte with their codes has them,
take the destination from the source up to `q` to the source up to p. -/
def Enc.SlotsRead (q : Nat) : Prop :=
  q + c.slot.toNat ≤ c.p ∧ ∀ (inp : Bytes) (g : Byte), (∀ j < c.slot.toNat, slotCode g j = slotCode c.gbyte j) →
    Agrees inp c.out (c.gpos + 1) c.out.length →
    refSlots p inp g 4 ⟨c.gpos + 1, c.src.take q⟩ =
      refSlots p inp g (4 - c.slot.toNat) ⟨c.out.length, c.src.take c.p⟩

/-- Between groups the groups written read to the source up to p: all of them full, or, the last one not full, to the
block's end. -/
def Enc.BetweenGroups : Prop :=
  (c.p < c.be ∨ c.slot = 4 → ∃ gcnt, c.GroupsRead p c.out.length c.p gcnt) ∧
  (c.p = c.be → c.slot ≠ 4 → c.GroupsEnd p)

/-- Inside a group the groups before it read to some position of the source, and its slots from there to p. -/
def Enc.InsideGroup : Prop := ∃ q gcnt, c.GroupsRead p c.gpos q gcnt ∧ c.SlotsRead p q

/-- What OUT holds reads back to the source, as far as it is encoded. -/
def Enc.ReadsBack : Prop :=
  match c.phase with
  | .blkOpen => c.BlocksRead p c.out.length c.p
  | .grpOpen => c.BlocksRead p c.ppos c.bs ∧ c.BetweenGroups p
  | .blkClose => c.BlocksRead p c.ppos c.bs ∧ c.BetweenGroups p
  | .slot => c.BlocksRead p c.ppos c.bs ∧ c.InsideGroup p
  | .grpClose => c.BlocksRead p c.ppos c.bs ∧ c.InsideGroup p
  | .done => refDecompress p c.out true = .ok c.src
  | .idle => True
  | .check => True
  | .header => True
  | .fault => True

end

section
variable {p : Params} {c : Enc}

theorem Enc.readsBack_of_blkOpen (h : c.ReadsBack p) (hph : c.phase = .blkOpen) :
    c.BlocksRead p c.out.length c.p := by
  rwa [ReadsBack, hph] at h

theorem Enc.readsBack_of_between (h : c.ReadsBack p) (hph : c.phase = .grpOpen ∨ c.phase = .blkClose) :
    c.BlocksRead p c.ppos c.bs ∧ c.BetweenGroups p := by
  obtain hph | hph := hph
  · rwa [ReadsBack, hph] at h
  · rwa [ReadsBack, hph] at h

theorem Enc.readsBack_of_inGroup (h : c.ReadsBack p) (hph : c.phase = .slot ∨ c.phase = .grpClose) :
    c.BlocksRead p c.ppos c.bs ∧ c.InsideGroup p := by
  obtain hph | hph := hph
  · rwa [ReadsBack, hph] at h
  · rwa [ReadsBack, hph] at h

/-! ### The steps -/

/-- R211: no group has been read of a block just opened. -/
theorem Enc.ReadsBack.openedBlock (h : c.ReadsBack p) (hinv : c.Inv p) (hla : p.lookahead = .blockEnd)
    (hph : c.phase = .blkOpen) : c.openedBlock.ReadsBack p := by
  obtain ⟨hopened, hlt⟩ := hinv.blkOpen_lt hla hph
  have hleft : c.p < c.openedBlock.be := show c.p < min (512 * c.blk + 512) c.n by omega
  have hblocks := readsBack_of_blkOpen h hph
  rw [hopened] at hblocks
  refine ⟨fun inp hag => hblocks inp (hag.of_append (le_refl _)), fun _ => ⟨0, hopened.ge, fun inp _ => ?_⟩,
    fun hend => absurd hend hleft.ne⟩
  have hlen : c.openedBlock.out.length = c.out.length + 2 := List.length_append
  rw [hlen, show c.openedBlock.p = c.openedBlock.bs from hopened]
  rfl

/-- R170: a group just opened has no slot filled. -/
theorem Enc.ReadsBack.openedGroup (h : c.ReadsBack p) (hinv : c.Inv p)
    (hph : c.phase = .grpOpen) (hleft : c.p < c.be) : c.openedGroup.ReadsBack p := by
  have hppos := (hinv.inBlock (by rw [hph]; rfl)).ppos_lt
  obtain ⟨hblocks, hbetween, -⟩ := readsBack_of_between h (.inl hph)
  obtain ⟨gcnt, hfull, hgroups⟩ := hbetween (.inl hleft)
  refine ⟨fun inp hag => hblocks inp (hag.of_append (show c.ppos ≤ c.out.length by omega)), c.p, gcnt,
    ⟨hfull, fun inp hag => hgroups inp (hag.of_append (le_refl _))⟩, le_refl _, fun inp g _ _ => ?_⟩
  have hlen : c.openedGroup.out.length = c.openedGroup.gpos + 1 := List.length_append
  rw [hlen]
  rfl

/-- R171, R182: the command emitted takes the destination on by the bytes it covers. -/
theorem Enc.ReadsBack.emit_choose {v : Byte} (h : c.ReadsBack p) (hinv : c.Inv p) (hla : p.lookahead = .blockEnd)
    (hm : p.codeMap.wf = true) (hroom : ∀ cap, p.dstCap = some cap → c.src.length ≤ cap) (hph : c.phase = .slot)
    (hslot : c.slot ≠ 4) (hleft : c.p < c.be) (hv : c.src[c.p]? = some v) :
    (emit p (choose p v c) c).ReadsBack p := by
  have hg := hinv.inGroup (by rw [hph]; rfl)
  have hgpos := hg.gpos_lt
  have hppos := hg.reservedGroup.1
  have hlimit : c.p < c.limit p := by simpa [Enc.limit, hla] using hleft
  obtain ⟨-, -, hcovers, -⟩ := selectedCommandsAreLegal p v c hv hlimit
  have hslot4 : c.slot.toNat ≠ 4 := fun h4 => hslot (BitVec.eq_of_toNat_eq h4)
  have hsucc := hg.toNat_succ_slot hslot4
  have hle := hg.slot
  obtain ⟨hblocks, q, gcnt, ⟨hfull, hgroups⟩, hfilled, hslots⟩ := readsBack_of_inGroup h (.inl hph)
  refine ⟨fun inp hag => hblocks inp (hag.of_append (show c.ppos ≤ c.out.length by omega)), q, gcnt,
    ⟨hfull, fun inp hag => hgroups inp (hag.of_append hgpos.le)⟩, ?_, fun inp g hcodes hag => ?_⟩
  · rw [emit_slot, emit_p, hsucc]
    omega
  · have hcode : slotCode g c.slot.toNat = emitCode p.codeMap (choose p v c) := by
      rw [hcodes _ (by rw [emit_slot, hsucc]; omega), emit_gbyte]
      exact slotCode_placeCode_self _ (by omega) (slotCode_of_lt hg.unused (le_refl _))
    have hbefore : ∀ j < c.slot.toNat, slotCode g j = slotCode c.gbyte j := fun j hj => by
      rw [hcodes j (by rw [emit_slot, hsucc]; omega), emit_gbyte, slotCode_placeCode_of_ne _ _ (by omega)]
    have hread := hslots inp g hbefore ((hag.mono (le_refl _) (by simp)).of_append (le_refl _))
    have hbytes : Cursor.remaining inp ⟨c.out.length, c.src.take c.p⟩ = (choose p v c).operands ++ _ :=
      hag.drop_of_append hgpos
    have hnext : 4 - c.slot.toNat = 4 - (c.slot.toNat + 1) + 1 := by omega
    have hindex : 4 - (4 - (c.slot.toNat + 1) + 1) = c.slot.toNat := by omega
    refine hread.trans ?_
    rw [hnext, refSlots_succ, hindex, refSlot_choose hm hroom hv hlimit hcode hbytes, emit_slot, hsucc, emit_out,
      List.length_append]
    rfl

/-- R92: a slot with code 0 ends the block. -/
theorem refSlots_of_code_zero {inp : Bytes} {g : Byte} {left : Nat} (cur : Cursor)
    (h : slotCode g (4 - (left + 1)) = 0) : refSlots p inp g (left + 1) cur = .ok (true, cur) := by
  rw [refSlots_succ, refSlot, h]
  rfl

/-- R140: a group is its group byte and its slots. -/
theorem refGroups_of_get {inp : Bytes} {g : Byte} {a left : Nat} {dst : Bytes} {r : Bool × Cursor}
    (hg : inp[a]? = some g) (hslots : refSlots p inp g 4 ⟨a + 1, dst⟩ = .ok r) :
    refGroups p inp (left + 1) ⟨a, dst⟩ = if r.1 then .ok r.2 else refGroups p inp left r.2 := by
  rw [refGroups_succ, refByte_of_get hg]
  simp only [ok_bind, hslots]
  rfl

/-- R170: a block has at most 128 full groups. -/
theorem Enc.Inv.gcnt_le (hinv : c.Inv p) (hla : p.lookahead = .blockEnd) (hin : c.phase.inBlock = true) {gcnt q : Nat}
    (hfull : c.bs + 4 * gcnt ≤ q) (hq : q ≤ c.p) : gcnt ≤ 128 := by
  obtain ⟨hbs, hbe⟩ := hinv.bounds hin
  obtain ⟨-, hle, -⟩ := hinv.within_source hla hin
  omega

/-- R179: a group closed reads by its group byte: the slots filled take the destination on to the source up to p, and
the slots not filled follow. -/
theorem Enc.InsideGroup.refGroups_closed (h : c.InsideGroup p) (hinv : c.Inv p) (hla : p.lookahead = .blockEnd)
    (hph : c.phase = .grpClose) :
    ∃ gcnt, c.bs + 4 * gcnt + c.slot.toNat ≤ c.p ∧ ∀ inp r, Agrees inp c.closedGroup.out (c.ppos + 2) c.out.length →
      refSlots p inp c.gbyte (4 - c.slot.toNat) ⟨c.out.length, c.src.take c.p⟩ = .ok r →
      refGroups p inp 256 ⟨c.ppos + 2, c.src.take c.bs⟩ =
        if r.1 then .ok r.2 else refGroups p inp (256 - (gcnt + 1)) r.2 := by
  have hg := hinv.inGroup (by rw [hph]; rfl)
  have hgpos := hg.gpos_lt
  have hppos := hg.reservedGroup.1
  obtain ⟨q, gcnt, ⟨hfull, hgroups⟩, hfilled, hslots⟩ := h
  have hgcnt := hinv.gcnt_le hla (by rw [hph]; rfl) hfull (by omega)
  refine ⟨gcnt, by omega, fun inp r hag hr => ?_⟩
  have hbyte : inp[c.gpos]? = some c.gbyte := (hag c.gpos hppos hgpos).trans (List.getElem?_set_self hgpos)
  have hbefore := hgroups inp ((hag.mono (le_refl _) hgpos.le).of_set (.inr (le_refl _)))
  have hgroup := hslots inp c.gbyte (fun _ _ => rfl)
    ((hag.mono (by omega) (le_refl _)).of_set (.inl (Nat.lt_succ_self _)))
  have hnext : 256 - gcnt = 256 - (gcnt + 1) + 1 := by omega
  rw [hbefore, hnext, refGroups_of_get hbyte (hgroup.trans hr)]

/-- R179: after a full group the next one follows; the first unused slot of another ends the block. -/
theorem Enc.ReadsBack.closedGroup (h : c.ReadsBack p) (hinv : c.Inv p) (hla : p.lookahead = .blockEnd)
    (hph : c.phase = .grpClose) : c.closedGroup.ReadsBack p := by
  have hg := hinv.inGroup (by rw [hph]; rfl)
  have hppos := hg.reservedGroup.1
  obtain ⟨hblocks, hinside⟩ := readsBack_of_inGroup h (.inr hph)
  obtain ⟨gcnt, hfull, hread⟩ := hinside.refGroups_closed hinv hla hph
  have hlen : c.closedGroup.out.length = c.out.length := List.length_set
  refine ⟨fun inp hag => hblocks inp (hag.of_set (.inr (show c.ppos ≤ c.gpos by omega))), fun hopen => ?_,
    fun _ hne inp hag => ?_⟩
  · have h4 : c.slot.toNat = 4 := by
      obtain ⟨-, h4 | hend⟩ := (hinv.framed hla).full hph
      · exact h4
      · exact hopen.elim (fun hlt => absurd hend hlt.ne) (congrArg BitVec.toNat)
    refine ⟨gcnt + 1, show c.bs + 4 * (gcnt + 1) ≤ c.p by omega, fun inp hag => ?_⟩
    rw [hlen] at hag ⊢
    exact hread inp (false, _) hag (by rw [h4]; rfl)
  · have hle := hg.slot
    have hslot4 : c.slot.toNat ≠ 4 := fun h4 => hne (BitVec.eq_of_toNat_eq h4)
    have hunused : 4 - c.slot.toNat = 3 - c.slot.toNat + 1 := by omega
    have hcode : slotCode c.gbyte (4 - (3 - c.slot.toNat + 1)) = 0 := slotCode_of_lt hg.unused (by omega)
    rw [hlen] at hag ⊢
    exact hread inp (true, _) hag (by rw [hunused, refSlots_of_code_zero _ hcode]; rfl)

/-- R212: with the end mark after a full last group the block's groups end. -/
theorem Enc.BetweenGroups.endMark (h : c.BetweenGroups p) (hinv : c.Inv p) (hla : p.lookahead = .blockEnd)
    (hph : c.phase = .blkClose) : (endMark c).GroupsEnd p := by
  have hin : c.phase.inBlock = true := by rw [hph]; rfl
  have hppos := (hinv.inBlock hin).ppos_lt
  obtain ⟨hfull, hends⟩ := h
  by_cases h4 : c.slot = 4
  · obtain ⟨gcnt, hge, hgroups⟩ := hfull (.inr h4)
    have hgcnt := hinv.gcnt_le hla hin hge (le_refl _)
    rw [endMark_eq, if_pos h4]
    intro inp hag
    have hbyte : inp[c.out.length]? = some 0 := by
      rw [hag _ (show c.ppos + 2 ≤ c.out.length by omega) (by simp)]
      exact List.getElem?_concat_length
    have hbefore := hgroups inp ((hag.mono (le_refl _) (by simp)).of_append (le_refl _))
    have hnext : 256 - gcnt = 255 - gcnt + 1 := by omega
    refine hbefore.trans ?_
    rw [hnext, refGroups_of_get hbyte (refSlots_of_code_zero _ (slotCode_zero 0))]
    simp
  · rw [endMark_eq, if_neg h4]
    exact hends ((hinv.framed hla).closed hph) h4

/-- R65: the two bytes patched are the size. -/
theorem toNat_prefixLow_add (size : Nat) (h : size < 65536) :
    (prefixLow size).toNat + 256 * (prefixHigh size).toNat = size := by
  rw [prefixLow, prefixHigh, BitVec.toNat_ofNat, BitVec.toNat_ofNat]
  omega

/-- R202: where the two bytes of a size stand R217 reads it. -/
theorem refPrefix_of_get {inp : Bytes} {a size : Nat} {dst : Bytes} (hsize : size < 65536)
    (h0 : inp[a]? = some (prefixLow size)) (h1 : inp[a + 1]? = some (prefixHigh size)) :
    refPrefix inp ⟨a, dst⟩ = .ok (size, ⟨a + 2, dst⟩) := by
  rw [refPrefix, refByte_of_get h0]
  simp only [ok_bind, refByte_of_get h1, toNat_prefixLow_add size hsize]
  rfl

/-- The end mark leaves the bytes before it. -/
theorem Agrees.of_endMark {inp : Bytes} {lo hi : Nat} (h : Agrees inp (endMark c).out lo hi) (hhi : hi ≤ c.out.length) :
    Agrees inp c.out lo hi := by
  rw [endMark_out] at h
  split at h
  · exact h.of_append hhi
  · exact h

/-- R212: a block closed reads by its two size bytes, which count its groups' bytes, and the blocks after it follow. -/
theorem Enc.ReadsBack.closedBlock (h : c.ReadsBack p) (hinv : c.Inv p) (hla : p.lookahead = .blockEnd)
    (hph : c.phase = .blkClose) : (closedBlock c).BlocksRead p (closedBlock c).out.length c.p := by
  have hin : c.phase.inBlock = true := by rw [hph]; rfl
  obtain ⟨hblocks, hbetween⟩ := readsBack_of_between h (.inr hph)
  have hends := hbetween.endMark hinv hla hph
  have hsize := hinv.blockBytes_endMark_le hla hph
  have hb := hinv.inBlock hin
  have hblk := hb.blk
  have hppos : c.ppos + 1 < c.out.length := hb.ppos_lt
  have hppos' : c.ppos + 1 < (Machine.endMark c).out.length := by simpa using hb.endMark.ppos_lt
  have hlen : (Machine.closedBlock c).out.length = (Machine.endMark c).out.length := by
    simp only [Machine.closedBlock, List.length_set]
  intro inp hag
  rw [hlen] at hag ⊢
  have hbefore := hblocks inp ((((hag.mono (le_refl _) (by omega)).of_set (.inr (by omega))).of_set
    (.inr (le_refl _))).of_endMark (by omega))
  have hlow : inp[c.ppos]? = some (prefixLow (Machine.endMark c).blockBytes) := by
    rw [hag _ (Nat.zero_le _) (by omega), Machine.closedBlock, List.getElem?_set_ne (by omega),
      List.getElem?_set_self (by omega)]
  have hhigh : inp[c.ppos + 1]? = some (prefixHigh (Machine.endMark c).blockBytes) := by
    rw [hag _ (Nat.zero_le _) hppos', Machine.closedBlock, List.getElem?_set_self (by simpa using hppos')]
  have hgroups := hends inp ((((hag.mono (Nat.zero_le _) (le_refl _)).of_set (.inl (by simp))).of_set
    (.inl (by simp))))
  simp only [endMark_ppos, endMark_src, endMark_bs, endMark_p] at hgroups
  have hread : (Machine.endMark c).out.length - (c.ppos + 2) = (Machine.endMark c).blockBytes := by
    rw [blockBytes, endMark_ppos, Config.format_prefixBytes]
  have hnext : c.nblocks - c.blk = c.nblocks - (c.blk + 1) + 1 := by omega
  rw [hbefore, hnext, refBlocks_succ, refPrefix_of_get (by omega) hlow hhigh]
  simp only [ok_bind, hgroups, hread]
  rw [if_neg (by simp)]
  simp only [Machine.closedBlock, endMark_nblocks, endMark_src, endMark_n]

/-- R212: the last block closed, the whole source is read back. -/
theorem Enc.ReadsBack.finished (h : c.ReadsBack p) (hinv : c.Inv p) (hla : p.lookahead = .blockEnd)
    (hph : c.phase = .blkClose) (hlast : ¬ c.blk + 1 < c.nblocks) :
    refDecompress p (Machine.closedBlock c).out true = .ok c.src := by
  have hb := hinv.inBlock (by rw [hph]; rfl)
  have hend : c.p = c.n := ((hinv.framed hla).closed hph).trans (hb.be_eq.2 hlast)
  have hdone := h.closedBlock hinv hla hph _ fun _ _ _ => rfl
  have hnone : (Machine.closedBlock c).nblocks - (Machine.closedBlock c).blk = 0 := by
    simp only [Machine.closedBlock, endMark_nblocks]
    omega
  have hsrc : (Machine.closedBlock c).src = c.src := endMark_src c
  have hn : (Machine.closedBlock c).n = c.src.length := (endMark_n c).trans hb.length
  rw [hdone, hnone, hsrc, hn, hend, hb.length, List.take_length, refBlocks, ok_bind, refFinish, if_neg (by simp)]

/-- Every step between HEADER and DONE keeps what is read back, under a legal code assignment and with room in the
destination. -/
theorem Enc.ReadsBack.of_proceedsTo {c' : Enc} (hla : p.lookahead = .blockEnd) (hm : p.codeMap.wf = true)
    (hroom : ∀ cap, p.dstCap = some cap → c.src.length ≤ cap) (hinv : c.Inv p) (hstep : c.ProceedsTo p c')
    (h : c.ReadsBack p) : c'.ReadsBack p := by
  cases hstep with
  | opensBlock hph => exact h.openedBlock hinv hla hph
  | leavesGroups hph =>
    have hread := readsBack_of_between h (.inl hph)
    exact hread
  | opensGroup hph hleft => exact h.openedGroup hinv hph hleft
  | fillsGroup hph =>
    have hread := readsBack_of_inGroup h (.inl hph)
    exact hread
  | emits hph hslot hleft hv => exact h.emit_choose hinv hla hm hroom hph hslot hleft hv
  | closesGroup hph => exact h.closedGroup hinv hla hph
  | nextBlock hph hnext =>
    have hread := h.closedBlock hinv hla hph
    rw [← endMark_p c] at hread
    exact hread
  | finishes hph hlast => exact (h.finished hinv hla hph hlast).trans (congrArg _ (endMark_src c).symm)

end

end Sys2Proof.Machine
end

section
/-! PROOFS. Compress, then a strict decompress (43_block_framer.md R215, R216). -/

namespace Sys2Proof.Machine

open Sys2Proof

section
variable {p : Params} {c : Enc}

/-- Two varints written one behind the other at the input's start read back one after the other. -/
theorem refVarint_of_two {f : VarintForm} {v w : Nat} {inp rest : Bytes} (hv : v ≤ 2 ^ 24 - 1) (hw : w ≤ 2 ^ 24 - 1)
    (h : inp = varintBytes f v ++ (varintBytes f w ++ rest)) :
    refVarint inp ⟨0, []⟩ = .ok (v, ⟨(varintBytes f v).length, []⟩) ∧
      refVarint inp ⟨(varintBytes f v).length, []⟩ = .ok (w, ⟨(varintBytes f v ++ varintBytes f w).length, []⟩) := by
  have hrest : Cursor.remaining inp ⟨(varintBytes f v).length, []⟩ = varintBytes f w ++ rest := by
    rw [Cursor.remaining, h]
    exact List.drop_left
  have hfirst := refVarint_of_varintBytes (c := ⟨0, []⟩) hv h
  rw [Cursor.past, Nat.zero_add] at hfirst
  rw [List.length_append]
  exact ⟨hfirst, refVarint_of_varintBytes hw hrest⟩

/-- R210: the header written reads as N and the block count, and no block is closed yet. -/
theorem Enc.readsBack_withHeader (c : Enc) {source : Bytes} (h1 : 1 ≤ source.length)
    (hn : source.length ≤ 2 ^ 24 - 1) : ((c.begin source).withHeader p).ReadsBack p := by
  intro inp hag
  have hcount : 1 ≤ ceilDiv source.length 512 ∧ ceilDiv source.length 512 - 1 ≤ 2 ^ 24 - 1 := by
    rw [ceilDiv]
    omega
  have hbytes := Agrees.drop_of_append (out := [])
    (bs := varintBytes p.varintForm source.length ++ varintBytes p.varintForm (ceilDiv source.length 512 - 1)) hag
    (le_refl _)
  rw [List.append_assoc] at hbytes
  obtain ⟨hsize, hblocks⟩ := refVarint_of_two (inp := inp) hn hcount.2 hbytes
  rw [refDecompress_eq, hsize]
  simp only [ok_bind, hblocks]
  rw [Nat.sub_add_cancel hcount.1]
  rfl

theorem Enc.ProceedsTo.src_eq {c' : Enc} (hm : c.ProceedsTo p c') : c'.src = c.src := by
  cases hm with
  | nextBlock => exact endMark_src c
  | finishes => exact endMark_src c
  | _ => rfl

/-- R216 for ENC: a compress of a source in the header's range comes to DONE with a RESULT that R217's function takes
back to the source. -/
theorem Enc.goesTo_readsBack (c : Enc) {source : Bytes} (hla : p.lookahead = .blockEnd) (hm : p.codeMap.wf = true)
    (hroom : ∀ cap, p.dstCap = some cap → source.length ≤ cap) (h1 : 1 ≤ source.length)
    (hn : source.length ≤ 2 ^ 24 - 1) :
    ∃ k c', GoesTo p k (c.begin source) c' ∧ c'.phase = .done ∧ refDecompress p c'.result true = .ok source := by
  obtain ⟨k, -, c', hgoes, hdone, hinv, hread, hsrc⟩ :=
    begin_goesTo_done (S := fun c => c.ReadsBack p ∧ c.src = source) hla
      (fun c c' hinv hstep ⟨hread, hsrc⟩ =>
        ⟨hread.of_proceedsTo hla hm (hsrc ▸ hroom) hinv hstep, hstep.src_eq.trans hsrc⟩)
      c h1 hn ⟨readsBack_withHeader _ h1 hn, rfl⟩
  rw [ReadsBack, hdone] at hread
  exact ⟨k, c', hgoes, hdone, by rw [hinv.result hdone, hread, hsrc]⟩

end

/-- Settles O59: the steps of ENC come to a RESULT that R217's function takes back to the source, and the steps of DEC
compute that function. -/
theorem compressThenDecompressIsIdentity : Obligations.CompressThenDecompressIsIdentity := by
  intro s source henc hdec hm hla hroom h1 hn
  obtain ⟨k, c, hgoes, hdone, hread⟩ := s.enc.goesTo_readsBack hla hm hroom h1 hn
  refine ⟨k, (s.startEnc source).withEnc c, runSteps_of_goesTo hgoes henc rfl rfl, hdone, ?_⟩
  obtain ⟨k', hk'⟩ := s.dec.computes_refDecompress true c.result (p := s.params) (.inr rfl)
  rw [hread] at hk'
  obtain ⟨hdone', hresult⟩ := hk'
  have halone : ((s.startEnc source).withEnc c).decAlone = true := by
    obtain ⟨-, hpending⟩ : s.enc.busy = false ∧ s.pending = [] := by simpa [State.decAlone] using hdec
    simp [State.decAlone, Enc.busy, hdone, hpending]
  exact ⟨k', _, runSteps_startDec k' true c.result halone, hdone', hresult⟩

end Sys2Proof.Machine
end

section
/-! PROOFS. Raising a fault, and the two that only a strict decompress raises (60_exceptions.md R230, R231, R233, R234,
R247). -/

namespace Sys2Proof.Machine

open Sys2Proof

/-- Settles O29: the record computes field by field, and the flags and the observation read the phase and the record
alone. -/
theorem raiseRecordsTheFault : Obligations.RaiseRecordsTheFault :=
  ⟨fun _ _ => rfl, fun _ _ _ => rfl, fun _ _ => rfl, fun _ => rfl, fun _ => rfl, rfl, fun _ => rfl, fun _ _ => rfl,
    fun _ => rfl, fun _ _ => rfl, fun _ _ => ⟨rfl, rfl, rfl, rfl, rfl, rfl⟩,
    fun _ _ => ⟨rfl, rfl, rfl, rfl, rfl, rfl⟩⟩

/-! ### The size mismatches -/

/-- DEC is not in FAULT with one of the two size mismatches, codes 2 and 3 (R233, R234). -/
def Dec.NoSizeFault (d : Dec) : Prop := d.phase = .fault → ¬ (d.fault.code = 2 ∨ d.fault.code = 3)

theorem Dec.noSizeFault_of_phase_ne {d : Dec} (h : d.phase ≠ .fault) : d.NoSizeFault := fun hph => absurd hph h

theorem Dec.noSizeFault_raise (d : Dec) {e : Exn} (he : ¬ (e.record.code = 2 ∨ e.record.code = 3)) :
    (d.raise e).NoSizeFault := fun _ => he

theorem Dec.noSizeFault_advance (d : Dec) : (advance d).NoSizeFault := by
  refine noSizeFault_of_phase_ne ?_
  rw [advance_phase]
  split
  · nofun
  · nofun

section
variable {p : Params} {d : Dec}

theorem inByte_leaves_noSizeFault (h : d.NoSizeFault) : (inByte d).Leaves Dec.NoSizeFault := by
  obtain ⟨b, -, hread⟩ | ⟨-, hraise⟩ := inByte_cases d
  · rw [hread]
    exact h
  · rw [hraise]
    exact d.noSizeFault_raise (by simp [Exn.record])

theorem fetch_leaves_noSizeFault (pl : Place) (p : Params) (h : d.NoSizeFault) :
    (fetch pl p d).Leaves Dec.NoSizeFault := by
  obtain ⟨i, rest, -, hfetch⟩ | ⟨-, hfetch⟩ | ⟨code, -, hfetch⟩ := fetch_cases pl p d
  · rw [hfetch]
    exact h
  · rw [hfetch]
    exact Dec.noSizeFault_raise _ (by simp [Exn.record])
  · rw [hfetch]
    exact d.noSizeFault_raise (by simp [Exn.record])

theorem takeHeader_leaves_noSizeFault (v : BitVec 32) (d : Dec) : (takeHeader v d).Leaves Dec.NoSizeFault := by
  obtain ⟨-, h⟩ | ⟨-, h⟩ | ⟨-, -, h⟩ := takeHeader_cases v d
  · rw [h]
    exact Dec.noSizeFault_of_phase_ne nofun
  · rw [h]
    exact Dec.noSizeFault_of_phase_ne nofun
  · rw [h]
    trivial

theorem leaves_noSizeFault_of_appendsOf {i : Instr} {bs : Bytes} (h : d.AppendsOf p i bs) :
    (meaning i p d).Leaves Dec.NoSizeFault := by
  rw [h]
  obtain ⟨-, hall⟩ | ⟨k, -, -, hall⟩ := dstAppendAll_cases p bs d
  · rw [hall]
    exact Dec.noSizeFault_advance _
  · rw [hall]
    exact Dec.noSizeFault_raise _ (by simp [Exn.record])

/-- No instruction raises a size mismatch. -/
theorem meaning_leaves_noSizeFault (i : Instr) (p : Params) (d : Dec) :
    (meaning i p d).Leaves Dec.NoSizeFault := by
  cases i with
  | endBlock => exact Dec.noSizeFault_of_phase_ne nofun
  | copy v => exact leaves_noSizeFault_of_appendsOf (d.appendsOf_copy p v)
  | lz77 dist n =>
    obtain ⟨-, h⟩ | ⟨-, -, h⟩ | ⟨h2, hle, -⟩ := lz77_cases dist n p d
    · rw [meaning, h]
      exact d.noSizeFault_raise (by simp [Exn.record])
    · rw [meaning, h]
      exact d.noSizeFault_raise (by simp [Exn.record])
    · exact leaves_noSizeFault_of_appendsOf (Dec.appendsOf_lz77 p n h2 hle)
  | rle n v => exact leaves_noSizeFault_of_appendsOf (d.appendsOf_rle p n v)
  | varint1 | varint2 | varint3 | varint4 => exact takeHeader_leaves_noSizeFault _ d

theorem fetchAndRun_leaves_noSizeFault (pl : Place) (h : d.NoSizeFault) :
    ((fetch pl p d).bind fun i d' => meaning i p d').Leaves Dec.NoSizeFault :=
  (fetch_leaves_noSizeFault pl p h).bind fun i d' _ => meaning_leaves_noSizeFault i p d'

theorem blkPrefix_leaves_noSizeFault (h : d.NoSizeFault) : (blkPrefix p d).Leaves Dec.NoSizeFault :=
  (inByte_leaves_noSizeFault h).bind fun _ _ h1 =>
    (inByte_leaves_noSizeFault h1).bind fun _ _ _ => Dec.noSizeFault_of_phase_ne nofun

theorem grpFetch_leaves_noSizeFault (h : d.NoSizeFault) : (grpFetch p d).Leaves Dec.NoSizeFault := by
  unfold grpFetch
  split
  · exact Dec.noSizeFault_of_phase_ne nofun
  · exact (inByte_leaves_noSizeFault h).bind fun _ _ _ => Dec.noSizeFault_of_phase_ne nofun

/-- R203: a block check that is not strict passes. -/
theorem blkCheck_leaves_noSizeFault (hs : d.strict = false) : (blkCheck p d).Leaves Dec.NoSizeFault := by
  rw [blkCheck_passes p (Dec.blockMismatch_eq_false_iff.2 (.inl hs))]
  split
  · exact Dec.noSizeFault_of_phase_ne nofun
  · exact Dec.noSizeFault_of_phase_ne nofun

/-- R205: a stream check that is not strict passes. -/
theorem streamCheck_leaves_noSizeFault (hs : d.strict = false) : (streamCheck p d).Leaves Dec.NoSizeFault := by
  rw [streamCheck_passes p (Dec.sizeMismatch_eq_false_iff.2 (.inl hs))]
  exact Dec.noSizeFault_of_phase_ne nofun

/-- R247: a step of a DEC that is not strict raises neither size mismatch. -/
theorem decRule_leaves_noSizeFault (p : Params) (hs : d.strict = false) (h : d.NoSizeFault) :
    (decRule p d).Leaves Dec.NoSizeFault := by
  unfold decRule
  split
  case h_1 => exact h
  case h_2 => exact fetchAndRun_leaves_noSizeFault .header h
  case h_3 => exact fetchAndRun_leaves_noSizeFault .header h
  case h_4 => exact blkPrefix_leaves_noSizeFault h
  case h_5 => exact grpFetch_leaves_noSizeFault h
  case h_6 => exact fetchAndRun_leaves_noSizeFault .slot h
  case h_7 => exact blkCheck_leaves_noSizeFault hs
  case h_8 => exact streamCheck_leaves_noSizeFault hs
  case h_9 => exact h
  case h_10 => exact h

/-- R23: every move of DEC keeps DEC.strict. -/
theorem Dec.MovesTo.strict_eq {d' : Dec} (hm : d.MovesTo p d') : d'.strict = d.strict := by
  cases hm with
  | faults hf => obtain ⟨n, bs, e, -, -, -, rfl⟩ := hf; rfl
  | appends => rw [advance_strict]; rfl
  | _ => rfl

end

/-- Settles O49: DEC comes to FAULT by its own step only, which keeps DEC.strict and, were it 0, would raise neither
mismatch. -/
theorem sizeFaultsOnlyWhenStrict : Obligations.SizeFaultsOnlyWhenStrict := by
  intro s t h hbefore hafter hcode
  obtain ⟨-, rfl⟩ | ⟨-, d, hd, rfl⟩ | ⟨-, c, -, rfl⟩ | ⟨-, w, ws, -, -, rfl⟩ := step_cases h
  · exact absurd hafter hbefore
  · have hkept : d.strict = s.dec.strict := ((decRule_yields s.params s.dec).of_left hd).strict_eq
    have hstrict : s.dec.strict = true := by
      by_contra hs
      exact (decRule_leaves_noSizeFault s.params (Bool.eq_false_iff.2 hs)
        (Dec.noSizeFault_of_phase_ne hbefore)).of_left hd hafter hcode
    exact ⟨hstrict, hkept.trans hstrict⟩
  · exact absurd (by simpa using hafter) hbefore
  · rw [writeStart_dec] at hafter
    split at hafter
    · cases hafter
    · exact absurd (by simpa using hafter) hbefore

end Sys2Proof.Machine
end

section
/-! PROOFS. A strict decompress and the non-strict one of the same input step together until a check raises
(60_exceptions.md R247, 43_block_framer.md R203 to R205): DEC.strict is read by the two checks alone. -/

namespace Sys2Proof.Machine

open Sys2Proof

/-! ### A rule on a changed state -/

/-- The rule's answer with `g` applied to the state it leaves. -/
def Act.mapState {σ α : Type} (g : σ → σ) : Act σ α → Act σ α
  | .go a s => .go a (g s)
  | .raised s => .raised (g s)
  | .stop r => .stop r

theorem Act.bind_mapState {σ α β : Type} {g : σ → σ} (m : Act σ α) {f : α → σ → Act σ β}
    (hf : ∀ a s, f a (g s) = (f a s).mapState g) : (m.mapState g).bind f = (m.bind f).mapState g := by
  cases m with
  | go a s => exact hf a s
  | raised s => rfl
  | stop r => rfl

/-- DEC with another value of DEC.strict. -/
def Dec.withStrict (b : Bool) (d : Dec) : Dec := { d with strict := b }

/-- What a rule does, it does the same whatever DEC.strict is, and leaves DEC.strict as it is. -/
def IgnoresStrict {α : Type} (f : Dec → Act Dec α) : Prop :=
  ∀ (b : Bool) (d : Dec), f (d.withStrict b) = (f d).mapState (Dec.withStrict b)

theorem IgnoresStrict.bind {α β : Type} {f : Dec → Act Dec α} {g : α → Dec → Act Dec β} (hf : IgnoresStrict f)
    (hg : ∀ a, IgnoresStrict (g a)) : IgnoresStrict fun d => (f d).bind g := by
  intro b d
  dsimp only
  rw [hf b d, Act.bind_mapState _ fun a => hg a b]

/-! ### The rules outside the checks -/

theorem inByte_ignoresStrict : IgnoresStrict inByte := by
  intro b d
  obtain ⟨v, hv, hread⟩ | ⟨hend, hraise⟩ := inByte_cases d
  · rw [hread, inByte_go (d := d.withStrict b) hv]
    rfl
  · rw [hraise, inByte_end (d := d.withStrict b) hend]
    rfl

theorem fetch_ignoresStrict (pl : Place) (p : Params) : IgnoresStrict (fetch pl p) := by
  intro b d
  obtain ⟨i, rest, hdec, hfetch⟩ | ⟨hdec, hfetch⟩ | ⟨code, hdec, hfetch⟩ := fetch_cases pl p d
  · rw [hfetch, fetch_go (d := d.withStrict b) hdec]
    rfl
  · rw [hfetch, fetch_end (d := d.withStrict b) hdec]
    rfl
  · rw [hfetch, fetch_invalid (d := d.withStrict b) hdec]
    rfl

theorem dstAppend_ignoresStrict (p : Params) (v : Byte) : IgnoresStrict (dstAppend p v) := by
  intro b d
  by_cases hfull : p.dstCap = some d.dst.length
  · rw [dstAppend_full v hfull, dstAppend_full (d := d.withStrict b) v hfull]
    rfl
  · rw [dstAppend_go v hfull, dstAppend_go (d := d.withStrict b) v hfull]
    rfl

theorem dstAppendAll_ignoresStrict (p : Params) (bs : Bytes) : IgnoresStrict (dstAppendAll p bs) := by
  induction bs with
  | nil => exact fun _ _ => rfl
  | cons v bs ih => exact (dstAppend_ignoresStrict p v).bind fun _ => ih

theorem advance_withStrict (b : Bool) (d : Dec) : advance (d.withStrict b) = (advance d).withStrict b := by
  by_cases h3 : d.slot = 3
  · rw [advance, advance, if_pos h3, if_pos (by exact h3)]
    rfl
  · rw [advance, advance, if_neg h3, if_neg (by exact h3)]
    rfl

theorem advance_ignoresStrict : IgnoresStrict fun d => .go () (advance d) :=
  fun b d => congrArg (Act.go ()) (advance_withStrict b d)

theorem takeHeader_ignoresStrict (v : BitVec 32) : IgnoresStrict (takeHeader v) := by
  intro b d
  have hph : (d.withStrict b).phase = d.phase := rfl
  unfold takeHeader
  rw [hph]
  cases d.phase with
  | _ => rfl

theorem meaning_withStrict_of_appendsOf {p : Params} {d : Dec} {b : Bool} {i : Instr} {bs : Bytes}
    (h : d.AppendsOf p i bs) (h' : (d.withStrict b).AppendsOf p i bs) :
    meaning i p (d.withStrict b) = (meaning i p d).mapState (Dec.withStrict b) := by
  rw [h, h']
  exact (dstAppendAll_ignoresStrict p bs).bind (fun _ => advance_ignoresStrict) b d

theorem meaning_ignoresStrict (i : Instr) (p : Params) : IgnoresStrict (meaning i p) := by
  intro b d
  cases i with
  | endBlock => rfl
  | copy v => exact meaning_withStrict_of_appendsOf (d.appendsOf_copy p v) (Dec.appendsOf_copy p _ v)
  | lz77 dist n =>
    obtain ⟨h2, h⟩ | ⟨h2, hlt, h⟩ | ⟨h2, hle, -⟩ := lz77_cases dist n p d
    · rw [meaning, h, lz77, Config.format_minDist, if_pos h2]
      rfl
    · rw [meaning, h, lz77, Config.format_minDist, if_neg (by omega), if_pos (by exact hlt)]
      rfl
    · exact meaning_withStrict_of_appendsOf (Dec.appendsOf_lz77 p n h2 hle)
        (Dec.appendsOf_lz77 (d := d.withStrict b) p n h2 hle)
  | rle n v => exact meaning_withStrict_of_appendsOf (d.appendsOf_rle p n v) (Dec.appendsOf_rle p _ n v)
  | varint1 | varint2 | varint3 | varint4 => exact takeHeader_ignoresStrict _ b d

theorem fetchAndRun_ignoresStrict (pl : Place) (p : Params) :
    IgnoresStrict fun d => (fetch pl p d).bind fun i d' => meaning i p d' :=
  (fetch_ignoresStrict pl p).bind fun i => meaning_ignoresStrict i p

theorem blkPrefix_ignoresStrict (p : Params) : IgnoresStrict (blkPrefix p) :=
  inByte_ignoresStrict.bind fun _ => inByte_ignoresStrict.bind fun _ _ _ => rfl

theorem grpFetch_ignoresStrict (p : Params) : IgnoresStrict (grpFetch p) := by
  intro b d
  by_cases hg : d.gcnt = 256
  · rw [grpFetch_bound p hg, grpFetch_bound (d := d.withStrict b) p hg]
    rfl
  · rw [grpFetch_below p hg, grpFetch_below (d := d.withStrict b) p hg]
    exact inByte_ignoresStrict.bind (fun _ _ _ => rfl) b d

/-- R247: outside the two checks no step depends on DEC.strict. -/
theorem decRule_withStrict (p : Params) (b : Bool) {d : Dec} (hblock : d.phase ≠ .blkCheck)
    (hstream : d.phase ≠ .streamCheck) :
    decRule p (d.withStrict b) = (decRule p d).mapState (Dec.withStrict b) := by
  have hph : (d.withStrict b).phase = d.phase := rfl
  rw [decRule, decRule, hph]
  split
  case h_1 => rfl
  case h_2 => exact fetchAndRun_ignoresStrict .header p b d
  case h_3 => exact fetchAndRun_ignoresStrict .header p b d
  case h_4 => exact blkPrefix_ignoresStrict p b d
  case h_5 => exact grpFetch_ignoresStrict p b d
  case h_6 => exact fetchAndRun_ignoresStrict .slot p b d
  case h_7 h => exact absurd h hblock
  case h_8 h => exact absurd h hstream
  case h_9 => rfl
  case h_10 => rfl

/-! ### The two decompresses side by side -/

/-- What the strict decompress keeps: strict mode, and in a block a position not before the block's first byte. -/
structure Dec.StrictlyReads (d : Dec) : Prop where
  strict : d.strict = true
  forward : d.phase.inBlock = true → d.bstart ≤ d.ipos

section
variable {p : Params} {d d' : Dec}

theorem Dec.StrictlyReads.of_movesTo (h : d.StrictlyReads) (hm : d.MovesTo p d') : d'.StrictlyReads where
  strict := hm.strict_eq.trans h.strict
  forward hin := by
    cases hm with
    | rests => exact h.forward hin
    | takesSize | takesBlocks | nextBlock | lastBlock | finishes => cases hin
    | opensBlock => exact le_refl _
    | meetsBound hph => exact h.forward (by rw [hph]; rfl)
    | opensGroup hph | endsBlock hph => exact Nat.le_add_right_of_le (h.forward (by rw [hph]; rfl))
    | appends hph =>
      rw [advance_bstart, advance_ipos]
      exact Nat.le_add_right_of_le (h.forward (by rw [hph]; rfl))
    | faults hf => obtain ⟨n, bs, e, -, -, -, rfl⟩ := hf; cases hin

/-- R203, R204: after a block whose size is as declared both readings of NONSTRICT_RESYNC read on at ipos. -/
theorem Dec.StrictlyReads.nextPrefix_eq (h : d.StrictlyReads) (hph : d.phase = .blkCheck)
    (hok : d.blockMismatch = false) : (d.withStrict false).nextPrefix p = d.ipos := by
  have hsize : d.ipos - d.bstart = d.bsize.toNat :=
    (Dec.blockMismatch_eq_false_iff.1 hok).resolve_left (by simp [h.strict])
  have hle : d.bstart ≤ d.ipos := h.forward (by rw [hph]; rfl)
  have hseek : d.bstart + d.bsize.toNat = d.ipos := by omega
  cases hr : p.resync with
  | stay => rw [nextPrefix, hr]; rfl
  | seekToPrefix => rw [nextPrefix, hr]; exact hseek

/-- R203: a block check the strict decompress passes, the non-strict one passes alike. -/
theorem Dec.StrictlyReads.blkCheck_nonStrict (h : d.StrictlyReads) (hph : d.phase = .blkCheck)
    (hok : d.blockMismatch = false) :
    blkCheck p (d.withStrict false) = .go () (d.afterCheck.withStrict false) := by
  rw [blkCheck_passes p (Dec.blockMismatch_eq_false_iff.2 (.inl rfl)), h.nextPrefix_eq hph hok]
  by_cases hnext : d.blk + 1 < d.nblocks
  · rw [if_pos (by exact hnext), Dec.afterCheck, if_pos hnext]
    rfl
  · rw [if_neg (by exact hnext), Dec.afterCheck, if_neg hnext]
    rfl

/-- R247: a step of the strict decompress that raises no fault is a step of the non-strict one. -/
theorem Dec.StrictlyReads.decNext_nonStrict (h : d.StrictlyReads) (hok : (decNext p d).phase ≠ .fault) :
    decNext p (d.withStrict false) = (decNext p d).withStrict false := by
  by_cases hblock : d.phase = .blkCheck
  · have hrule := decRule_blkCheck (p := p) hblock
    have hrule' := decRule_blkCheck (p := p) (d := d.withStrict false) hblock
    cases hm : d.blockMismatch with
    | true =>
      rw [decNext_of_raised (hrule.trans (blkCheck_raises p hm))] at hok
      exact absurd rfl hok
    | false =>
      rw [decNext_of_go (hrule.trans (blkCheck_passes_in_place (.inr h.strict) hm)),
        decNext_of_go (hrule'.trans (h.blkCheck_nonStrict hblock hm))]
  · by_cases hstream : d.phase = .streamCheck
    · have hrule := decRule_streamCheck (p := p) hstream
      have hrule' := decRule_streamCheck (p := p) (d := d.withStrict false) hstream
      cases hm : d.sizeMismatch with
      | true =>
        rw [decNext_of_raised (hrule.trans (streamCheck_raises p hm))] at hok
        exact absurd rfl hok
      | false =>
        rw [decNext_of_go (hrule.trans (streamCheck_passes p hm)),
          decNext_of_go (hrule'.trans (streamCheck_passes p (Dec.sizeMismatch_eq_false_iff.2 (.inl rfl))))]
        rfl
    · have hrule := decRule_withStrict p false hblock hstream
      obtain hgo | hraise := decRule_eq_decNext p d
      · exact decNext_of_go (hrule.trans (by rw [hgo]; rfl))
      · exact decNext_of_raised (hrule.trans (by rw [hraise]; rfl))

/-- A DEC that comes to DONE has not raised a fault on the way. -/
theorem phase_ne_fault_of_iterate_done {k : Nat} (h : ((decNext p)^[k] d).phase = .done) : d.phase ≠ .fault := by
  intro hfault
  rw [Function.iterate_fixed (decNext_of_not_busy p (by simp [Dec.busy, hfault])), hfault] at h
  cases h

/-- A strict decompress that comes to DONE has at every step had the non-strict one beside it. -/
theorem Dec.StrictlyReads.iterate_nonStrict (h : d.StrictlyReads) (k : Nat)
    (hdone : ((decNext p)^[k] d).phase = .done) :
    (decNext p)^[k] (d.withStrict false) = ((decNext p)^[k] d).withStrict false := by
  induction k generalizing d with
  | zero => rfl
  | succ k ih =>
    rw [Function.iterate_succ_apply] at hdone
    rw [Function.iterate_succ_apply, Function.iterate_succ_apply,
      h.decNext_nonStrict (phase_ne_fault_of_iterate_done hdone)]
    exact ih (h.of_movesTo (decNext_movesTo p d)) hdone

end

/-- Settles O57: the non-strict decompress goes through the states of the strict one, with DEC.strict = 0. -/
theorem strictDecodesAlsoNonStrict : Obligations.StrictDecodesAlsoNonStrict := by
  intro s t input k ha hrun hdone
  rw [runSteps_startDec k true input ha] at hrun
  cases hrun
  rw [State.withDec_dec] at hdone
  have hreads : (s.dec.begin true input).StrictlyReads := ⟨rfl, nofun⟩
  have hboth : (decNext s.params)^[k] (s.dec.begin false input) = _ := hreads.iterate_nonStrict k hdone
  refine ⟨_, runSteps_startDec k false input ha, ?_⟩
  rw [State.withDec_dec, hboth]
  exact ⟨hdone, rfl⟩

end Sys2Proof.Machine
end

section
/-! PROOFS. Every compress ends: CHECK refuses a source outside the header's range at once, and any other comes to DONE
(43_block_framer.md R209, 70_reset_and_hazards.md R272). -/

namespace Sys2Proof.Machine

open Sys2Proof

/-- R209: outside the header's range CHECK raises. -/
theorem encCheck_refuses (p : Params) {c : Enc} (h : ¬ (1 ≤ c.n ∧ c.n ≤ 2 ^ 24 - 1)) :
    ∃ e, encCheck p c = .raised (c.raise e) := by
  by_cases h0 : c.n = 0
  · exact ⟨_, encCheck_empty p h0⟩
  · exact ⟨_, encCheck_long p (by omega)⟩

/-- With ENC alone at work the step on which a busy ENC raises leaves what it raised. -/
theorem step_of_encAlone_raised {s : State} {c : Enc} (ha : s.encAlone = true) (hb : s.enc.busy = true)
    (hraised : encRule s.params s.enc = .raised c) : step s = .next (s.withEnc c) :=
  (step_encAlone ha hb).trans (onEnc_raised hraised)

/-- Settles O55: a source in the header's range comes to DONE within 7 · N + 2 steps, any other to FAULT in one. -/
theorem compressEnds : Obligations.CompressEnds := by
  intro s input ha hla
  by_cases hrange : 1 ≤ input.length ∧ input.length ≤ 2 ^ 24 - 1
  case pos =>
    obtain ⟨k, hk, c, hgoes, hdone, -⟩ := Enc.begin_goesTo_done (S := fun _ => True) hla
      (fun _ _ _ _ _ => trivial) s.enc hrange.1 hrange.2 trivial
    exact ⟨k, _, by omega, runSteps_of_goesTo hgoes ha rfl rfl, .inl hdone, iff_of_true hdone hrange⟩
  case neg =>
    obtain ⟨e, he⟩ := encCheck_refuses s.params (c := s.enc.begin input) hrange
    have hstep := step_of_encAlone_raised (s := s.startEnc input) ha rfl ((encRule_check rfl).trans he)
    exact ⟨1, _, by omega, runSteps_succ 0 hstep, .inr rfl, iff_of_false nofun hrange⟩

end Sys2Proof.Machine
end

section
/-! PROOFS. The host's START, and the state after reset (10_state.md R42, R46, 70_reset_and_hazards.md R260 to R262). -/

namespace Sys2Proof.Machine

open Sys2Proof

/-! ### START -/

/-- R42, R271: a START waits for the engine it addresses; op 0 and 3 wait for both (log 15). -/
theorem startAllowed_iff {w : StartPort} {s : State} :
    startAllowed w s = true ↔ (w.op ≠ 2 → s.dec.busy = false) ∧ (w.op ≠ 1 → s.enc.busy = false) := by
  unfold startAllowed
  split
  case isTrue h1 => simp [h1]
  case isFalse h1 =>
    split
    case isTrue h2 => simp [h2]
    case isFalse h2 =>
      rw [Bool.and_eq_true, Bool.not_eq_true', Bool.not_eq_true', imp_iff_right h2, imp_iff_right h1]

section
variable {s : State} {w : StartPort} {ws : List StartPort}

/-- The host moves only when its next START may be written. -/
theorem startAllowed_of_mover_host (hm : s.mover = some .host) (hp : s.pending = w :: ws) :
    startAllowed w s = true := by
  have henabled := mover_enabled hm
  rwa [State.enabled, hp] at henabled

/-- The host's step writes the oldest START to come. -/
theorem step_writesStart (hm : s.mover = some .host) (hp : s.pending = w :: ws) :
    step s = .next (writeStart w { s.reschedule with pending := ws }) := by
  have hallowed : startAllowed w s.reschedule = true := by
    simpa [startAllowed_iff] using startAllowed_of_mover_host hm hp
  simp [step_host hm, hostStep, hp, hallowed]

/-- R261: op 1 writes all of START and starts DEC. -/
theorem writeStart_of_op_one (s : State) (h : w.op = 1) :
    writeStart w s = { s with start := w, dec := s.dec.begin w.strict w.input } := by
  rw [writeStart, if_pos h, StartPort.write, if_pos h]

/-- R262: op 2 keeps START.strict and starts ENC. -/
theorem writeStart_of_op_two (s : State) (h : w.op = 2) :
    writeStart w s = { s with
      start := { op := 2, strict := s.start.strict, input := w.input }, enc := s.enc.begin w.input } := by
  have h1 : w.op ≠ 1 := by simp [h]
  rw [writeStart, if_neg h1, if_pos h, StartPort.write, if_neg h1, h]

/-- R42: op 0 and 3 keep START.strict and start nothing. -/
theorem writeStart_of_op_other (s : State) (h1 : w.op ≠ 1) (h2 : w.op ≠ 2) :
    writeStart w s = { s with start := { op := w.op, strict := s.start.strict, input := w.input } } := by
  rw [writeStart, if_neg h1, if_neg h2, StartPort.write, if_neg h1]

end

/-- Settles O31: the host's step is its START write, which op tells apart. -/
theorem startBeginsTheOperation : Obligations.StartBeginsTheOperation := by
  refine ⟨fun s w ws hm hp h1 => ?_, fun s w ws hm hp h2 => ?_, fun s w ws hm hp h1 h2 => ?_,
    fun s w ws hm hp => startAllowed_iff.1 (startAllowed_of_mover_host hm hp)⟩
  · rw [step_writesStart hm hp, writeStart_of_op_one _ h1, State.reschedule_dec]
    rfl
  · rw [step_writesStart hm hp, writeStart_of_op_two _ h2, State.reschedule_enc, State.reschedule_start]
    rfl
  · rw [step_writesStart hm hp, writeStart_of_op_other _ h1 h2, State.reschedule_start]

/-! ### Reset -/

/-- Settles O32: the registers by reset's definition, and the step because no agent can move. -/
theorem resetIsIdle : Obligations.ResetIsIdle :=
  ⟨rfl, rfl, rfl, rfl, rfl, rfl, rfl, rfl, rfl, rfl, rfl, rfl, rfl, rfl, rfl, step_none (by decide)⟩

/-- The registers of DEC are in range after reset. -/
theorem Dec.ranges_reset : Dec.reset.Ranges Params.spec where
  usize := by decide
  nblocks := by decide
  gcnt := by decide
  slot := by decide
  ipos _ := Nat.le_refl 0
  cap := nofun

/-- Settles O50: after reset both engines are outside a block, with FAULT clear and the registers in range. -/
theorem resetMeetsInv : Obligations.ResetMeetsInv where
  dec := Dec.ranges_reset.inv_of_outside rfl nofun rfl nofun (fun h => h.elim nofun nofun) nofun
  enc := Enc.inv_of_outside rfl nofun rfl rfl (Nat.zero_le 4) (fun h => h.elim nofun nofun) nofun nofun nofun

end Sys2Proof.Machine
end
